-- ==== Sys2Proof/Word.lean ====
section
/-! DEFINITION. The word types of THASH-CORE (spec 00_scope.md R12, R13; 10_state.md R30, R50).

Registers, offsets, addresses under computation and encoded fields are bit vectors; arithmetic on them
wraps at their width. Counts and indexes are `Nat`. -/

namespace Sys2Proof

/-- One byte of the message memory, of a chunk or of the digest. -/
abbrev Byte := BitVec 8

/-- A host-visible register, and the host data bus (R30, R79). -/
abbrev Word32 := BitVec 32

/-- An engine register `H[i]`, `V[i]` or `W[t]`, and a trace word (R50, R104). -/
abbrev Word64 := BitVec 64

end Sys2Proof
end

