-- ==== Sys2Proof/Machine/RegMap.lean ====
section
/-! DEFINITION. The host address map (spec 10_state.md R30; 20_memory.md R71, R73; 30_encoding.md
R107): the register names, their byte offsets, and the register at an offset. -/

namespace Sys2Proof.Machine

/-- The host-visible registers of R30. -/
inductive Reg where
  | id | ctrl | cmd | status | msgLenLo | msgLenHi | irqEn | chunks | memsize
  | digest (k : Fin 16)
  deriving DecidableEq, Repr

/-- The register region is the lower half of the 16-bit offset space (R71), so a register offset has
15 bits. -/
abbrev RegOffset := BitVec 15

/-- The byte offset of `CTRL` (R30). -/
abbrev ctrlOffset : RegOffset := 0x0004#15

/-- The byte offset of `CMD` (R30). -/
abbrev cmdOffset : RegOffset := 0x0008#15

/-- The byte offset of each register (R30, R107). -/
def Reg.offset : Reg → RegOffset
  | .id => 0x0000#15
  | .ctrl => ctrlOffset
  | .cmd => cmdOffset
  | .status => 0x000C#15
  | .msgLenLo => 0x0010#15
  | .msgLenHi => 0x0014#15
  | .irqEn => 0x0018#15
  | .chunks => 0x001C#15
  | .memsize => 0x0020#15
  | .digest k => BitVec.ofNat 15 (0x0040 + 4 * k.val)

/-- The register at a byte offset. `none` where R73 and R78 say that a 4-byte access reads 0 and
writes nothing: the unmapped ranges 0x0024-0x003F and 0x0080-0x7FFF, and every misaligned offset. -/
def regAt (off : RegOffset) : Option Reg :=
  if off.toNat % 4 ≠ 0 then none
  else match off.toNat / 4 with
    | 0 => some .id
    | 1 => some .ctrl
    | 2 => some .cmd
    | 3 => some .status
    | 4 => some .msgLenLo
    | 5 => some .msgLenHi
    | 6 => some .irqEn
    | 7 => some .chunks
    | 8 => some .memsize
    | q => if h : 16 ≤ q ∧ q < 32 then some (.digest ⟨q - 16, by omega⟩) else none

end Sys2Proof.Machine
end

