-- ==== Sys2Proof/Syntax.lean ====
section
/-! DEFINITION. The host operations of THASH-CORE, one constructor per row of spec/opcode_table.json.

The hardware runs no instruction stream (30_encoding.md R100): what the host issues is one bus
transaction at a time, listed as a 64-bit trace word (R104). A row of format TRACE is such a word. A
row of format CMD is a value carried by `wr32 CMD, v`, and a row of format CTRL a value carried by
`wr32 CTRL, v`; so each row is one kind of transaction. -/

namespace Sys2Proof

/-- The direction of a host transaction (20_memory.md R78; R104, field DIR). -/
inductive Dir where
  | read | write
  deriving DecidableEq, Repr

/-- The sizes that are not effective in the register region (R78 case 1; R104, SZ 0 and 1). -/
inductive NarrowSize where
  | byte | half
  deriving DecidableEq, Repr

/-- A host operation. `rsv` is the reserved part [31:4] of a word written to CTRL (R102); `off` is a
register-region offset; `a` is the window byte index OFF - 0x8000 (R78); `data` is the write data. -/
inductive Instr where
  -- format CMD: `wr32 CMD, v` (R101)
  | nop
  | hash
  | clear
  | cmdReserved (op : BitVec 32)
  -- format CTRL: `wr32 CTRL, v` (R102, R103)
  | sha1 (rsv : BitVec 28)
  | sha224 (rsv : BitVec 28)
  | sha256 (rsv : BitVec 28)
  | sha384 (rsv : BitVec 28)
  | sha512 (rsv : BitVec 28)
  | sha512_224 (rsv : BitVec 28)
  | sha512_256 (rsv : BitVec 28)
  | algReserved0 (rsv : BitVec 28)
  | algReserved8F (rsv : BitVec 28) (low : BitVec 3)
  -- format TRACE: register region (R207, R208, R78 case 1)
  | regRd (off : BitVec 15)
  | regWr (off : BitVec 15) (data : BitVec 32)
  | regNarrow (dir : Dir) (size : NarrowSize) (off : BitVec 15) (data : BitVec 32)
  -- format TRACE: message window (R76, R77, R78 case 2)
  | msgRd8 (a : BitVec 15)
  | msgRd16 (a : BitVec 15)
  | msgRd32 (a : BitVec 15)
  | msgWr8 (a : BitVec 15) (data : BitVec 32)
  | msgWr16 (a : BitVec 15) (data : BitVec 32)
  | msgWr32 (a : BitVec 15) (data : BitVec 32)
  deriving DecidableEq, Repr

end Sys2Proof
end

