-- ==== Sys2Proof/Decode.lean ====
section
/-! DEFINITION. From a trace word to a host operation and back (30_encoding.md R101 to R104, R106;
opcode_table.json).

The trace word of R104: DIR is bit 63, SZ bits 57:56, OFF bits 47:32, DATA bits 31:0; bits 62:58 and
55:48 are reserved and zero, and SZ = 3 is not used. OFF bit 15 (word bit 47) chooses between the
register region and the message window (20_memory.md R71). -/

namespace Sys2Proof

/-- Why a 64-bit word is no trace word. -/
inductive DecodeError where
  /-- A bit of [62:58] or [55:48] is set (R104: "reserved, zero"). -/
  | reservedBitSet
  /-- SZ = 3 (R104: "3 is not used"). -/
  | sizeNotUsed
  deriving DecidableEq, Repr

/-- What the decoder answers. -/
inductive Decoded where
  | instr (i : Instr)
  | reject (why : DecodeError)
  deriving DecidableEq, Repr

/-! ### Fields of a trace word (R104) -/

def dirField (w : Word64) : BitVec 1 := w.extractLsb' 63 1
def reservedHigh (w : Word64) : BitVec 5 := w.extractLsb' 58 5
def sizeField (w : Word64) : BitVec 2 := w.extractLsb' 56 2
def reservedLow (w : Word64) : BitVec 8 := w.extractLsb' 48 8
def windowField (w : Word64) : BitVec 1 := w.extractLsb' 47 1
def offsetField (w : Word64) : BitVec 15 := w.extractLsb' 32 15
def dataField (w : Word64) : BitVec 32 := w.extractLsb' 0 32

/-! ### The decoder -/

/-- The CMD format: the whole 32-bit value is the opcode (R101). -/
def decodeCmd (v : BitVec 32) : Instr :=
  if v = 0x00000000#32 then .nop
  else if v = 0x00000001#32 then .hash
  else if v = 0x00000002#32 then .clear
  else .cmdReserved v

/-- The CTRL format: ALG is bits [3:0], bits [31:4] are reserved (R102, R103). -/
def decodeCtrl (v : BitVec 32) : Instr :=
  let rsv := v.extractLsb' 4 28
  let alg := v.extractLsb' 0 4
  if alg = 0x0#4 then .algReserved0 rsv
  else if alg = 0x1#4 then .sha1 rsv
  else if alg = 0x2#4 then .sha224 rsv
  else if alg = 0x3#4 then .sha256 rsv
  else if alg = 0x4#4 then .sha384 rsv
  else if alg = 0x5#4 then .sha512 rsv
  else if alg = 0x6#4 then .sha512_224 rsv
  else if alg = 0x7#4 then .sha512_256 rsv
  else .algReserved8F rsv (v.extractLsb' 0 3)

/-- `wr32` in the register region: a word written to CTRL or CMD is read in that register's own
format (R101, R102), any other is REG_WR (42_commands.md R208). -/
def decodeRegWrite (off : BitVec 15) (data : BitVec 32) : Instr :=
  if off = Machine.cmdOffset then decodeCmd data
  else if off = Machine.ctrlOffset then decodeCtrl data
  else .regWr off data

/-- A transaction in the register region, SZ being 0, 1 or 2. A read uses no data (R78), so a read's
DATA field is not looked at (log 7). -/
def decodeRegister (dir : BitVec 1) (size : BitVec 2) (off : BitVec 15) (data : BitVec 32) : Instr :=
  if size = 2#2 then
    if dir = 1#1 then decodeRegWrite off data else .regRd off
  else
    let narrow : NarrowSize := if size = 0#2 then .byte else .half
    if dir = 1#1 then .regNarrow .write narrow off data else .regNarrow .read narrow off 0#32

/-- A transaction in the message window, SZ being 0, 1 or 2 (R78 case 2). -/
def decodeWindow (dir : BitVec 1) (size : BitVec 2) (a : BitVec 15) (data : BitVec 32) : Instr :=
  if dir = 1#1 then
    if size = 0#2 then .msgWr8 a data else if size = 1#2 then .msgWr16 a data else .msgWr32 a data
  else
    if size = 0#2 then .msgRd8 a else if size = 1#2 then .msgRd16 a else .msgRd32 a

/-- The decoder: total on all 64-bit words, rejecting by name what R104 does not spell. -/
def decode (w : Word64) : Decoded :=
  if reservedHigh w ≠ 0#5 ∨ reservedLow w ≠ 0#8 then .reject .reservedBitSet
  else if sizeField w = 3#2 then .reject .sizeNotUsed
  else if windowField w = 1#1 then
    .instr (decodeWindow (dirField w) (sizeField w) (offsetField w) (dataField w))
  else
    .instr (decodeRegister (dirField w) (sizeField w) (offsetField w) (dataField w))

/-! ### The encoder -/

/-- R104's layout, most significant field first. -/
def traceWord (dir : BitVec 1) (size : BitVec 2) (window : BitVec 1) (off : BitVec 15)
    (data : BitVec 32) : Word64 :=
  dir ++ 0#5 ++ size ++ 0#8 ++ window ++ off ++ data

/-- `wr32 CMD, v` (R101). -/
def cmdWord (v : BitVec 32) : Word64 := traceWord 1#1 2#2 0#1 Machine.cmdOffset v

/-- `wr32 CTRL, v` with `v[31:4] = rsv` and `v[3:0] = alg` (R102). -/
def ctrlWord (rsv : BitVec 28) (alg : BitVec 4) : Word64 :=
  traceWord 1#1 2#2 0#1 Machine.ctrlOffset (rsv ++ alg)

/-- DIR of a direction (R104). -/
def Dir.code : Dir → BitVec 1
  | .read => 0#1
  | .write => 1#1

/-- SZ of a narrow size (R104). -/
def NarrowSize.code : NarrowSize → BitVec 2
  | .byte => 0#2
  | .half => 1#2

/-- The trace word of an operation. -/
def encode : Instr → Word64
  | .nop => cmdWord 0x00000000#32
  | .hash => cmdWord 0x00000001#32
  | .clear => cmdWord 0x00000002#32
  | .cmdReserved op => cmdWord op
  | .sha1 rsv => ctrlWord rsv 0x1#4
  | .sha224 rsv => ctrlWord rsv 0x2#4
  | .sha256 rsv => ctrlWord rsv 0x3#4
  | .sha384 rsv => ctrlWord rsv 0x4#4
  | .sha512 rsv => ctrlWord rsv 0x5#4
  | .sha512_224 rsv => ctrlWord rsv 0x6#4
  | .sha512_256 rsv => ctrlWord rsv 0x7#4
  | .algReserved0 rsv => ctrlWord rsv 0x0#4
  | .algReserved8F rsv low => ctrlWord rsv (1#1 ++ low)
  | .regRd off => traceWord 0#1 2#2 0#1 off 0#32
  | .regWr off data => traceWord 1#1 2#2 0#1 off data
  | .regNarrow dir size off data => traceWord dir.code size.code 0#1 off data
  | .msgRd8 a => traceWord 0#1 0#2 1#1 a 0#32
  | .msgRd16 a => traceWord 0#1 1#2 1#1 a 0#32
  | .msgRd32 a => traceWord 0#1 2#2 1#1 a 0#32
  | .msgWr8 a data => traceWord 1#1 0#2 1#1 a data
  | .msgWr16 a data => traceWord 1#1 1#2 1#1 a data
  | .msgWr32 a data => traceWord 1#1 2#2 1#1 a data

/-! ### The opcode table's own words -/

/-- Which register a 32-bit table word is written to. The table numbers both the CMD rows and the CTRL
rows as 32-bit words and the word alone does not say which register carries it: the three commands
come first, then an ALG code with its reserved bits zero, then the CMD default row (log 6). -/
def tableRegister (v : BitVec 32) : BitVec 15 :=
  if v.toNat ≤ 2 then Machine.cmdOffset
  else if v.toNat ≤ 15 then Machine.ctrlOffset
  else Machine.cmdOffset

/-- The transaction that carries a table word: a 64-bit row is a trace word, a 32-bit row the data of
a `wr32`. -/
def tableTraceWord (nbits w : Nat) : Word64 :=
  if nbits = 32 then
    traceWord 1#1 2#2 0#1 (tableRegister (BitVec.ofNat 32 w)) (BitVec.ofNat 32 w)
  else BitVec.ofNat 64 w

/-- The operation the decoder reads from a table word of 32 or 64 bits. -/
def decodeTableWord (nbits w : Nat) : Option Instr :=
  if nbits = 32 ∨ nbits = 64 then
    match decode (tableTraceWord nbits w) with
    | .instr i => some i
    | .reject _ => none
  else none

end Sys2Proof
end

