-- ==== Sys2Proof/Config.lean ====
section
/-! DEFINITION. What the spec leaves open: the parameter `MSG_MEM_BYTES` (00_scope.md R10) and the
value drawn when an unwritten message byte is read (20_memory.md R75). Neither has a body a proof
could look into. -/

namespace Sys2Proof.Config

/-- The `n`-th draw: what a read of an unwritten message byte returns (R75, U2: "any byte value, drawn
afresh at each read"). A free value: nothing constrains it (log 2). -/
opaque freeByte : Nat → Byte

/-- The free choice behind `MSG_MEM_BYTES` (R10, D7: OPEN). Log 1. -/
opaque memSizeChoice : Nat

/-- A legal message-memory size: R10's constraint is carried with the number, so that no state holds
an illegal one. -/
structure MemSize where
  bytes : Nat
  legal : bytes % 4 = 0 ∧ 64 ≤ bytes ∧ bytes ≤ 32768
  deriving DecidableEq, Repr

/-- `MSG_MEM_BYTES` of this instance: any multiple of 4 from 64 to 32768, each of them possible (R10). -/
def memSize : MemSize :=
  ⟨64 + 4 * (memSizeChoice % 8177), by
    have h : memSizeChoice % 8177 < 8177 := Nat.mod_lt _ (by decide)
    omega⟩

end Sys2Proof.Config
end

