-- ==== Sys2Proof/Machine/State.lean ====
section
/-! DEFINITION. The state of THASH-CORE as plain data (spec 10_state.md R30 to R60, 20_memory.md R74 and
R75), the reasons a step stops, and the state after reset. INVENTORY.md, `## State`, lists every field. -/

namespace Sys2Proof.Machine

/-- The sequencer position (R50, R51). -/
inductive Phase where
  | idle | load | round | fold | output
  deriving DecidableEq, Repr

/-- Who moves next (00_scope.md R19, 20_memory.md R84): the host with the transaction a trace word
spells (R104), the engine with one step, or the reset input. -/
inductive Action where
  | host (word : Word64)
  | engine
  | reset
  deriving DecidableEq, Repr

/-- The message memory: the WRITTEN bytes only, as address and value, addresses strictly rising. An
address that is not listed is unwritten (R75): reading it draws, so no value is "the default" and
every written byte stays listed. -/
abbrev Memory := List Host.Cell

/-- The canonical form of a memory: addresses strictly rising. -/
abbrev Memory.wf (m : Memory) : Prop := m.Pairwise (fun x y => x.1 < y.1)

/-- Every listed address exists in a memory of `size` bytes (R74). -/
abbrev Memory.below (m : Memory) (size : Nat) : Prop := ∀ c ∈ m, c.1 < size

structure State where
  /-- `CTRL.ALG` (R32). -/
  alg : BitVec 4
  /-- `MSG_LEN_LO` (R39). -/
  msgLenLo : Word32
  /-- `MSG_LEN_HI` (R39). -/
  msgLenHi : Word32
  /-- `IRQ_EN.DONE_EN` (R40). -/
  doneEn : Bool
  /-- `IRQ_EN.ERR_EN` (R40). -/
  errEn : Bool
  /-- `STATUS.BUSY` (R35). -/
  busy : Bool
  /-- `STATUS.DONE` (R36). -/
  done : Bool
  /-- `STATUS.ERR` (R37). -/
  err : Bool
  /-- `STATUS.ERR_CODE` (R38). -/
  errCode : BitVec 4
  /-- `CHUNKS` (R41). -/
  chunks : Word32
  /-- `DIGEST[0..15]` (R43). -/
  digest : Vector Word32 16
  /-- The constant register `MEMSIZE`, the parameter `MSG_MEM_BYTES` (R42, R10). No step changes it. -/
  memSize : Config.MemSize
  /-- `phase` (R51). -/
  phase : Phase
  /-- `alg_l` (R52). -/
  algL : BitVec 4
  /-- `len_l` (R52). -/
  lenL : Word64
  /-- `nch` (R52). -/
  nch : Word32
  /-- `j` (R56). -/
  j : Word32
  /-- `t` (R56). -/
  t : BitVec 7
  /-- `H[0..7]`, the running hash state (R53). -/
  H : Vector Word64 8
  /-- `V[0..7]`, the working variables a..h (R54). -/
  V : Vector Word64 8
  /-- `W[0..79]`, the message schedule (R55). -/
  W : Vector Word64 80
  /-- `MSGMEM` (R74, R75). -/
  mem : Memory
  /-- The model's own: how many unwritten bytes have been drawn so far (R75, log 2). -/
  draws : Nat
  /-- The model's own: the 32-bit value the last host read returned (R79, log 8). -/
  readData : Word32
  /-- The model's own: the actions to come, in their total order (R84, log 3). -/
  inbox : List Action
  deriving DecidableEq, Repr

/-- `MSG_LEN = MSG_LEN_HI ++ MSG_LEN_LO`, in bytes (R39, R105). -/
def State.msgLen (s : State) : Word64 := s.msgLenHi ++ s.msgLenLo

/-- Why the machine stops with a fault. No state that a run from reset reaches raises one. -/
inductive Fault where
  /-- Raised by the engine's LOAD, ROUND, FOLD and OUTPUT steps when `alg_l` names no descriptor:
  `Desc(a)` is defined for the codes 1 to 7 only (40_descriptors.md R131). Safe: HASH latches only codes it
  has checked (R194), so a state that raises it is not reachable (log 12). -/
  | noDescriptor
  deriving DecidableEq, Repr

/-- Why a step gives an action no meaning. -/
inductive Refusal where
  /-- Raised by `exec` for an operation that has no meaning yet, by its mnemonic. Safe. -/
  | notModelled (mnemonic : String)
  /-- Raised by `step` for a 64-bit word that has a reserved bit set or SZ = 3, which spells no host
  transaction (R104). Safe (log 11). -/
  | notATraceWord (word : Word64)
  deriving DecidableEq, Repr

/-- The outcome of a meaning or a step. -/
abbrev Result := Host.Outcome State Fault Refusal

/-- The machine right after reset (R60, R380, R381), with no action waiting. `MEMSIZE` is its constant.
`draws` and `readData` are the model's own fields (logs 2 and 8). -/
def State.reset : State where
  alg := 0#4
  msgLenLo := 0#32
  msgLenHi := 0#32
  doneEn := false
  errEn := false
  busy := false
  done := false
  err := false
  errCode := 0#4
  chunks := 0#32
  digest := Vector.replicate 16 0#32
  memSize := Config.memSize
  phase := .idle
  algL := 0#4
  lenL := 0#64
  nch := 0#32
  j := 0#32
  t := 0#7
  H := Vector.replicate 8 0#64
  V := Vector.replicate 8 0#64
  W := Vector.replicate 80 0#64
  mem := []
  draws := 0
  readData := 0#32
  inbox := []

end Sys2Proof.Machine
end

