-- ==== Sys2Proof/Machine/Flags.lean ====
section
/-! DEFINITION. The status and interrupt flags as software reads and writes them (spec 10_state.md R34,
R40; 60_exceptions.md R345). No arithmetic flag exists (R45). -/

namespace Sys2Proof.Machine

/-- A flag as a bit. -/
def flagBit (b : Bool) : BitVec 1 := BitVec.ofBool b

/-- `STATUS` as it reads: `ERR_CODE ++ 0b0 ++ ERR ++ DONE ++ BUSY`, zero-extended (R34, R207). -/
def State.statusWord (s : State) : Word32 :=
  (s.errCode ++ 0#1 ++ flagBit s.err ++ flagBit s.done ++ flagBit s.busy).setWidth 32

/-- `IRQ_EN` as it reads: `ERR_EN ++ DONE_EN`, zero-extended (R40, R207). -/
def State.irqEnWord (s : State) : Word32 :=
  (flagBit s.errEn ++ flagBit s.doneEn).setWidth 32

/-- `CTRL` as it reads: `ALG`, zero-extended (R32, R207). -/
def State.ctrlWord (s : State) : Word32 := s.alg.setWidth 32

/-- The interrupt output: a level signal with no latch of its own (R345). -/
def State.irq (s : State) : Bool := (s.done && s.doneEn) || (s.err && s.errEn)

end Sys2Proof.Machine
end

