-- ==== Sys2Proof/Machine/Bits.lean ====
section
/-! DEFINITION. The bit primitives (spec 41_bit_utilities.md R160 to R171), total functions at any width
`n`, and `BitCall`, a call with its width as data, which refuses a call outside the stated domain
(R160, U5). -/

namespace Sys2Proof.Machine

/-- `rotr(x, k)`: the amount is reduced modulo the width first (R161). -/
def rotr {n : Nat} (x : BitVec n) (k : Nat) : BitVec n :=
  let m := k % n
  if m = 0 then x else (x >>> m) ||| (x <<< (n - m))

/-- `rotl(x, k)` (R162). -/
def rotl {n : Nat} (x : BitVec n) (k : Nat) : BitVec n :=
  let m := k % n
  if m = 0 then x else (x <<< m) ||| (x >>> (n - m))

/-- `shr(x, k)`: logical, 0 for a shift of the full width or more (R163, D25). -/
def shr {n : Nat} (x : BitVec n) (k : Nat) : BitVec n :=
  if k < n then x >>> k else 0#n

/-- `pack(b1, b2, b3, b4)`: the first argument takes the most significant bits (R165). -/
def pack4 (b1 b2 b3 b4 : Byte) : Word32 := b1 ++ b2 ++ b3 ++ b4

/-- `pack(w1, w2)` (R165). -/
def pack2 (w1 w2 : Word32) : Word64 := w1 ++ w2

/-- `pack8(b1..b8)` (R165). -/
def pack8 (b1 b2 b3 b4 b5 b6 b7 b8 : Byte) : Word64 :=
  pack2 (pack4 b1 b2 b3 b4) (pack4 b5 b6 b7 b8)

/-- `unpack(x)`: the bytes of `x`, most significant first (R166). -/
def unpack {n : Nat} (x : BitVec n) : List Byte :=
  (List.range (n / 8)).map fun i => x.extractLsb' (n - 8 - 8 * i) 8

/-- The big-endian value of a list of bytes at width `n`: R165's rule for any number of bytes. -/
def packBytes (n : Nat) (bs : List Byte) : BitVec n :=
  bs.foldl (fun acc b => (acc <<< 8) ||| b.setWidth n) 0#n

/-- `byte_swap(x) = pack(reverse(unpack(x)))` (R164). -/
def byteSwap {n : Nat} (x : BitVec n) : BitVec n := packBytes n (unpack x).reverse

/-- `keepLeftN(x, k)` for `k ≤ n` (R167). -/
def keepLeft {n : Nat} (x : BitVec n) (k : Nat) : BitVec n :=
  if k = 0 then 0#n else x &&& (BitVec.ofNat n (2 ^ k - 1) <<< (n - k))

/-- `keepRightN(x, k)` for `k ≤ n` (R168). -/
def keepRight {n : Nat} (x : BitVec n) (k : Nat) : BitVec n :=
  x &&& BitVec.ofNat n (2 ^ k - 1)

/-- `setNthBit(x, k)` for `k < n`, bit 0 the least significant (R169, D18). -/
def setBit {n : Nat} (x : BitVec n) (k : Nat) : BitVec n := x ||| (1#n <<< k)

/-- A digit of "0123456789abcdef" (R170). -/
def hexDigit (d : Nat) : Char :=
  ['0', '1', '2', '3', '4', '5', '6', '7', '8', '9', 'a', 'b', 'c', 'd', 'e', 'f'].getD d '0'

/-- `to_hex(x)`, the characters of the rendering in order (R170). -/
def toHex {n : Nat} (x : BitVec n) : List Char :=
  (List.range (n / 4)).map fun i => hexDigit (x.extractLsb' (n - 4 - 4 * i) 4).toNat

/-- A call of a bit primitive, its operand's width given as data (R160). -/
inductive BitCall where
  | rotr (n : Nat) (x : BitVec n) (k : Nat)
  | rotl (n : Nat) (x : BitVec n) (k : Nat)
  | shr (n : Nat) (x : BitVec n) (k : Nat)
  | byteSwap (n : Nat) (x : BitVec n)
  | pack4 (b1 b2 b3 b4 : Byte)
  | pack2 (w1 w2 : Word32)
  | unpack (n : Nat) (x : BitVec n)
  | keepLeftN (n : Nat) (x : BitVec n) (k : Nat)
  | keepRightN (n : Nat) (x : BitVec n) (k : Nat)
  | setNthBit (n : Nat) (x : BitVec n) (k : Nat)
  | toHex (n : Nat) (x : BitVec n)

/-- What a call gives. -/
inductive BitAnswer where
  | bits (n : Nat) (v : BitVec n)
  | bytes (bs : List Byte)
  | text (cs : List Char)
  deriving DecidableEq, Repr

/-- The widths the primitives are defined for (R160). -/
def legalWidth (n : Nat) : Bool := n == 8 || n == 16 || n == 32 || n == 64

/-- The stated domain of a call (R160 to R170). -/
def BitCall.inDomain : BitCall → Bool
  | .rotr n _ _ | .rotl n _ _ | .shr n _ _ | .byteSwap n _ | .toHex n _ => legalWidth n
  | .pack4 _ _ _ _ | .pack2 _ _ => true
  | .unpack n _ => legalWidth n && n != 8
  | .keepLeftN n _ k | .keepRightN n _ k => legalWidth n && decide (k ≤ n)
  | .setNthBit n _ k => legalWidth n && decide (k < n)

/-- What a call inside its domain computes. -/
def BitCall.value : BitCall → BitAnswer
  | .rotr n x k => .bits n (Machine.rotr x k)
  | .rotl n x k => .bits n (Machine.rotl x k)
  | .shr n x k => .bits n (Machine.shr x k)
  | .byteSwap n x => .bits n (Machine.byteSwap x)
  | .pack4 b1 b2 b3 b4 => .bits 32 (Machine.pack4 b1 b2 b3 b4)
  | .pack2 w1 w2 => .bits 64 (Machine.pack2 w1 w2)
  | .unpack _ x => .bytes (Machine.unpack x)
  | .keepLeftN n x k => .bits n (keepLeft x k)
  | .keepRightN n x k => .bits n (keepRight x k)
  | .setNthBit n x k => .bits n (setBit x k)
  | .toHex _ x => .text (Machine.toHex x)

/-- A call as R160 has it: `none` is the refusal of a call outside the domain (log 13). -/
def BitCall.run (c : BitCall) : Option BitAnswer := if c.inDomain then some c.value else none

end Sys2Proof.Machine
end

