-- ==== Sys2Proof/Machine/Operands.lean ====
section
/-! DEFINITION. How operands are formed: the effectiveness of a window access, the byte lanes of the
host data bus (spec 20_memory.md R76 to R79) and the fields of a word written to a register
(30_encoding.md R102, R105; 10_state.md R40). Nothing sign-extends, scales or shifts an operand. -/

namespace Sys2Proof.Machine

/-- A window access of `n` bytes at byte index `a` is effective when it is naturally aligned and inside
the memory of `size` bytes (R78 case 2). `OFF mod n` and `a mod n` agree, since the window's base
0x8000 is a multiple of 4. -/
def windowEffective (size a n : Nat) : Bool := a % n == 0 && decide (a < size)

/-- The big-endian value of the bytes read, zero-extended to the 32-bit bus (R76, R79). -/
def laneValue (bs : List Byte) : Word32 := packBytes 32 bs

/-- Byte `i` of an `n`-byte write: `v[8(n-i)-1 : 8(n-i)-8]` (R77). -/
def laneByte (n i : Nat) (v : Word32) : Byte := v.extractLsb' (8 * (n - i) - 8) 8

/-- The bytes an `n`-byte write stores, in ascending address order; the bits of `v` above `8n` are
ignored (R77, R79). -/
def laneBytes (n : Nat) (v : Word32) : List Byte := (List.range n).map fun i => laneByte n i v

/-- `ALG` of a word written to CTRL (R102). -/
def algOf (v : Word32) : BitVec 4 := v.extractLsb' 0 4

/-- `DONE_EN` of a word written to IRQ_EN (R40). -/
def doneEnOf (v : Word32) : Bool := v.getLsbD 0

/-- `ERR_EN` of a word written to IRQ_EN (R40). -/
def errEnOf (v : Word32) : Bool := v.getLsbD 1

end Sys2Proof.Machine
end

