-- ==== Sys2Proof/Machine/Ops.lean ====
section
/-! DEFINITION. The named operations over the message memory and the registers that the meanings share
(spec 20_memory.md R73 to R83; 42_commands.md R207; 60_exceptions.md R341; 70_reset_and_hazards.md
R380, R390). -/

namespace Sys2Proof.Machine

/-! ### Message memory -/

/-- The value of a written byte; `none` for an unwritten one (R75). -/
def Memory.lookup : Memory → Nat → Option Byte
  | [], _ => none
  | (b, v) :: m, a => if a = b then some v else Memory.lookup m a

/-- Store one byte, keeping the addresses strictly rising (R77: the byte is written from now on). -/
def Memory.insert : Memory → Nat → Byte → Memory
  | [], a, v => [(a, v)]
  | (b, u) :: m, a, v =>
    if a < b then (a, v) :: (b, u) :: m
    else if a = b then (a, v) :: m
    else (b, u) :: Memory.insert m a v

/-- Read one byte after `d` draws: its value and the number of draws made from now on. An unwritten
byte is a fresh draw (R75). -/
def Memory.readByte (m : Memory) (d a : Nat) : Byte × Nat :=
  match m.lookup a with
  | some v => (v, d)
  | none => (Config.freeByte d, d + 1)

/-- Read `n` bytes from `a` on, in ascending order (R76; log 20). -/
def Memory.readBytes (m : Memory) (d a : Nat) : Nat → List Byte × Nat
  | 0 => ([], d)
  | n + 1 =>
    let first := m.readByte d a
    let rest := Memory.readBytes m first.2 (a + 1) n
    (first.1 :: rest.1, rest.2)

/-- Store bytes from `a` on (R77). -/
def Memory.writeBytes (m : Memory) (a : Nat) : List Byte → Memory
  | [] => m
  | v :: vs => Memory.writeBytes (m.insert a v) (a + 1) vs

/-- `MemWrite(a, n, v)` (R77). -/
def Memory.write (m : Memory) (a n : Nat) (v : Word32) : Memory := m.writeBytes a (laneBytes n v)

/-! ### State updates -/

/-- What a host read returns (R79). -/
def State.reply (s : State) (v : Word32) : State := { s with readData := v }

/-- The draws made so far. -/
def State.setDraws (s : State) (d : Nat) : State := { s with draws := d }

/-- The message memory. -/
def State.setMem (s : State) (m : Memory) : State := { s with mem := m }

/-- `CTRL.ALG` (R32). -/
def State.setAlg (s : State) (a : BitVec 4) : State := { s with alg := a }

/-- `MSG_LEN_LO` (R39). -/
def State.setMsgLenLo (s : State) (v : Word32) : State := { s with msgLenLo := v }

/-- `MSG_LEN_HI` (R39). -/
def State.setMsgLenHi (s : State) (v : Word32) : State := { s with msgLenHi := v }

/-- `IRQ_EN` (R40). -/
def State.setIrqEn (s : State) (doneEn errEn : Bool) : State :=
  { s with doneEn := doneEn, errEn := errEn }

/-- `DONE`, `ERR` and `ERR_CODE` together (R36 to R38). -/
def State.setStatus (s : State) (done err : Bool) (code : BitVec 4) : State :=
  { s with done := done, err := err, errCode := code }

/-- `CHUNKS <- 0` and `DIGEST[0..15] <- 0` (R196, R197). -/
def State.zeroResults (s : State) : State :=
  { s with chunks := 0#32, digest := Vector.replicate 16 0#32 }

/-- The actions to come (R84). -/
def State.setInbox (s : State) (q : List Action) : State := { s with inbox := q }

/-! ### Errors, reset and the busy gate -/

/-- `DONE <- 0; ERR <- 0; ERR_CODE <- 0`: what HASH does before its checks and CLEAR does (R193, R197).
It is the only way out of an error: no return instruction exists and nothing is restored (R349). -/
def State.clearStatus (s : State) : State := s.setStatus false false 0#4

/-- Taking an error: `raise Error(c)` as HASH and a reserved command use it, DONE being 0 already or
cleared with it (R341; R193, R198). It records the code only: no state is saved, no mode changes and
nothing is entered (R348). -/
def State.raiseError (s : State) (code : BitVec 4) : State := s.setStatus false true code

/-- A host write has its effect only while the engine is idle (R390). -/
def State.unlessBusy (s : State) (effect : State → State) : State :=
  if s.busy then s else effect s

/-- The reset input (R380): every register takes its R60 value and every message byte becomes unwritten.
MEMSIZE is a constant. What is not the block's is kept: the draws made, what the host last read and
the actions still to come (log 14). -/
def State.applyReset (s : State) : State :=
  { State.reset with
    memSize := s.memSize, draws := s.draws, readData := s.readData, inbox := s.inbox }

/-! ### Register reads and writes -/

/-- The constant register `ID`: 0x5448 ("TH") and revision 1 (R31). -/
def idValue : Word32 := 0x5448#16 ++ 0x0001#16

/-- What a register reads as (R207). -/
def State.readReg (s : State) : Reg → Word32
  | .id => idValue
  | .ctrl => s.ctrlWord
  | .cmd => 0#32
  | .status => s.statusWord
  | .msgLenLo => s.msgLenLo
  | .msgLenHi => s.msgLenHi
  | .irqEn => s.irqEnWord
  | .chunks => s.chunks
  | .memsize => BitVec.ofNat 32 s.memSize.bytes
  | .digest k => s.digest[k]

/-- What a 4-byte read at a register-region offset returns: 0 where no register is (R73, R78). -/
def State.readOffset (s : State) (off : RegOffset) : Word32 :=
  match regAt off with
  | some r => s.readReg r
  | none => 0#32

/-- A write to CTRL (R32, R208). -/
def State.writeCtrl (s : State) (v : Word32) : State := s.unlessBusy fun u => u.setAlg (algOf v)

/-! ### Window reads and writes -/

/-- A window read of `n` bytes: `zext_32(MemRead(a, n))` when effective, else 0 (R76, R78). -/
def State.windowRead (s : State) (a n : Nat) : State :=
  let r := s.mem.readBytes s.draws a (if windowEffective s.memSize.bytes a n then n else 0)
  (s.setDraws r.2).reply (laneValue r.1)

/-- A window write of `n` bytes: `MemWrite(a, n, v)` when effective and the engine is idle, else no
effect (R77, R78, R390). -/
def State.windowWrite (s : State) (a n : Nat) (v : Word32) : State :=
  s.unlessBusy fun u =>
    if windowEffective u.memSize.bytes a n then u.setMem (u.mem.write a n v) else u

end Sys2Proof.Machine
end

