-- ==== Sys2Proof/Machine/Control.lean ====
section
/-! DEFINITION. The rows of format CTRL: a word written to CTRL by `wr32 CTRL, v` (spec 10_state.md R32;
30_encoding.md R102, R103, R106). ALG takes `v[3:0]`, the reserved bits of `v` are ignored, and the
write is ignored while the engine is busy (R390). The code's legality is checked by HASH only. -/

namespace Sys2Proof.Machine

/-- SHA1: select the descriptor of R132 (R103). -/
def execSha1 (rsv : BitVec 28) (s : State) : Result := .next (s.writeCtrl (rsv ++ 0x1#4))

/-- SHA224: select the descriptor of R133 (R103). -/
def execSha224 (rsv : BitVec 28) (s : State) : Result := .next (s.writeCtrl (rsv ++ 0x2#4))

/-- SHA256: select the descriptor of R134 (R103). -/
def execSha256 (rsv : BitVec 28) (s : State) : Result := .next (s.writeCtrl (rsv ++ 0x3#4))

/-- SHA384: select the descriptor of R135 (R103). -/
def execSha384 (rsv : BitVec 28) (s : State) : Result := .next (s.writeCtrl (rsv ++ 0x4#4))

/-- SHA512: select the descriptor of R136 (R103). -/
def execSha512 (rsv : BitVec 28) (s : State) : Result := .next (s.writeCtrl (rsv ++ 0x5#4))

/-- SHA512_224: select the descriptor of R137 (R103). -/
def execSha512_224 (rsv : BitVec 28) (s : State) : Result := .next (s.writeCtrl (rsv ++ 0x6#4))

/-- SHA512_256: select the descriptor of R138 (R103). -/
def execSha512_256 (rsv : BitVec 28) (s : State) : Result := .next (s.writeCtrl (rsv ++ 0x7#4))

/-- ALG 0x0, reserved: stored, and rejected by the next HASH (R106, R194). -/
def execAlgReserved0 (rsv : BitVec 28) (s : State) : Result := .next (s.writeCtrl (rsv ++ 0x0#4))

/-- ALG 0x8 to 0xF, reserved: stored, and rejected by the next HASH (R106, R194). -/
def execAlgReserved8F (rsv : BitVec 28) (low : BitVec 3) (s : State) : Result :=
  .next (s.writeCtrl (rsv ++ (1#1 ++ low)))

end Sys2Proof.Machine
end

