-- ==== Sys2Proof/Machine/Rom.lean ====
section
/-! DEFINITION. The constant ROM (spec 40_descriptors.md R130 to R150): the algorithm descriptors, the
initial vectors, the round constants and the rotation tables. No rule writes it.

Every IV and K value, the digest lengths and the pairing of chunk and length-field sizes are marked
"from general knowledge" by the spec itself, which checked them against an independent SHA
implementation (93_implementation_defined.md G3, G4; log 15). A 32-bit word stands in a 64-bit container with
its upper half 0 (10_state.md R53). -/

namespace Sys2Proof.Machine

/-- An entry of the rotation tables: three amounts (R140). -/
structure Triple where
  r1 : Nat
  r2 : Nat
  r3 : Nat
  deriving DecidableEq, Repr

/-- The rotation table of a SHA-2 sub-family (R140). -/
structure RotTable where
  small0 : Triple
  small1 : Triple
  big0 : Triple
  big1 : Triple
  deriving DecidableEq, Repr

/-- `ROT_32` (R140). -/
def rot32 : RotTable := ⟨⟨7, 18, 3⟩, ⟨17, 19, 10⟩, ⟨2, 13, 22⟩, ⟨6, 11, 25⟩⟩

/-- `ROT_64` (R140). -/
def rot64 : RotTable := ⟨⟨1, 8, 7⟩, ⟨19, 61, 6⟩, ⟨28, 34, 39⟩, ⟨14, 18, 41⟩⟩

/-- `fam` of R131: which schedule and round rule, and for SHA-2 the rotation table. -/
inductive Family where
  | sha1
  | sha2 (rot : RotTable)
  deriving DecidableEq, Repr

/-- An algorithm descriptor (R131). Sizes are in bits, as there. -/
structure Descriptor where
  fam : Family
  w : Nat
  nsw : Nat
  rounds : Nat
  cs : Nat
  lel : Nat
  dl : Nat
  iv : List Word64
  k : List Word64
  deriving DecidableEq, Repr

/-- `cb = cs / 8`, the chunk size in bytes (00_scope.md R9). -/
def Descriptor.cb (D : Descriptor) : Nat := D.cs / 8

/-- `lb = lel / 8`, the length-field size in bytes (00_scope.md R9). -/
def Descriptor.lb (D : Descriptor) : Nat := D.lel / 8

/-! ### Initial vectors -/

/-- SHA-1 (R141). -/
def ivSha1 : List Word64 := [
   0x67452301#64, 0xefcdab89#64, 0x98badcfe#64, 0x10325476#64,
   0xc3d2e1f0#64]

/-- SHA-224 (R142). -/
def ivSha224 : List Word64 := [
   0xc1059ed8#64, 0x367cd507#64, 0x3070dd17#64, 0xf70e5939#64,
   0xffc00b31#64, 0x68581511#64, 0x64f98fa7#64, 0xbefa4fa4#64]

/-- SHA-256 (R143). -/
def ivSha256 : List Word64 := [
   0x6a09e667#64, 0xbb67ae85#64, 0x3c6ef372#64, 0xa54ff53a#64,
   0x510e527f#64, 0x9b05688c#64, 0x1f83d9ab#64, 0x5be0cd19#64]

/-- SHA-384 (R144). -/
def ivSha384 : List Word64 := [
   0xcbbb9d5dc1059ed8#64, 0x629a292a367cd507#64, 0x9159015a3070dd17#64, 0x152fecd8f70e5939#64,
   0x67332667ffc00b31#64, 0x8eb44a8768581511#64, 0xdb0c2e0d64f98fa7#64, 0x47b5481dbefa4fa4#64]

/-- SHA-512 (R145). -/
def ivSha512 : List Word64 := [
   0x6a09e667f3bcc908#64, 0xbb67ae8584caa73b#64, 0x3c6ef372fe94f82b#64, 0xa54ff53a5f1d36f1#64,
   0x510e527fade682d1#64, 0x9b05688c2b3e6c1f#64, 0x1f83d9abfb41bd6b#64, 0x5be0cd19137e2179#64]

/-- SHA-512/224 (R146). -/
def ivSha512_224 : List Word64 := [
   0x8c3d37c819544da2#64, 0x73e1996689dcd4d6#64, 0x1dfab7ae32ff9c82#64, 0x679dd514582f9fcf#64,
   0x0f6d2b697bd44da8#64, 0x77e36f7304c48942#64, 0x3f9d85a86a1d36c8#64, 0x1112e6ad91d692a1#64]

/-- SHA-512/256 (R147). -/
def ivSha512_256 : List Word64 := [
   0x22312194fc2bf72c#64, 0x9f555fa3c84c64c2#64, 0x2393b86b6f53b151#64, 0x963877195940eabd#64,
   0x96283ee2a88effe3#64, 0xbe5e1e2553863992#64, 0x2b0199fc2c85b8aa#64, 0x0eb72ddc81c52ca2#64]

/-! ### Round constants -/

/-- SHA-1: `K[t]` is the constant of phase `t / 20` (R148). -/
def kSha1 : List Word64 :=
  List.replicate 20 0x5a827999#64 ++
  List.replicate 20 0x6ed9eba1#64 ++
  List.replicate 20 0x8f1bbcdc#64 ++
  List.replicate 20 0xca62c1d6#64

/-- SHA-224 and SHA-256 (R149). -/
def kSha256 : List Word64 :=
  [
   0x428a2f98#64, 0x71374491#64, 0xb5c0fbcf#64, 0xe9b5dba5#64,
   0x3956c25b#64, 0x59f111f1#64, 0x923f82a4#64, 0xab1c5ed5#64,
   0xd807aa98#64, 0x12835b01#64, 0x243185be#64, 0x550c7dc3#64,
   0x72be5d74#64, 0x80deb1fe#64, 0x9bdc06a7#64, 0xc19bf174#64] ++
  [
   0xe49b69c1#64, 0xefbe4786#64, 0x0fc19dc6#64, 0x240ca1cc#64,
   0x2de92c6f#64, 0x4a7484aa#64, 0x5cb0a9dc#64, 0x76f988da#64,
   0x983e5152#64, 0xa831c66d#64, 0xb00327c8#64, 0xbf597fc7#64,
   0xc6e00bf3#64, 0xd5a79147#64, 0x06ca6351#64, 0x14292967#64] ++
  [
   0x27b70a85#64, 0x2e1b2138#64, 0x4d2c6dfc#64, 0x53380d13#64,
   0x650a7354#64, 0x766a0abb#64, 0x81c2c92e#64, 0x92722c85#64,
   0xa2bfe8a1#64, 0xa81a664b#64, 0xc24b8b70#64, 0xc76c51a3#64,
   0xd192e819#64, 0xd6990624#64, 0xf40e3585#64, 0x106aa070#64] ++
  [
   0x19a4c116#64, 0x1e376c08#64, 0x2748774c#64, 0x34b0bcb5#64,
   0x391c0cb3#64, 0x4ed8aa4a#64, 0x5b9cca4f#64, 0x682e6ff3#64,
   0x748f82ee#64, 0x78a5636f#64, 0x84c87814#64, 0x8cc70208#64,
   0x90befffa#64, 0xa4506ceb#64, 0xbef9a3f7#64, 0xc67178f2#64]

/-- SHA-384, SHA-512, SHA-512/224 and SHA-512/256 (R150). -/
def kSha512 : List Word64 :=
  [
   0x428a2f98d728ae22#64, 0x7137449123ef65cd#64, 0xb5c0fbcfec4d3b2f#64, 0xe9b5dba58189dbbc#64,
   0x3956c25bf348b538#64, 0x59f111f1b605d019#64, 0x923f82a4af194f9b#64, 0xab1c5ed5da6d8118#64,
   0xd807aa98a3030242#64, 0x12835b0145706fbe#64, 0x243185be4ee4b28c#64, 0x550c7dc3d5ffb4e2#64,
   0x72be5d74f27b896f#64, 0x80deb1fe3b1696b1#64, 0x9bdc06a725c71235#64, 0xc19bf174cf692694#64] ++
  [
   0xe49b69c19ef14ad2#64, 0xefbe4786384f25e3#64, 0x0fc19dc68b8cd5b5#64, 0x240ca1cc77ac9c65#64,
   0x2de92c6f592b0275#64, 0x4a7484aa6ea6e483#64, 0x5cb0a9dcbd41fbd4#64, 0x76f988da831153b5#64,
   0x983e5152ee66dfab#64, 0xa831c66d2db43210#64, 0xb00327c898fb213f#64, 0xbf597fc7beef0ee4#64,
   0xc6e00bf33da88fc2#64, 0xd5a79147930aa725#64, 0x06ca6351e003826f#64, 0x142929670a0e6e70#64] ++
  [
   0x27b70a8546d22ffc#64, 0x2e1b21385c26c926#64, 0x4d2c6dfc5ac42aed#64, 0x53380d139d95b3df#64,
   0x650a73548baf63de#64, 0x766a0abb3c77b2a8#64, 0x81c2c92e47edaee6#64, 0x92722c851482353b#64,
   0xa2bfe8a14cf10364#64, 0xa81a664bbc423001#64, 0xc24b8b70d0f89791#64, 0xc76c51a30654be30#64,
   0xd192e819d6ef5218#64, 0xd69906245565a910#64, 0xf40e35855771202a#64, 0x106aa07032bbd1b8#64] ++
  [
   0x19a4c116b8d2d0c8#64, 0x1e376c085141ab53#64, 0x2748774cdf8eeb99#64, 0x34b0bcb5e19b48a8#64,
   0x391c0cb3c5c95a63#64, 0x4ed8aa4ae3418acb#64, 0x5b9cca4f7763e373#64, 0x682e6ff3d6b2b8a3#64,
   0x748f82ee5defb2fc#64, 0x78a5636f43172f60#64, 0x84c87814a1f0ab72#64, 0x8cc702081a6439ec#64,
   0x90befffa23631e28#64, 0xa4506cebde82bde9#64, 0xbef9a3f7b2c67915#64, 0xc67178f2e372532b#64] ++
  [
   0xca273eceea26619c#64, 0xd186b8c721c0c207#64, 0xeada7dd6cde0eb1e#64, 0xf57d4f7fee6ed178#64,
   0x06f067aa72176fba#64, 0x0a637dc5a2c898a6#64, 0x113f9804bef90dae#64, 0x1b710b35131c471b#64,
   0x28db77f523047d84#64, 0x32caab7b40c72493#64, 0x3c9ebe0a15c9bebc#64, 0x431d67c49c100d4c#64,
   0x4cc5d4becb3e42b6#64, 0x597f299cfc657e2a#64, 0x5fcb6fab3ad6faec#64, 0x6c44198c4a475817#64]

/-! ### Descriptors -/

/-- SHA-1 (R132). -/
def descSha1 : Descriptor :=
  { fam := .sha1, w := 32, nsw := 5, rounds := 80, cs := 512, lel := 64, dl := 160,
    iv := ivSha1, k := kSha1 }

/-- SHA-256 (R134). -/
def descSha256 : Descriptor :=
  { fam := .sha2 rot32, w := 32, nsw := 8, rounds := 64, cs := 512, lel := 64, dl := 256,
    iv := ivSha256, k := kSha256 }

/-- SHA-224: the SHA-256 descriptor with its own IV and digest length (R133). -/
def descSha224 : Descriptor := { descSha256 with iv := ivSha224, dl := 224 }

/-- SHA-512 (R136). -/
def descSha512 : Descriptor :=
  { fam := .sha2 rot64, w := 64, nsw := 8, rounds := 80, cs := 1024, lel := 128, dl := 512,
    iv := ivSha512, k := kSha512 }

/-- SHA-384: the SHA-512 descriptor with its own IV and digest length (R135). -/
def descSha384 : Descriptor := { descSha512 with iv := ivSha384, dl := 384 }

/-- SHA-512/224 (R137). -/
def descSha512_224 : Descriptor := { descSha512 with iv := ivSha512_224, dl := 224 }

/-- SHA-512/256 (R138). -/
def descSha512_256 : Descriptor := { descSha512 with iv := ivSha512_256, dl := 256 }

/-- `Desc(a)`: defined for the codes 1 to 7 only (R131; 30_encoding.md R103). -/
def desc (a : BitVec 4) : Option Descriptor :=
  if a = 0x1#4 then some descSha1
  else if a = 0x2#4 then some descSha224
  else if a = 0x3#4 then some descSha256
  else if a = 0x4#4 then some descSha384
  else if a = 0x5#4 then some descSha512
  else if a = 0x6#4 then some descSha512_224
  else if a = 0x7#4 then some descSha512_256
  else none

end Sys2Proof.Machine
end

