-- ==== Sys2Proof/Machine/Padding.lean ====
section
/-! DEFINITION. The padding and length-encoding controller (spec 43_padding.md R230 to R238): the padded
message as a whole, the bytes of one chunk as LOAD generates them, and the chunk's sixteen words. It
uses `cb` and `lb` only, with nothing per algorithm (R230). -/

namespace Sys2Proof.Machine

/-- `N_D(L)`, the number of chunks (R234). -/
def numChunks (D : Descriptor) (L : Nat) : Nat := (L + D.lb) / D.cb + 1

/-- `T = N_D(L) * cb`, the padded length in bytes (R234). -/
def paddedLength (D : Descriptor) (L : Nat) : Nat := numChunks D L * D.cb

/-- `z = (cb - lb - (L + 1)) mod cb`, the number of zero bytes (R231), computed in the integers. -/
def zeroCount (D : Descriptor) (L : Nat) : Nat :=
  (((D.cb : Int) - D.lb - (L + 1)) % D.cb).toNat

/-- Byte `k` of `LenField_D(L)` (R232). -/
def lenFieldByte (D : Descriptor) (L k : Nat) : Byte :=
  BitVec.ofNat 8 ((8 * L) >>> (8 * (D.lb - 1 - k)))

/-- `LenField_D(L)`: the bit count `8 * L`, big-endian in `lb` bytes (R232). -/
def lenField (D : Descriptor) (L : Nat) : List Byte :=
  (List.range D.lb).map fun k => lenFieldByte D L k

/-- The padding sentinel: `setNthBit(0x00, 7)` (R231, R169). -/
def sentinel : Byte := setBit 0x00#8 7

/-- `Pad_D(m)` (R231). -/
def padMessage (D : Descriptor) (m : List Byte) : List Byte :=
  m ++ [sentinel] ++ List.replicate (zeroCount D m.length) 0x00#8 ++ lenField D m.length

/-- `Chunks_D(P)` (R235). -/
def chunksOf (D : Descriptor) (P : List Byte) : List (List Byte) :=
  (List.range (P.length / D.cb)).map fun j => (P.drop (j * D.cb)).take D.cb

/-- The byte the controller generates at a position `p ≥ L` (R233). -/
def generatedByte (D : Descriptor) (L p : Nat) : Byte :=
  if p = L then sentinel
  else if paddedLength D L - D.lb ≤ p then lenFieldByte D L (p - (paddedLength D L - D.lb))
  else 0x00#8

/-- `n` bytes of the padded message from position `p` on: the message memory is read for `p < L` only,
in ascending order (R233, R82). -/
def loadBytes (m : Memory) (D : Descriptor) (L d p : Nat) : Nat → List Byte × Nat
  | 0 => ([], d)
  | n + 1 =>
    let first := if p < L then m.readByte d p else (generatedByte D L p, d)
    let rest := loadBytes m D L first.2 (p + 1) n
    (first.1 :: rest.1, rest.2)

/-- `ChunkBytes_D(L, j)` (R233), with the number of draws made so far before and after. -/
def chunkBytes (m : Memory) (D : Descriptor) (L j d : Nat) : List Byte × Nat :=
  loadBytes m D L d (j * D.cb) D.cb

/-- Word `i` of a chunk: four bytes at `w = 32`, two packed halves at `w = 64` (R236). -/
def chunkWord (D : Descriptor) (B : List Byte) (i : Nat) : Word64 :=
  let b := fun k => B.getD k 0x00#8
  if D.w = 32 then (pack4 (b (4 * i)) (b (4 * i + 1)) (b (4 * i + 2)) (b (4 * i + 3))).setWidth 64
  else pack8 (b (8 * i)) (b (8 * i + 1)) (b (8 * i + 2)) (b (8 * i + 3))
    (b (8 * i + 4)) (b (8 * i + 5)) (b (8 * i + 6)) (b (8 * i + 7))

/-- `Words_D(B)` (R236). -/
def chunkWords (D : Descriptor) (B : List Byte) : List Word64 :=
  (List.range 16).map (chunkWord D B)

end Sys2Proof.Machine
end

