-- ==== Sys2Proof/Machine/Compression.lean ====
section
/-! DEFINITION. The mixing functions and the compression round (spec 45_compression.md R280 to R292).
Everything is generic in the word width `n`; the datapath uses `n = D.w` (R139). The two round
equations are marked "from general knowledge" by the spec, which checked them (93 G1, G2; log 15). -/

namespace Sys2Proof.Machine

/-- `Ch(x, y, z)` (R280). -/
def ch {n : Nat} (x y z : BitVec n) : BitVec n := (x &&& y) ^^^ (~~~x &&& z)

/-- `Maj(x, y, z)` (R281). -/
def maj {n : Nat} (x y z : BitVec n) : BitVec n := (x &&& y) ^^^ (x &&& z) ^^^ (y &&& z)

/-- `Parity(x, y, z)` (R282). -/
def parity {n : Nat} (x y z : BitVec n) : BitVec n := x ^^^ y ^^^ z

/-- The shape of Σ0 and Σ1: three rotations (R283, R284). -/
def bigSigma {n : Nat} (r : Triple) (x : BitVec n) : BitVec n :=
  rotr x r.r1 ^^^ rotr x r.r2 ^^^ rotr x r.r3

/-- The shape of σ0 and σ1: two rotations and a shift (R285, R286). -/
def smallSigma {n : Nat} (r : Triple) (x : BitVec n) : BitVec n :=
  rotr x r.r1 ^^^ rotr x r.r2 ^^^ shr x r.r3

/-- The working variables at width `n` (R54). -/
structure Vars (n : Nat) where
  a : BitVec n
  b : BitVec n
  c : BitVec n
  d : BitVec n
  e : BitVec n
  f : BitVec n
  g : BitVec n
  h : BitVec n
  deriving DecidableEq, Repr

/-- The SHA-2 round: one parallel update of all eight variables (R288, R289). -/
def sha2Round {n : Nat} (rot : RotTable) (v : Vars n) (wt kt : BitVec n) : Vars n :=
  let t1 := v.h + bigSigma rot.big1 v.e + ch v.e v.f v.g + kt + wt
  let t2 := bigSigma rot.big0 v.a + maj v.a v.b v.c
  { a := t1 + t2, b := v.a, c := v.b, d := v.c, e := v.d + t1, f := v.e, g := v.f, h := v.g }

/-- `f_t` of SHA-1 (R290). -/
def sha1F {n : Nat} (t : Nat) (x y z : BitVec n) : BitVec n :=
  if t < 20 then ch x y z
  else if t < 40 then parity x y z
  else if t < 60 then maj x y z
  else parity x y z

/-- The SHA-1 round; `f`, `g`, `h` are neither read nor written (R291). -/
def sha1Round {n : Nat} (t : Nat) (v : Vars n) (wt kt : BitVec n) : Vars n :=
  { v with
    a := rotl v.a 5 + sha1F t v.b v.c v.d + v.e + kt + wt
    b := v.a, c := rotl v.b 30, d := v.c, e := v.d }

/-- The working variables held in the registers, at width `n` (R53, R54). -/
def varsOf (n : Nat) (V : Vector Word64 8) : Vars n :=
  { a := V[0].setWidth n, b := V[1].setWidth n, c := V[2].setWidth n, d := V[3].setWidth n,
    e := V[4].setWidth n, f := V[5].setWidth n, g := V[6].setWidth n, h := V[7].setWidth n }

/-- Working variable `i` of R54's list. -/
def Vars.get {n : Nat} (v : Vars n) : Fin 8 → BitVec n
  | 0 => v.a | 1 => v.b | 2 => v.c | 3 => v.d | 4 => v.e | 5 => v.f | 6 => v.g | 7 => v.h

/-- The round of a family at width `D.w` (R288, R291). -/
def roundVars (D : Descriptor) (t : Nat) (v : Vars D.w) (wt kt : BitVec D.w) : Vars D.w :=
  match D.fam with
  | .sha1 => sha1Round t v wt kt
  | .sha2 rot => sha2Round rot v wt kt

/-- `V[0..nsw-1] <- Round_D(V, t, Wt, Kt)` on the registers; `V[nsw..7]` keep what they hold
(R201, R54). -/
def roundRegs (D : Descriptor) (V : Vector Word64 8) (t : Nat) (wt kt : Word64) : Vector Word64 8 :=
  let v := roundVars D t (varsOf D.w V) (wt.setWidth D.w) (kt.setWidth D.w)
  Vector.ofFn fun i => if i.val < D.nsw then (v.get i).setWidth 64 else V[i]

/-- `D.K[t]`. -/
def Descriptor.kAt (D : Descriptor) (t : Nat) : Word64 := D.k.getD t 0#64

/-- `Rounds_D(V0, W)`: the `R` rounds of one chunk (R292). -/
def roundsRegs (D : Descriptor) (V0 : Vector Word64 8) (W : List Word64) : Vector Word64 8 :=
  (List.range D.rounds).foldl (fun V t => roundRegs D V t (W.getD t 0#64) (D.kAt t)) V0

end Sys2Proof.Machine
end

