-- ==== Sys2Proof/Machine/Schedule.lean ====
section
/-! DEFINITION. The message scheduler (spec 44_schedule.md R260 to R263). The SHA-1 rule is marked "from
general knowledge" by the spec, which checked it (93 G1; log 15). -/

namespace Sys2Proof.Machine

/-- `W[t]` from the words before it, for `t = W.length ≥ 16` (R260 for SHA-2, R262 for SHA-1). -/
def nextWord (D : Descriptor) (W : List Word64) : Word64 :=
  let back := fun k => (W.getD (W.length - k) 0#64).setWidth D.w
  match D.fam with
  | .sha2 rot =>
    (smallSigma rot.small1 (back 2) + back 7 + smallSigma rot.small0 (back 15) + back 16).setWidth 64
  | .sha1 => (rotl (back 3 ^^^ back 8 ^^^ back 14 ^^^ back 16) 1).setWidth 64

/-- Extend a schedule by `n` words, in ascending order. -/
def extendSchedule (D : Descriptor) (W : List Word64) : Nat → List Word64
  | 0 => W
  | n + 1 => extendSchedule D (W ++ [nextWord D W]) n

/-- `Schedule_D(M)`: `W[0..R-1]` from the sixteen words of a chunk (R260, R262). -/
def schedule (D : Descriptor) (M : List Word64) : List Word64 :=
  extendSchedule D M (D.rounds - 16)

end Sys2Proof.Machine
end

