-- ==== Sys2Proof/Machine/Digest.lean ====
section
/-! DEFINITION. The state accumulator, the digest serializer and the end-to-end function (spec
46_accumulator_digest.md R310 to R326; 00_scope.md R21). -/

namespace Sys2Proof.Machine

/-- The running state at acceptance: the IV, and 0 beyond it (R310). -/
def initState (D : Descriptor) : Vector Word64 8 :=
  Vector.ofFn fun i => if i.val < D.nsw then D.iv.getD i.val 0#64 else 0#64

/-- `(x + y) mod 2^w` in 64-bit containers (R311). -/
def wrapAdd (w : Nat) (x y : Word64) : Word64 := (x.setWidth w + y.setWidth w).setWidth 64

/-- `FoldAdd_D(H, V)` (R311). -/
def foldAdd (D : Descriptor) (H V : Vector Word64 8) : Vector Word64 8 :=
  Vector.ofFn fun i => if i.val < D.nsw then wrapAdd D.w H[i] V[i] else H[i]

/-- `Compress_D(H, C)`: the whole effect of one chunk on the running state (R312). -/
def compress (D : Descriptor) (H : Vector Word64 8) (C : List Byte) : Vector Word64 8 :=
  foldAdd D H (roundsRegs D H (schedule D (chunkWords D C)))

/-- `Fold*(H, chunks)`: the chunks applied in order (R312). -/
def foldChunks (D : Descriptor) (H : Vector Word64 8) (Cs : List (List Byte)) : Vector Word64 8 :=
  Cs.foldl (compress D) H

/-- `Serialize_D(H)` (R320). -/
def serialize (D : Descriptor) (H : Vector Word64 8) : List Byte :=
  (H.toList.take D.nsw).flatMap fun x => unpack (x.setWidth D.w)

/-- `Truncate_D(S)` (R321). -/
def truncateDigest (D : Descriptor) (S : List Byte) : List Byte := S.take (D.dl / 8)

/-- Word `k` of a digest's bytes: packed big-endian below `dl / 32`, 0 from there on (R322). -/
def packDigest (D : Descriptor) (d : List Byte) (k : Nat) : Word32 :=
  let b := fun i => d.getD i 0x00#8
  if k < D.dl / 32 then pack4 (b (4 * k)) (b (4 * k + 1)) (b (4 * k + 2)) (b (4 * k + 3)) else 0#32

/-- `DigestWord_D(H, k)` (R322). -/
def digestWord (D : Descriptor) (H : Vector Word64 8) (k : Nat) : Word32 :=
  packDigest D (truncateDigest D (serialize D H)) k

/-- `HashBytes(D, m)`, the end-to-end function (R21). -/
def hashBytes (D : Descriptor) (m : List Byte) : List Byte :=
  truncateDigest D (serialize D (foldChunks D (initState D) (chunksOf D (padMessage D m))))

/-- `Hex_D(DIGEST)`: the digest registers as the host renders them (R326). -/
def hexDigest (D : Descriptor) (digest : Vector Word32 16) : List Char :=
  (digest.toList.take (D.dl / 32)).flatMap fun x => toHex x

end Sys2Proof.Machine
end

