-- ==== Sys2Proof/Machine/Commands.lean ====
section
/-! DEFINITION. The commands, rows of format CMD (spec 42_commands.md R190 to R199; 60_exceptions.md R340
to R343). A command completes within its write transaction (R199) and is ignored while the engine is
busy (R191). -/

namespace Sys2Proof.Machine

/-- The error codes of R340. -/
abbrev errAlgReserved : BitVec 4 := 1#4
abbrev errLenUnrepresentable : BitVec 4 := 2#4
abbrev errLenExceedsMem : BitVec 4 := 3#4
abbrev errCmdReserved : BitVec 4 := 4#4

/-- The checks of HASH in their order (R194, R195, R342): the descriptor, or the code of the first
check that fails. -/
def hashCheck (s : State) : Except (BitVec 4) Descriptor :=
  match desc s.alg with
  | none => .error errAlgReserved
  | some D =>
    if 2 ^ 61 ≤ s.msgLen.toNat then .error errLenUnrepresentable
    else if s.memSize.bytes < s.msgLen.toNat then .error errLenExceedsMem
    else .ok D

/-- Acceptance (R196), DONE, ERR and ERR_CODE being 0 already (R193). -/
def acceptHash (s : State) (D : Descriptor) : State :=
  { s.zeroResults with
    algL := s.alg
    lenL := s.msgLen
    nch := BitVec.ofNat 32 (numChunks D s.msgLen.toNat)
    H := initState D
    j := 0#32
    t := 0#7
    busy := true
    phase := .load }

/-- HASH on an idle engine: the status is cleared before the checks (R193 to R196). -/
def hashCommand (s : State) : State :=
  match hashCheck s with
  | .error code => s.clearStatus.raiseError code
  | .ok D => acceptHash s.clearStatus D

/-- CLEAR on an idle engine (R197). -/
def clearCommand (s : State) : State := s.clearStatus.zeroResults

/-- A reserved command on an idle engine (R198). -/
def reservedCommand (s : State) : State := s.raiseError errCmdReserved

/-- A 32-bit value written to CMD (R190). -/
def runCommand (s : State) (v : Word32) : State :=
  s.unlessBusy fun u =>
    if v = 0x00000000#32 then u
    else if v = 0x00000001#32 then hashCommand u
    else if v = 0x00000002#32 then clearCommand u
    else reservedCommand u

/-! ### The meanings -/

/-- NOP: no state changes, idle or busy (R192). -/
def execNop (s : State) : Result := .next s

/-- HASH (R193 to R196; R191 while busy). -/
def execHash (s : State) : Result := .next (s.unlessBusy hashCommand)

/-- CLEAR (R197; R191 while busy). -/
def execClear (s : State) : Result := .next (s.unlessBusy clearCommand)

/-- Any other command word (R198; R191 while busy). -/
def execCmdReserved (op : Word32) (s : State) : Result := .next (runCommand s op)

end Sys2Proof.Machine
end

