-- ==== Sys2Proof/Machine/Registers.lean ====
section
/-! DEFINITION. The rows of the register region (spec 42_commands.md R207, R208; 20_memory.md R78 case 1;
70_reset_and_hazards.md R390). -/

namespace Sys2Proof.Machine

/-- A 4-byte write to a register (R208): IRQ_EN takes it always, CTRL, CMD and MSG_LEN only while the
engine is idle, and the read-only registers never. -/
def writeReg (s : State) (v : Word32) : Reg → State
  | .ctrl => s.writeCtrl v
  | .cmd => runCommand s v
  | .msgLenLo => s.unlessBusy fun u => u.setMsgLenLo v
  | .msgLenHi => s.unlessBusy fun u => u.setMsgLenHi v
  | .irqEn => s.setIrqEn (doneEnOf v) (errEnOf v)
  | .id | .status | .chunks | .memsize | .digest _ => s

/-- A 4-byte write at a register-region offset: no effect where no register is (R73, R78). -/
def writeOffset (s : State) (off : RegOffset) (v : Word32) : State :=
  match regAt off with
  | some r => writeReg s v r
  | none => s

/-- REG_RD (R207). -/
def execRegRd (off : RegOffset) (s : State) : Result := .next (s.reply (s.readOffset off))

/-- REG_WR (R208). -/
def execRegWr (off : RegOffset) (data : Word32) (s : State) : Result := .next (writeOffset s off data)

/-- REG_NARROW: a 1- or 2-byte read in the register region returns 0, and a write has no effect, at every
offset and for every data (R78 case 1). -/
def execRegNarrow (dir : Dir) (_size : NarrowSize) (_off : RegOffset) (_data : Word32) (s : State) :
    Result :=
  match dir with
  | .read => .next (s.reply 0#32)
  | .write => .next s

end Sys2Proof.Machine
end

