-- ==== Sys2Proof/Machine/Window.lean ====
section
/-! DEFINITION. The rows of the message window: host reads and writes of MSGMEM (spec 20_memory.md R76 to
R81). `a` is the byte index OFF - 0x8000. -/

namespace Sys2Proof.Machine

/-- `rd8 MSG+a` (R76, R78). -/
def execMsgRd8 (a : BitVec 15) (s : State) : Result := .next (s.windowRead a.toNat 1)

/-- `rd16 MSG+a` (R76, R78). -/
def execMsgRd16 (a : BitVec 15) (s : State) : Result := .next (s.windowRead a.toNat 2)

/-- `rd32 MSG+a` (R76, R78). -/
def execMsgRd32 (a : BitVec 15) (s : State) : Result := .next (s.windowRead a.toNat 4)

/-- `wr8 MSG+a, data` (R77, R78). -/
def execMsgWr8 (a : BitVec 15) (data : Word32) (s : State) : Result :=
  .next (s.windowWrite a.toNat 1 data)

/-- `wr16 MSG+a, data` (R77, R78). -/
def execMsgWr16 (a : BitVec 15) (data : Word32) (s : State) : Result :=
  .next (s.windowWrite a.toNat 2 data)

/-- `wr32 MSG+a, data` (R77, R78). -/
def execMsgWr32 (a : BitVec 15) (data : Word32) (s : State) : Result :=
  .next (s.windowWrite a.toNat 4 data)

end Sys2Proof.Machine
end

