-- ==== Sys2Proof/Machine/Dispatch.lean ====
section
/-! DEFINITION. One arm per row of spec/opcode_table.json: each calls the meaning of its row. -/

namespace Sys2Proof.Machine

def exec (i : Instr) (s : State) : Host.Outcome State Fault Refusal :=
  match i with
  -- format CMD
  | .nop => Sys2Proof.Machine.execNop s
  | .hash => Sys2Proof.Machine.execHash s
  | .clear => Sys2Proof.Machine.execClear s
  | .cmdReserved op => Sys2Proof.Machine.execCmdReserved op s
  -- format CTRL
  | .sha1 rsv => Sys2Proof.Machine.execSha1 rsv s
  | .sha224 rsv => Sys2Proof.Machine.execSha224 rsv s
  | .sha256 rsv => Sys2Proof.Machine.execSha256 rsv s
  | .sha384 rsv => Sys2Proof.Machine.execSha384 rsv s
  | .sha512 rsv => Sys2Proof.Machine.execSha512 rsv s
  | .sha512_224 rsv => Sys2Proof.Machine.execSha512_224 rsv s
  | .sha512_256 rsv => Sys2Proof.Machine.execSha512_256 rsv s
  | .algReserved0 rsv => Sys2Proof.Machine.execAlgReserved0 rsv s
  | .algReserved8F rsv low => Sys2Proof.Machine.execAlgReserved8F rsv low s
  -- format TRACE, register region
  | .regRd off => Sys2Proof.Machine.execRegRd off s
  | .regWr off data => Sys2Proof.Machine.execRegWr off data s
  | .regNarrow dir size off data => Sys2Proof.Machine.execRegNarrow dir size off data s
  -- format TRACE, message window
  | .msgRd8 a => Sys2Proof.Machine.execMsgRd8 a s
  | .msgRd16 a => Sys2Proof.Machine.execMsgRd16 a s
  | .msgRd32 a => Sys2Proof.Machine.execMsgRd32 a s
  | .msgWr8 a data => Sys2Proof.Machine.execMsgWr8 a data s
  | .msgWr16 a data => Sys2Proof.Machine.execMsgWr16 a data s
  | .msgWr32 a data => Sys2Proof.Machine.execMsgWr32 a data s

end Sys2Proof.Machine
end

