-- ==== Sys2Proof/Machine/Engine.lean ====
section
/-! DEFINITION. The engine's steps (spec 42_commands.md R200 to R206). Each is one indivisible action, and
reads the descriptor of the latched `alg_l` (R204, R52). -/

namespace Sys2Proof.Machine

/-- LOAD: pad, chunk and expand one chunk, and seed the working variables (R200). `W[R..79]` and
`V[nsw..7]` are not written (log 9). -/
def loadStep (D : Descriptor) (s : State) : State :=
  let bytes := chunkBytes s.mem D s.lenL.toNat s.j.toNat s.draws
  let w := schedule D (chunkWords D bytes.1)
  { s with
    W := Vector.ofFn fun i => if i.val < D.rounds then w.getD i.val 0#64 else s.W[i]
    V := Vector.ofFn fun i => if i.val < D.nsw then s.H[i] else s.V[i]
    t := 0#7
    phase := .round
    draws := bytes.2 }

/-- ROUND: one compression round (R201). -/
def roundStep (D : Descriptor) (s : State) : State :=
  { s with
    V := roundRegs D s.V s.t.toNat (s.W.toList.getD s.t.toNat 0#64) (D.kAt s.t.toNat)
    t := s.t + 1#7
    phase := if (s.t + 1#7).toNat = D.rounds then .fold else .round }

/-- FOLD: accumulate one chunk (R202). -/
def foldStep (D : Descriptor) (s : State) : State :=
  { s with
    H := foldAdd D s.H s.V
    chunks := s.chunks + 1#32
    j := s.j + 1#32
    phase := if s.j + 1#32 = s.nch then .output else .load }

/-- OUTPUT: serialise the digest and finish (R203). -/
def outputStep (D : Descriptor) (s : State) : State :=
  { s with
    digest := Vector.ofFn fun k => digestWord D s.H k.val
    busy := false
    done := true
    phase := .idle }

/-- A step that reads `D = Desc(alg_l)` (R204). -/
def withDescriptor (s : State) (f : Descriptor → State → State) : Result :=
  match desc s.algL with
  | some D => .next (f D s)
  | none => .fault .noDescriptor

/-- The engine's turn: the one step `phase` selects; an idle engine has no step and nothing changes
(R204, R365). -/
def engineStep (s : State) : Result :=
  match s.phase with
  | .idle => .next s
  | .load => withDescriptor s loadStep
  | .round => withDescriptor s roundStep
  | .fold => withDescriptor s foldStep
  | .output => withDescriptor s outputStep

/-- `n` engine steps in a row, none of them stopping. -/
def engineRun : Nat → State → Result
  | 0, s => .next s
  | n + 1, s =>
    match engineStep s with
    | .next t => engineRun n t
    | .fault r => .fault r
    | .refused r => .refused r

end Sys2Proof.Machine
end

