-- ==== Sys2Proof/Machine/Step.lean ====
section
/-! DEFINITION. One step: the next action of the one total order (spec 00_scope.md R19; 20_memory.md R84).

The action waiting first in `inbox` is taken: a host transaction, a turn of the engine, or a reset. With
none waiting the engine has the turn, so an engine that stays busy always takes its next step in the
end (70_reset_and_hazards.md R395; log 3). -/

namespace Sys2Proof.Machine

/-- A host transaction: the word is decoded and its operation performed (20_memory.md R80). -/
def hostStep (word : Word64) (s : State) : Result :=
  match decode word with
  | .instr i => exec i s
  | .reject _ => .refused (.notATraceWord word)

/-- One step of the machine. -/
def step (s : State) : Host.Outcome State Fault Refusal :=
  match s.inbox with
  | [] => engineStep s
  | .host word :: rest => hostStep word (s.setInbox rest)
  | .engine :: rest => engineStep (s.setInbox rest)
  | .reset :: rest => .next (s.setInbox rest).applyReset

/-- A table word placed where `step` takes its next action: at the head of the inbox (log 5). -/
def State.withFetchWord (s : State) (nbits w : Nat) : State :=
  s.setInbox (.host (tableTraceWord nbits w) :: s.inbox)

end Sys2Proof.Machine
end

