-- ==== Sys2Proof/Machine/HostProgram.lean ====
section
/-! DEFINITION. The host program notation (spec 30_encoding.md R107 to R110): the host instructions and
pseudo-instructions, and the trace words each stands for. It is notation only: the block sees the
transactions. A line that the syntax does not reach has no trace words (log 24). How a line runs against the
machine, its reads answered, is Machine/HostRun.lean. -/

namespace Sys2Proof.Machine

/-- The size of a host instruction's access: `wr8`, `wr16`, `wr32` (R108). -/
inductive AccessSize where
  | one | two | four
  deriving DecidableEq, Repr

/-- SZ of R104. -/
def AccessSize.code : AccessSize → BitVec 2
  | .one => 0#2
  | .two => 1#2
  | .four => 2#2

/-- `n` of R108. -/
def AccessSize.bytes : AccessSize → Nat
  | .one => 1
  | .two => 2
  | .four => 4

/-- A line of a host program (R108, R109). -/
inductive HostOp where
  | wr (size : AccessSize) (off : BitVec 16) (val : Word32)
  | rd (size : AccessSize) (off : BitVec 16)
  | nop | hash | clear
  | setalg (a : Word32)
  | setlen (len : Word64)
  | start (a : Word32) (len : Word64)
  | poll (off : BitVec 16) (mask val : Word32)
  | wait
  | msg (bytes : List Byte)
  deriving DecidableEq, Repr

/-- The symbolic offset of a register (R107). -/
def regOff (r : Reg) : BitVec 16 := 0#1 ++ r.offset

/-- The symbolic offset `MSG+a` (R107), for `a < 32768`. From 32768 on no 16-bit number of R108 is
`MSG+a`; `HostOp.words` gives no line that would need one (log 24). -/
def msgOff (a : Nat) : BitVec 16 := BitVec.ofNat 16 (0x8000 + a)

/-- The trace word of a transaction `(dir, off, n, data)` (R104). -/
def transactionWord (dir : BitVec 1) (size : AccessSize) (off : BitVec 16) (data : Word32) : Word64 :=
  traceWord dir size.code (off.extractLsb' 15 1) (off.extractLsb' 0 15) data

/-- The trace word of a write line. -/
def wrWord (size : AccessSize) (off : BitVec 16) (val : Word32) : Word64 :=
  transactionWord 1#1 size off val

/-- The trace word of a read line; a read's DATA is 0 (R104). -/
def rdWord (size : AccessSize) (off : BitVec 16) : Word64 := transactionWord 0#1 size off 0#32

/-- `setlen L`: LO, then HI (R109). -/
def setlenWords (len : Word64) : List Word64 :=
  [wrWord .four (regOff .msgLenLo) (len.extractLsb' 0 32),
   wrWord .four (regOff .msgLenHi) (len.extractLsb' 32 32)]

/-- `msg`: whole words first, then the remaining bytes (R109), for at most 32768 bytes. -/
def msgWords (b : List Byte) : List Word64 :=
  let at' := fun k => b.getD k 0x00#8
  ((List.range (b.length / 4)).map fun i =>
    wrWord .four (msgOff (4 * i)) (pack4 (at' (4 * i)) (at' (4 * i + 1)) (at' (4 * i + 2)) (at' (4 * i + 3)))) ++
  ((List.range (b.length % 4)).map fun r =>
    wrWord .one (msgOff (4 * (b.length / 4) + r)) ((at' (4 * (b.length / 4) + r)).setWidth 32))

/-- Whether a polled value ends a `poll OFF, M, V` (R109). -/
def pollEnds (mask val word : Word32) : Bool := (word &&& mask) == val

/-- The bytes that `MSG+a` reaches with the 16-bit offset of R108. -/
def windowBytes : Nat := 0x8000

/-- Whether the syntax spells a line: VAL is at most `8n` bits wide (R108), and every `MSG+a` of a `msg`
is a 16-bit offset. R109 gives a longer `msg` no other expansion; that it has none is the model's choice
(DESIGN CHOICE, log 24). -/
def HostOp.spelled : HostOp → Bool
  | .wr size _ val => decide (val.toNat < 2 ^ (8 * size.bytes))
  | .msg bytes => decide (bytes.length ≤ windowBytes)
  | .rd _ _ | .nop | .hash | .clear | .setalg _ | .setlen _ | .start _ _ | .poll _ _ _ | .wait => true

/-- What a line expands to: a fixed list of transactions, or one `rd32` repeated until the condition holds
(R109). -/
inductive Expansion where
  | fixed (words : List Word64)
  | poll (off : BitVec 16) (mask val : Word32)
  deriving DecidableEq, Repr

/-- The expansion of a line the syntax spells (R109). `wait` is `poll STATUS, 0x1, 0x0`. -/
def HostOp.expansion : HostOp → Expansion
  | .wr size off val => .fixed [wrWord size off val]
  | .rd size off => .fixed [rdWord size off]
  | .nop => .fixed [wrWord .four (regOff .cmd) 0x0#32]
  | .hash => .fixed [wrWord .four (regOff .cmd) 0x1#32]
  | .clear => .fixed [wrWord .four (regOff .cmd) 0x2#32]
  | .setalg a => .fixed [wrWord .four (regOff .ctrl) a]
  | .setlen len => .fixed (setlenWords len)
  | .start a len =>
    .fixed ([wrWord .four (regOff .ctrl) a] ++ setlenWords len ++ [wrWord .four (regOff .cmd) 0x1#32])
  | .poll off mask val => .poll off mask val
  | .wait => .poll (regOff .status) 0x1#32 0x0#32
  | .msg bytes => .fixed (msgWords bytes)

/-- The reads of a `poll` that are returned the values `seen`, in order: the last value ends the poll and no
earlier one does. `none` for values no completed poll is returned (R109). No rule bounds how many there are
(93_implementation_defined.md U4; log 21). -/
def pollWords (off : BitVec 16) (mask val : Word32) : List Word32 → Option (List Word64)
  | [] => none
  | v :: seen =>
    if pollEnds mask val v then if seen = [] then some [rdWord .four off] else none
    else (pollWords off mask val seen).map (rdWord .four off :: ·)

/-- The transactions of an expansion, `seen` being the values the reads of a `poll` are returned. -/
def Expansion.words (seen : List Word32) : Expansion → Option (List Word64)
  | .fixed ws => some ws
  | .poll off mask val => pollWords off mask val seen

/-- The transactions of a line; `none` for a line the syntax does not spell (log 24) and for a `poll` that
the values `seen` do not complete. -/
def HostOp.words (seen : List Word32) (op : HostOp) : Option (List Word64) :=
  if op.spelled then op.expansion.words seen else none

/-- The transactions of a program, each line with the values its `poll` is returned; `none` when a line has
none. -/
def programWords : List (List Word32 × HostOp) → Option (List Word64)
  | [] => some []
  | line :: rest =>
    match line.2.words line.1, programWords rest with
    | some ws, some more => some (ws ++ more)
    | _, _ => none

/-- The host program equivalent to the source's `hashStrg<Algorithm>(input)` (R110). An input longer than
32768 bytes has no such program: its `msg` has no words (log 24). -/
def hashStrgProgram (a : BitVec 4) (D : Descriptor) (input : List Byte) : List HostOp :=
  [.msg input, .start (a.setWidth 32) (BitVec.ofNat 64 input.length), .wait] ++
  (List.range (D.dl / 32)).map fun i => .rd .four (BitVec.ofNat 16 (0x0040 + 4 * i))

end Sys2Proof.Machine
end

