-- ==== Sys2Proof/Machine/HostRun.lean ====
section
/-! DEFINITION. A host program run against the machine (spec 30_encoding.md R109, R110; 20_memory.md R84). The
host does one transaction at a time and reads what it is returned, so a `poll` goes on exactly while its
condition fails.

The engine moves between two transactions, any number of times (70_reset_and_hazards.md R395): `turns` lists
how many turns it has before each transaction of the host. A run that needs more transactions than `turns`
lists is still waiting at its end. No reset comes in between (log 21). -/

namespace Sys2Proof.Machine

/-- How a line or a program stands after the turns given. `seen` is what its reads were returned, in order. -/
inductive HostRun where
  /-- It has ended, with the turns not used. -/
  | finished (s : State) (turns : List Nat) (seen : List Word32)
  /-- It has transactions to do and no turns left. -/
  | waiting (s : State) (seen : List Word32)
  /-- The syntax does not spell it (log 24). -/
  | notSpelled
  | fault (r : Fault)
  | refused (r : Refusal)
  deriving DecidableEq, Repr

/-- The same run after reads that were returned `before`. -/
def HostRun.after (before : List Word32) : HostRun → HostRun
  | .finished s turns seen => .finished s turns (before ++ seen)
  | .waiting s seen => .waiting s (before ++ seen)
  | .notSpelled => .notSpelled
  | .fault r => .fault r
  | .refused r => .refused r

/-- `n` turns of the engine and then the host's transaction (R84). -/
def hostTurn (n : Nat) (word : Word64) (s : State) : Result :=
  match engineRun n s with
  | .next u => hostStep word u
  | .fault r => .fault r
  | .refused r => .refused r

/-- What a transaction is returned: a value for a read, nothing for a write (R79, R104). -/
def returned (word : Word64) (s : State) : List Word32 :=
  if dirField word = 1#1 then [] else [s.readData]

/-- A fixed list of transactions, in order. -/
def fixedRun : List Word64 → List Nat → State → HostRun
  | [], turns, s => .finished s turns []
  | _ :: _, [], s => .waiting s []
  | w :: ws, n :: turns, s =>
    match hostTurn n w s with
    | .next t => (fixedRun ws turns t).after (returned w t)
    | .fault r => .fault r
    | .refused r => .refused r

/-- `poll OFF, M, V`: `rd32 OFF` repeated until `(value & M) = V` (R109). -/
def pollRun (off : BitVec 16) (mask val : Word32) : List Nat → State → HostRun
  | [], s => .waiting s []
  | n :: turns, s =>
    match hostTurn n (rdWord .four off) s with
    | .next t =>
      if pollEnds mask val t.readData then .finished t turns [t.readData]
      else (pollRun off mask val turns t).after [t.readData]
    | .fault r => .fault r
    | .refused r => .refused r

/-- An expansion run by the host. -/
def Expansion.run : Expansion → List Nat → State → HostRun
  | .fixed ws => fixedRun ws
  | .poll off mask val => pollRun off mask val

/-- A line run by the host. -/
def HostOp.run (op : HostOp) (turns : List Nat) (s : State) : HostRun :=
  if op.spelled then op.expansion.run turns s else .notSpelled

/-- The lines of a program, each when the one before has ended. -/
def programRun : List HostOp → List Nat → State → HostRun
  | [], turns, s => .finished s turns []
  | op :: ops, turns, s =>
    match op.run turns s with
    | .finished t rest seen => (programRun ops rest t).after seen
    | other => other

end Sys2Proof.Machine
end

