-- ==== Sys2Proof/WellFormed.lean ====
section
/-! DEFINITION. Which terms of `Instr` are host operations the encodings can spell (30_encoding.md R101,
R103, R104).

- `cmdReserved op`: `op` is none of the three commands (R101).
- `regWr off _`: `off` is neither CTRL nor CMD, since those words are rows of their own.
- `regNarrow .read _ _ data`: a read's DATA field is 0 (R104).

Every other constructor is well formed at every operand: the operand types bound them. -/

namespace Sys2Proof

/-- The check on one operation. -/
def Instr.wf : Instr → Bool
  | .cmdReserved op => op != 0#32 && op != 1#32 && op != 2#32
  | .regWr off _ => off != Machine.ctrlOffset && off != Machine.cmdOffset
  | .regNarrow .read _ _ data => data == 0#32
  | .nop | .hash | .clear
  | .sha1 _ | .sha224 _ | .sha256 _ | .sha384 _ | .sha512 _ | .sha512_224 _ | .sha512_256 _
  | .algReserved0 _ | .algReserved8F _ _
  | .regRd _ | .regNarrow .write _ _ _
  | .msgRd8 _ | .msgRd16 _ | .msgRd32 _ | .msgWr8 _ _ | .msgWr16 _ _ | .msgWr32 _ _ => true

end Sys2Proof
end

