-- ==== Sys2Proof/Safety.lean ====
section
/-! DEFINITION. What the statements speak of: the invariant of the machine (spec 10_state.md R52, R53, R61;
46_accumulator_digest.md R323; 70_reset_and_hazards.md R392), the progress of a running HASH (R312,
R205), which operations read and which write, and which action a step takes. -/

namespace Sys2Proof.Machine

/-- The written bytes of the memory hold the message `m` from byte 0 on (R74). -/
def Memory.Holds (mem : Memory) (m : List Byte) : Prop :=
  ∀ a (h : a < m.length), mem.lookup a = some m[a]

/-- A register of a `w`-bit datapath holds a `w`-bit word (R53). -/
def FitsWidth (w : Nat) (x : Word64) : Prop := x.toNat < 2 ^ w

/-- What holds of a busy machine running descriptor `D` (R61, R52, R53, R323). -/
structure BusyInv (D : Descriptor) (s : State) : Prop where
  /-- R61: `DONE = 0` and `ERR = 0`. -/
  clean : s.done = false ∧ s.err = false
  /-- R52: the latched copies equal the registers. -/
  latched : s.algL = s.alg ∧ s.lenL = s.msgLen
  /-- R195: the accepted length fits the memory. -/
  fits : s.lenL.toNat ≤ s.memSize.bytes
  /-- R196, R234. -/
  nchIs : s.nch.toNat = numChunks D s.lenL.toNat
  /-- R61: `j < nch`, or `j = nch` in OUTPUT. -/
  jBound : if s.phase = .output then s.j = s.nch else s.j.toNat < s.nch.toNat
  /-- R41, R56: both count the FOLDs. -/
  chunksIs : s.chunks = s.j
  /-- R61: `t ≤ R`; a ROUND has a round to do, and a FOLD has done them all. -/
  tBound : s.t.toNat ≤ D.rounds ∧ (s.phase = .round → s.t.toNat < D.rounds) ∧
    (s.phase = .fold → s.t.toNat = D.rounds)
  /-- R323. -/
  noDigest : ∀ k : Fin 16, s.digest[k] = 0#32
  /-- R53: the used words of `H`. -/
  widthH : ∀ i : Fin 8, FitsWidth D.w s.H[i]
  /-- R54: the used words of `V`, once LOAD has seeded them. -/
  widthV : s.phase = .round ∨ s.phase = .fold → ∀ i : Fin 8, i.val < D.nsw → FitsWidth D.w s.V[i]

/-- The invariant: it holds after reset and every step keeps it. -/
structure MachineInv (s : State) : Prop where
  /-- R61, R35. -/
  busyIff : s.busy = true ↔ s.phase ≠ .idle
  /-- R61, R347. -/
  notBoth : ¬ (s.done = true ∧ s.err = true)
  /-- R61, R38. -/
  codeZero : s.err = false → s.errCode = 0#4
  /-- R340: codes 5 to 15 are never produced. -/
  codeNamed : s.err = true → 1 ≤ s.errCode.toNat ∧ s.errCode.toNat ≤ 4
  /-- A busy engine runs one of the seven descriptors (R194). -/
  running : s.busy = true → ∃ D, desc s.algL = some D ∧ BusyInv D s
  /-- R392, R41: with `DONE = 1` the results are those of the last accepted HASH. -/
  result : s.done = true → ∃ D, desc s.algL = some D ∧ s.chunks = s.nch ∧
    s.nch.toNat = numChunks D s.lenL.toNat ∧ ∀ k : Fin 16, s.digest[k] = digestWord D s.H k.val
  /-- The canonical form of the memory. -/
  memWf : s.mem.wf
  /-- R74: only existing bytes are written. -/
  memBelow : s.mem.below s.memSize.bytes

/-- The running state before chunk `j` of message `m` (R312). -/
def stateBefore (D : Descriptor) (m : List Byte) (j : Nat) : Vector Word64 8 :=
  foldChunks D (initState D) ((chunksOf D (padMessage D m)).take j)

/-- The schedule of chunk `j` of message `m`. -/
def scheduleOf (D : Descriptor) (m : List Byte) (j : Nat) : List Word64 :=
  schedule D (chunkWords D ((chunksOf D (padMessage D m)).getD j []))

/-- The working variables after `t` rounds (R292). -/
def varsAfter (D : Descriptor) (V0 : Vector Word64 8) (W : List Word64) (t : Nat) : Vector Word64 8 :=
  (List.range t).foldl (fun V i => roundRegs D V i (W.getD i 0#64) (D.kAt i)) V0

/-- A HASH of message `m` is running under `D`, all its bytes written, and the engine's registers are
what the source's algorithm has at this point (R312, R205). -/
structure Hashing (D : Descriptor) (m : List Byte) (s : State) : Prop where
  busy : s.busy = true
  descIs : desc s.algL = some D
  lenIs : s.lenL.toNat = m.length
  holds : s.mem.Holds m
  stateH : s.H = stateBefore D m s.j.toNat
  schedW : s.phase = .round ∨ s.phase = .fold →
    ∀ i : Fin 80, i.val < D.rounds → s.W[i] = (scheduleOf D m s.j.toNat).getD i.val 0#64
  varsV : s.phase = .round ∨ s.phase = .fold →
    ∀ i : Fin 8, i.val < D.nsw →
      s.V[i] = (varsAfter D (stateBefore D m s.j.toNat) (scheduleOf D m s.j.toNat) s.t.toNat)[i]

/-- The results of a completed HASH of `m` under `D` stand in the registers (R205). -/
def HashDone (D : Descriptor) (m : List Byte) (s : State) : Prop :=
  s.phase = .idle ∧ s.statusWord = 0x00000002#32 ∧
  s.chunks.toNat = numChunks D m.length ∧
  ∀ k : Fin 16, s.digest[k] = packDigest D (hashBytes D m) k.val

/-- Every register, internal register and message byte has its reset value (R60). -/
structure AtReset (s : State) : Prop where
  ctrl : s.alg = 0#4
  len : s.msgLenLo = 0#32 ∧ s.msgLenHi = 0#32
  irqEn : s.doneEn = false ∧ s.errEn = false
  status : s.busy = false ∧ s.done = false ∧ s.err = false ∧ s.errCode = 0#4
  chunks : s.chunks = 0#32
  digest : ∀ k : Fin 16, s.digest[k] = 0#32
  constants : s.readReg .id = 0x54480001#32 ∧ s.readReg .memsize = BitVec.ofNat 32 s.memSize.bytes
  irq : s.irq = false
  phase : s.phase = .idle
  latches : s.algL = 0#4 ∧ s.lenL = 0#64 ∧ s.nch = 0#32 ∧ s.j = 0#32 ∧ s.t = 0#7
  engine : (∀ i : Fin 8, s.H[i] = 0#64 ∧ s.V[i] = 0#64) ∧ ∀ t : Fin 80, s.W[t] = 0#64
  unwritten : ∀ a, s.mem.lookup a = none

/-- A host read (R78). -/
def isRead : Instr → Bool
  | .regRd _ | .regNarrow .read _ _ _ | .msgRd8 _ | .msgRd16 _ | .msgRd32 _ => true
  | .nop | .hash | .clear | .cmdReserved _ | .sha1 _ | .sha224 _ | .sha256 _ | .sha384 _ | .sha512 _
  | .sha512_224 _ | .sha512_256 _ | .algReserved0 _ | .algReserved8F _ _ | .regWr _ _
  | .regNarrow .write _ _ _ | .msgWr8 _ _ | .msgWr16 _ _ | .msgWr32 _ _ => false

/-- A host write into the message window, with the first byte and the number of bytes it names. -/
def windowWriteOf : Instr → Option (Nat × Nat)
  | .msgWr8 a _ => some (a.toNat, 1)
  | .msgWr16 a _ => some (a.toNat, 2)
  | .msgWr32 a _ => some (a.toNat, 4)
  | .nop | .hash | .clear | .cmdReserved _ | .sha1 _ | .sha224 _ | .sha256 _ | .sha384 _ | .sha512 _
  | .sha512_224 _ | .sha512_256 _ | .algReserved0 _ | .algReserved8F _ _ | .regRd _ | .regWr _ _
  | .regNarrow _ _ _ _ | .msgRd8 _ | .msgRd16 _ | .msgRd32 _ => none

/-- The action a step takes: the first one waiting, or else a turn of the engine (R84, R395). -/
def State.nextAction (s : State) : Action := s.inbox.headD .engine

/-- The next action is the host transaction of operation `i`. -/
def State.nextIs (s : State) (i : Instr) : Prop :=
  ∃ w, s.nextAction = .host w ∧ decode w = .instr i

/-- What `rd32 off` is, by the map of 20_memory.md R71: a register read, or a read of the message window at
`off - 0x8000`. -/
def readAt (off : BitVec 16) : Instr :=
  if off.getLsbD 15 then .msgRd32 (off.extractLsb' 0 15) else .regRd (off.extractLsb' 0 15)

/-- Reads of `off` from `s` on, `turns` being the engine's turns before each: they return the values `seen`, in
order, and leave `t`. Each value is what `rd32 off` returns in the state that its turns lead to. -/
def ReadsReturn (off : BitVec 16) : List Nat → State → List Word32 → State → Prop
  | [], s, [], t => t = s
  | n :: turns, s, v :: seen, t =>
    ∃ u r, engineRun n s = .next u ∧ exec (readAt off) u = .next r ∧ r.readData = v ∧
      ReadsReturn off turns r seen t
  | [], _, _ :: _, _ => False
  | _ :: _, _, [], _ => False

end Sys2Proof.Machine
end

