-- ==== Sys2Proof/Certificates/Slice0/Obligations.lean ====
section
/-! DEFINITION. The statements for the provers. Each docstring says which rule of the spec it formalises.
`exec` takes a state whose inbox no longer holds the action; `step` takes the action first. -/

open Sys2Proof Sys2Proof.Machine

/-! ### The step, reset and decoding -/

/-- R60: the state after reset. -/
def Obligations.ResetStateHoldsTheStatedValues : Prop := AtReset State.reset

/-- R380: the reset input leaves every register at its R60 value and every message byte unwritten, aborts a
running computation, and a second reset leaves what the first left; besides it, only the OUTPUT step ends a
running computation. -/
def Obligations.ResetInputRestoresEveryValue : Prop :=
  (∀ s : State, s.nextAction = .reset →
    ∃ t, step s = .next t ∧ AtReset t ∧ t.memSize = s.memSize ∧
      (t.nextAction = .reset → ∃ u, step t = .next u ∧ u = { t with inbox := u.inbox })) ∧
  ∀ s t : State, step s = .next t → s.busy = true → t.busy = false →
    s.nextAction = .reset ∨ (s.nextAction = .engine ∧ s.phase = .output)

/-- A step whose next action is a host transaction runs the operation the word decodes to, on the state
with the action taken from the inbox (20_memory.md R80, R84; the inbox is the model's, log 3). -/
def Obligations.StepRunsTheDecodedTransaction : Prop :=
  ∀ (s : State) (w : Word64) (rest : List Action) (i : Instr),
    s.inbox = .host w :: rest → decode w = .instr i → step s = exec i { s with inbox := rest }

/-- A word with a reserved bit set or SZ = 3 spells no transaction (R104): it is what the decoder rejects,
and a step on it is refused by name (log 11). -/
def Obligations.OnlyUnspelledWordsAreRefused : Prop :=
  ∀ (s : State) (w : Word64) (rest : List Action), s.inbox = .host w :: rest →
    (step s = .refused (.notATraceWord w) ↔
      ((∃ k, ((48 ≤ k ∧ k < 56) ∨ (58 ≤ k ∧ k < 63)) ∧ w.getLsbD k = true) ∨
        (w.getLsbD 56 = true ∧ w.getLsbD 57 = true)))

/-- R204: an idle engine has no step; otherwise it has exactly the one step `phase` selects, which reads
`Desc(alg_l)`. A turn given to an idle engine leaves the state as it is (log 4). -/
def Obligations.EngineTurnTakesTheStepOfItsPhase : Prop :=
  ∀ s : State, s.nextAction = .engine →
    let u := { s with inbox := s.inbox.tail }
    (s.phase = .idle → step s = .next u) ∧
    ∀ D, desc s.algL = some D →
      (s.phase = .load → step s = .next (loadStep D u)) ∧
      (s.phase = .round → step s = .next (roundStep D u)) ∧
      (s.phase = .fold → step s = .next (foldStep D u)) ∧
      (s.phase = .output → step s = .next (outputStep D u))

/-- Decoding and encoding agree on every well-formed operation, at every operand (R101 to R104). -/
def Obligations.DecodeOfEncodeIsTheOperation : Prop :=
  ∀ i : Instr, i.wf = true → decode (encode i) = .instr i

/-- Every word the decoder accepts is the encoding of the well-formed operation it gives: all 64 bits for a
write, all but the unused DATA field for a read (R104, log 7). -/
def Obligations.EncodeOfDecodeIsTheWord : Prop :=
  ∀ (w : Word64) (i : Instr), decode w = .instr i →
    i.wf = true ∧ ∀ k < 64, (32 ≤ k ∨ w.getLsbD 63 = true) →
      (encode i).getLsbD k = w.getLsbD k

/-- Trace words of the spec's programs P1 to P4 decode to the operations they are listed as. -/
def Obligations.ListedTraceWordsDecode : Prop :=
  decode 0x8200000800000001#64 = .instr .hash ∧
  decode 0x8200000800000000#64 = .instr .nop ∧
  decode 0x8200000800000002#64 = .instr .clear ∧
  decode 0x8200000800000003#64 = .instr (.cmdReserved 3#32) ∧
  decode 0x8200000400000003#64 = .instr (.sha256 0#28) ∧
  decode 0x820000040000000f#64 = .instr (.algReserved8F 0#28 7#3) ∧
  decode 0x0200000c00000000#64 = .instr (.regRd 0x000C#15) ∧
  decode 0x8200001000000038#64 = .instr (.regWr 0x0010#15 0x38#32) ∧
  decode 0x8000800100000062#64 = .instr (.msgWr8 1#15 0x62#32) ∧
  decode 0x82008020696a6b6c#64 = .instr (.msgWr32 0x20#15 0x696a6b6c#32) ∧
  decode 0x0100800200000000#64 = .instr (.msgRd16 2#15) ∧
  decode 0x0000800500000000#64 = .instr (.msgRd8 5#15)

/-- R101: a command is matched by its whole 32-bit value, so a value whose low bits spell a command is still
reserved. -/
def Obligations.CommandsAreMatchedByTheWholeValue : Prop :=
  ∀ v : Word32,
    decode (0x82000008#32 ++ v) = .instr
      (if v.toNat = 0 then .nop else if v.toNat = 1 then .hash else if v.toNat = 2 then .clear
        else .cmdReserved v)

/-! ### Commands -/

/-- R192: NOP changes nothing, idle or busy. -/
def Obligations.NopChangesNothing : Prop :=
  ∀ s : State, exec .nop s = .next s

/-- R191: a command written while busy changes nothing and leaves no record. -/
def Obligations.CommandsWhileBusyChangeNothing : Prop :=
  ∀ (s : State) (op : Word32), s.busy = true →
    exec .nop s = .next s ∧ exec .hash s = .next s ∧ exec .clear s = .next s ∧
      exec (.cmdReserved op) s = .next s

/-- R194, R195, R342: HASH checks the algorithm, then whether the bit length can be encoded, then whether the
message fits the memory, and reports the first failure, changing DONE, ERR and ERR_CODE only; when all pass,
the empty message and a full memory included, it starts under the descriptor of the code. -/
def Obligations.HashReportsTheFirstFailingCheck : Prop :=
  ∀ s : State, s.busy = false →
    ((s.alg.toNat = 0 ∨ 8 ≤ s.alg.toNat) →
      exec .hash s = .next { s with done := false, err := true, errCode := 1#4 }) ∧
    (1 ≤ s.alg.toNat ∧ s.alg.toNat ≤ 7 →
      (2 ^ 61 ≤ (s.msgLenHi ++ s.msgLenLo).toNat →
        exec .hash s = .next { s with done := false, err := true, errCode := 2#4 }) ∧
      ((s.msgLenHi ++ s.msgLenLo).toNat < 2 ^ 61 → s.memSize.bytes < (s.msgLenHi ++ s.msgLenLo).toNat →
        exec .hash s = .next { s with done := false, err := true, errCode := 3#4 }) ∧
      ((s.msgLenHi ++ s.msgLenLo).toNat ≤ s.memSize.bytes →
        ∃ t D, exec .hash s = .next t ∧ desc s.alg = some D ∧ desc t.algL = some D ∧
          t.busy = true ∧ t.done = false ∧ t.err = false ∧ t.errCode = 0#4))

/-- R193, R196, R310: a HASH that passes the checks clears the status and the results, latches its operands,
counts the chunks, starts the running state from the initial vector and sets BUSY; nothing else changes. -/
def Obligations.AcceptedHashStartsTheEngine : Prop :=
  ∀ (s : State) (D : Descriptor), s.busy = false → desc s.alg = some D →
    (s.msgLenHi ++ s.msgLenLo).toNat ≤ s.memSize.bytes →
    ∃ t, exec .hash s = .next t ∧
      t = { s with
        done := false, err := false, errCode := 0#4, busy := true, phase := .load,
        chunks := 0#32, digest := Vector.replicate 16 0#32,
        algL := s.alg, lenL := s.msgLenHi ++ s.msgLenLo, nch := t.nch, j := 0#32, t := 0#7, H := t.H } ∧
      t.nch.toNat = ((s.msgLenHi ++ s.msgLenLo).toNat + D.lel / 8) / (D.cs / 8) + 1 ∧
      ∀ i : Fin 8, t.H[i] = if i.val < D.nsw then D.iv.getD i.val 0#64 else 0#64

/-- R197: CLEAR clears the status flags, CHUNKS and DIGEST of an idle machine, lowers `irq`, and changes
nothing else. -/
def Obligations.ClearResetsTheResults : Prop :=
  ∀ s : State, s.busy = false →
    ∃ t, exec .clear s = .next t ∧
      t = { s with done := false, err := false, errCode := 0#4, chunks := 0#32, digest := t.digest } ∧
      (∀ k : Fin 16, t.digest[k] = 0#32) ∧ t.irq = false

/-- R198: a reserved command on an idle machine clears DONE, sets ERR with code 4, and changes nothing else. -/
def Obligations.ReservedCommandIsRejected : Prop :=
  ∀ (s : State) (op : Word32), s.busy = false → 2 < op.toNat →
    exec (.cmdReserved op) s = .next { s with done := false, err := true, errCode := 4#4 }

/-- A word written to CMD or CTRL by `wr32` has one meaning, whether it is read as REG_WR (R208) or as a row of
the CMD or CTRL format (R101, R102). -/
def Obligations.RegisterWriteAgreesWithTheFormatRows : Prop :=
  ∀ (s : State) (v : Word32),
    exec (.regWr 0x0008#15 v) s = exec (decodeCmd v) s ∧
    exec (.regWr 0x0004#15 v) s = exec (decodeCtrl v) s

/-! ### CTRL and the descriptors -/

/-- R102, R32, R103: a write to CTRL stores the low four bits in ALG, reserved codes included, ignores the
reserved bits, and changes nothing else; CTRL reads back as ALG alone. -/
def Obligations.CtrlWriteStoresTheAlgorithmCode : Prop :=
  (∀ (s : State) (rsv : BitVec 28) (low : BitVec 3), s.busy = false →
    exec (.sha1 rsv) s = .next { s with alg := 0x1#4 } ∧
    exec (.sha224 rsv) s = .next { s with alg := 0x2#4 } ∧
    exec (.sha256 rsv) s = .next { s with alg := 0x3#4 } ∧
    exec (.sha384 rsv) s = .next { s with alg := 0x4#4 } ∧
    exec (.sha512 rsv) s = .next { s with alg := 0x5#4 } ∧
    exec (.sha512_224 rsv) s = .next { s with alg := 0x6#4 } ∧
    exec (.sha512_256 rsv) s = .next { s with alg := 0x7#4 } ∧
    exec (.algReserved0 rsv) s = .next { s with alg := 0x0#4 } ∧
    exec (.algReserved8F rsv low) s = .next { s with alg := 1#1 ++ low }) ∧
  (∀ v : Word32, ∃ i, decode (0x82000004#32 ++ v) = .instr i ∧
    ∀ s : State, s.busy = false → exec i s = .next { s with alg := v.extractLsb' 0 4 }) ∧
  ∀ s : State, exec (.regRd 0x0004#15) s = .next { s with readData := 0#28 ++ s.alg }

/-- R131 to R140: the structural fields and the rotation tables of the seven descriptors, and no descriptor for
another code. The sizes and digest lengths are marked "from general knowledge" by the spec (log 15). -/
def Obligations.DescriptorsHaveTheTabledParameters : Prop :=
  let row := fun (D : Descriptor) => (D.w, D.nsw, D.rounds, D.cs, D.lel, D.dl)
  let tables32 := Family.sha2 ⟨⟨7, 18, 3⟩, ⟨17, 19, 10⟩, ⟨2, 13, 22⟩, ⟨6, 11, 25⟩⟩
  let tables64 := Family.sha2 ⟨⟨1, 8, 7⟩, ⟨19, 61, 6⟩, ⟨28, 34, 39⟩, ⟨14, 18, 41⟩⟩
  (desc 0x1#4).map row = some (32, 5, 80, 512, 64, 160) ∧
  (desc 0x2#4).map row = some (32, 8, 64, 512, 64, 224) ∧
  (desc 0x3#4).map row = some (32, 8, 64, 512, 64, 256) ∧
  (desc 0x4#4).map row = some (64, 8, 80, 1024, 128, 384) ∧
  (desc 0x5#4).map row = some (64, 8, 80, 1024, 128, 512) ∧
  (desc 0x6#4).map row = some (64, 8, 80, 1024, 128, 224) ∧
  (desc 0x7#4).map row = some (64, 8, 80, 1024, 128, 256) ∧
  (desc 0x1#4).map (·.fam) = some .sha1 ∧
  (desc 0x2#4).map (·.fam) = some tables32 ∧ (desc 0x3#4).map (·.fam) = some tables32 ∧
  (desc 0x4#4).map (·.fam) = some tables64 ∧ (desc 0x5#4).map (·.fam) = some tables64 ∧
  (desc 0x6#4).map (·.fam) = some tables64 ∧ (desc 0x7#4).map (·.fam) = some tables64 ∧
  ∀ a : BitVec 4, (desc a).isSome = true ↔ 1 ≤ a.toNat ∧ a.toNat ≤ 7

/-! ### Register reads and writes -/

/-- R207: what a read in the register region returns at every offset and size, idle or busy; nothing else
changes. While busy every DIGEST word reads 0, in the states the invariant allows. -/
def Obligations.RegisterReadReturnsTheRegister : Prop :=
  ∀ s : State,
    let status := 16 * s.errCode.toNat + 4 * s.err.toNat + 2 * s.done.toNat + s.busy.toNat
    let irqEn := 2 * s.errEn.toNat + s.doneEn.toNat
    exec (.regRd 0x0000#15) s = .next { s with readData := 0x54480001#32 } ∧
    exec (.regRd 0x0004#15) s = .next { s with readData := BitVec.ofNat 32 s.alg.toNat } ∧
    exec (.regRd 0x0008#15) s = .next { s with readData := 0#32 } ∧
    exec (.regRd 0x000C#15) s = .next { s with readData := BitVec.ofNat 32 status } ∧
    exec (.regRd 0x0010#15) s = .next { s with readData := s.msgLenLo } ∧
    exec (.regRd 0x0014#15) s = .next { s with readData := s.msgLenHi } ∧
    exec (.regRd 0x0018#15) s = .next { s with readData := BitVec.ofNat 32 irqEn } ∧
    exec (.regRd 0x001C#15) s = .next { s with readData := s.chunks } ∧
    exec (.regRd 0x0020#15) s = .next { s with readData := BitVec.ofNat 32 s.memSize.bytes } ∧
    (∀ k : Fin 16, exec (.regRd (BitVec.ofNat 15 (0x40 + 4 * k.val))) s =
      .next { s with readData := s.digest[k] }) ∧
    (∀ off : BitVec 15,
      (off.toNat % 4 ≠ 0 ∨ (0x24 ≤ off.toNat ∧ off.toNat < 0x40) ∨ 0x80 ≤ off.toNat) →
      exec (.regRd off) s = .next { s with readData := 0#32 }) ∧
    (∀ (size : NarrowSize) (off : BitVec 15) (data : Word32),
      exec (.regNarrow .read size off data) s = .next { s with readData := 0#32 }) ∧
    (MachineInv s → s.busy = true → ∀ k : Fin 16,
      exec (.regRd (BitVec.ofNat 15 (0x40 + 4 * k.val))) s = .next { s with readData := 0#32 })

/-- R208: what a write in the register region does at every offset and size: while busy only IRQ_EN takes it;
while idle CTRL, MSG_LEN and IRQ_EN store it and CMD runs the command; a read-only register, an unmapped or
misaligned offset and a 1- or 2-byte write take nothing. -/
def Obligations.RegisterWriteStoresInWritableRegisters : Prop :=
  ∀ (s : State) (v : Word32),
    exec (.regWr 0x0018#15 v) s = .next { s with doneEn := v.getLsbD 0, errEn := v.getLsbD 1 } ∧
    (s.busy = true → ∀ off : BitVec 15, off ≠ 0x0018#15 → exec (.regWr off v) s = .next s) ∧
    (s.busy = false →
      exec (.regWr 0x0004#15 v) s = .next { s with alg := v.extractLsb' 0 4 } ∧
      exec (.regWr 0x0008#15 v) s =
        exec (if v.toNat = 0 then .nop else if v.toNat = 1 then .hash else if v.toNat = 2 then .clear
          else .cmdReserved v) s ∧
      exec (.regWr 0x0010#15 v) s = .next { s with msgLenLo := v } ∧
      exec (.regWr 0x0014#15 v) s = .next { s with msgLenHi := v }) ∧
    (∀ off : BitVec 15,
      (off.toNat % 4 ≠ 0 ∨ off.toNat = 0x00 ∨ off.toNat = 0x0C ∨ 0x1C ≤ off.toNat) →
      exec (.regWr off v) s = .next s) ∧
    (∀ (size : NarrowSize) (off : BitVec 15), exec (.regNarrow .write size off v) s = .next s)

/-- R390: while busy every host write except one to IRQ_EN has no effect, whatever the register or the
window byte; IRQ_EN is still written, and reads are served, changing no register and no byte; the latched
operands equal the registers, in the states the invariant allows. -/
def Obligations.WritesWhileBusyAreIgnored : Prop :=
  ∀ s : State, s.busy = true →
    (∀ i : Instr, isRead i = false → (∀ v, i ≠ .regWr 0x0018#15 v) → exec i s = .next s) ∧
    (∀ v : Word32, exec (.regWr 0x0018#15 v) s =
      .next { s with doneEn := v.getLsbD 0, errEn := v.getLsbD 1 }) ∧
    (∀ i : Instr, isRead i = true →
      ∃ (v : Word32) (d : Nat), exec i s = .next { s with readData := v, draws := d }) ∧
    (MachineInv s → s.algL = s.alg ∧ s.lenL = s.msgLen)

/-- R81: a host read changes nothing but what the host receives and the count of unwritten bytes drawn; every
message byte keeps its value. -/
def Obligations.HostReadsChangeNoRegisterAndNoByte : Prop :=
  ∀ (s : State) (i : Instr), isRead i = true →
    ∃ (v : Word32) (d : Nat), exec i s = .next { s with readData := v, draws := d } ∧ s.draws ≤ d

/-! ### The message window -/

/-- R76: an effective window read returns its bytes big-endian (zero-extended by R79), each of them by R75: a
written byte is its value, an unwritten one a fresh draw (the count of draws is the model's, log 2; the draws
of one read are made in ascending order, log 20). Only the value returned and the draws change. -/
def Obligations.WindowReadReturnsBytesBigEndian : Prop :=
  (∀ (m : Memory) (d a : Nat),
    m.readByte d a = match m.lookup a with
      | some b => (b, d)
      | none => (Config.freeByte d, d + 1)) ∧
  ∀ (s : State) (a : BitVec 15), a.toNat < s.memSize.bytes →
    let r0 := s.mem.readByte s.draws a.toNat
    let r1 := s.mem.readByte r0.2 (a.toNat + 1)
    let r2 := s.mem.readByte r1.2 (a.toNat + 2)
    let r3 := s.mem.readByte r2.2 (a.toNat + 3)
    exec (.msgRd8 a) s = .next { s with readData := 0#24 ++ r0.1, draws := r0.2 } ∧
    (a.toNat % 2 = 0 →
      exec (.msgRd16 a) s = .next { s with readData := 0#16 ++ r0.1 ++ r1.1, draws := r1.2 }) ∧
    (a.toNat % 4 = 0 →
      exec (.msgRd32 a) s =
        .next { s with readData := r0.1 ++ r1.1 ++ r2.1 ++ r3.1, draws := r3.2 })

/-- R75: a byte that no host write has set since reset reads as a draw, a fresh one at each read, and reading it
does not write it. -/
def Obligations.UnwrittenByteReadsAsAFreshDraw : Prop :=
  ∀ (s : State) (a : BitVec 15), a.toNat < s.memSize.bytes → s.mem.lookup a.toNat = none →
    ∃ t, exec (.msgRd8 a) s = .next t ∧
      t = { s with readData := 0#24 ++ Config.freeByte s.draws, draws := s.draws + 1 } ∧
      exec (.msgRd8 a) t = .next
        { t with readData := 0#24 ++ Config.freeByte (s.draws + 1), draws := s.draws + 2 }

/-- R78 case 2, R73: a window access that is misaligned or past the end of the memory reads 0 and writes
nothing. -/
def Obligations.IneffectiveWindowAccessDoesNothing : Prop :=
  ∀ (s : State) (a : BitVec 15) (v : Word32),
    (s.memSize.bytes ≤ a.toNat →
      exec (.msgRd8 a) s = .next { s with readData := 0#32 } ∧ exec (.msgWr8 a v) s = .next s) ∧
    ((a.toNat % 2 ≠ 0 ∨ s.memSize.bytes ≤ a.toNat) →
      exec (.msgRd16 a) s = .next { s with readData := 0#32 } ∧ exec (.msgWr16 a v) s = .next s) ∧
    ((a.toNat % 4 ≠ 0 ∨ s.memSize.bytes ≤ a.toNat) →
      exec (.msgRd32 a) s = .next { s with readData := 0#32 } ∧ exec (.msgWr32 a v) s = .next s)

/-- R77, R79: an effective window write in an idle machine stores its bytes most significant first, uses
`data[8n-1:0]` only, and changes no other byte and no register. -/
def Obligations.WindowWriteStoresItsBytesOnly : Prop :=
  ∀ (s : State) (a : BitVec 15) (v : Word32), s.busy = false → a.toNat < s.memSize.bytes →
    (∃ m, exec (.msgWr8 a v) s = .next { s with mem := m } ∧
      ∀ b, m.lookup b = if b = a.toNat then some (v.extractLsb' 0 8) else s.mem.lookup b) ∧
    (a.toNat % 2 = 0 → ∃ m, exec (.msgWr16 a v) s = .next { s with mem := m } ∧
      ∀ b, m.lookup b =
        if b = a.toNat then some (v.extractLsb' 8 8)
        else if b = a.toNat + 1 then some (v.extractLsb' 0 8) else s.mem.lookup b) ∧
    (a.toNat % 4 = 0 → ∃ m, exec (.msgWr32 a v) s = .next { s with mem := m } ∧
      ∀ b, m.lookup b =
        if b = a.toNat then some (v.extractLsb' 24 8)
        else if b = a.toNat + 1 then some (v.extractLsb' 16 8)
        else if b = a.toNat + 2 then some (v.extractLsb' 8 8)
        else if b = a.toNat + 3 then some (v.extractLsb' 0 8) else s.mem.lookup b)

/-- R76, R77, R80: what a 4-byte write stores is what a later read of the word, of either half or of any of its
four bytes returns. -/
def Obligations.WindowReadReturnsWhatWasWritten : Prop :=
  ∀ (s : State) (a : BitVec 15) (v : Word32), s.busy = false → a.toNat % 4 = 0 →
    a.toNat < s.memSize.bytes →
    ∃ t, exec (.msgWr32 a v) s = .next t ∧
      exec (.msgRd32 a) t = .next { t with readData := v } ∧
      exec (.msgRd16 a) t = .next { t with readData := 0#16 ++ v.extractLsb' 16 16 } ∧
      exec (.msgRd16 (a + 2#15)) t = .next { t with readData := 0#16 ++ v.extractLsb' 0 16 } ∧
      exec (.msgRd8 a) t = .next { t with readData := 0#24 ++ v.extractLsb' 24 8 } ∧
      exec (.msgRd8 (a + 1#15)) t = .next { t with readData := 0#24 ++ v.extractLsb' 16 8 } ∧
      exec (.msgRd8 (a + 2#15)) t = .next { t with readData := 0#24 ++ v.extractLsb' 8 8 } ∧
      exec (.msgRd8 (a + 3#15)) t = .next { t with readData := 0#24 ++ v.extractLsb' 0 8 }

/-- The frame of a window write (R77): whatever its operands and the state, it changes no register, and every
byte outside the bytes it names reads as before. -/
def Obligations.WindowWriteFrame : Prop :=
  ∀ (s : State) (i : Instr) (a n : Nat), windowWriteOf i = some (a, n) →
    ∃ t, exec i s = .next t ∧ t = { s with mem := t.mem } ∧
      ∀ b, (b < a ∨ a + n ≤ b) → t.mem.lookup b = s.mem.lookup b

/-- R83, R365: a step changes the message memory only by an effective window write in an idle machine or by
reset; the engine never writes it. -/
def Obligations.OnlyWindowWritesAndResetChangeMemory : Prop :=
  ∀ s t : State, step s = .next t → t.mem ≠ s.mem →
    s.nextAction = .reset ∨
    (s.busy = false ∧ ∃ i a n, s.nextIs i ∧ windowWriteOf i = some (a, n) ∧ a % n = 0 ∧
      a < s.memSize.bytes)

/-! ### The engine -/

/-- R200, R260, R261: LOAD of a SHA-2 chunk writes the schedule's first sixteen words from the chunk's bytes
and every later one from the four words before it, at the descriptor's width. -/
def Obligations.LoadExpandsTheSha2Schedule : Prop :=
  ∀ (s : State) (D : Descriptor) (rot : RotTable), s.phase = .load → desc s.algL = some D →
    D.fam = .sha2 rot →
    ∃ t, engineStep s = .next t ∧
      (∀ i : Fin 80, i.val < 16 →
        t.W[i] = chunkWord D (chunkBytes s.mem D s.lenL.toNat s.j.toNat s.draws).1 i.val) ∧
      (∀ (i : Nat) (h : 16 ≤ i ∧ i < D.rounds) (hi : i < 80),
        t.W[i] = (smallSigma rot.small1 (t.W[i - 2].setWidth D.w) + t.W[i - 7].setWidth D.w +
          smallSigma rot.small0 (t.W[i - 15].setWidth D.w) + t.W[i - 16].setWidth D.w).setWidth 64)

/-- R200, R262: the same for SHA-1, whose later words are a rotated exclusive or (a rule the spec marks "from
general knowledge", log 15). -/
def Obligations.LoadExpandsTheSha1Schedule : Prop :=
  ∀ s : State, s.phase = .load → s.algL = 0x1#4 →
    ∃ t, engineStep s = .next t ∧
      (∀ i : Fin 80, i.val < 16 →
        t.W[i] = chunkWord descSha1 (chunkBytes s.mem descSha1 s.lenL.toNat s.j.toNat s.draws).1 i.val) ∧
      (∀ (i : Nat) (h : 16 ≤ i) (hi : i < 80),
        t.W[i] = (rotl ((t.W[i - 3] ^^^ t.W[i - 8] ^^^ t.W[i - 14] ^^^ t.W[i - 16]).setWidth 32) 1).setWidth 64)

/-- R200: LOAD's other effects and its frame: it seeds the working variables from the running state, clears `t`
and goes to ROUND; it leaves H, the latched operands, the memory and every host-visible register alone. -/
def Obligations.LoadSeedsTheWorkingVariables : Prop :=
  ∀ (s : State) (D : Descriptor), s.phase = .load → desc s.algL = some D →
    ∃ t, engineStep s = .next t ∧
      t = { s with W := t.W, V := t.V, t := 0#7, phase := .round, draws := t.draws } ∧
      ∀ i : Fin 8, t.V[i] = if i.val < D.nsw then s.H[i] else s.V[i]

/-- R201, R288, R289: a SHA-2 ROUND is one parallel update of the eight working variables at the descriptor's
width (the equations are marked "from general knowledge" by the spec, log 15); it counts `t` and goes to FOLD
after the last round; nothing else changes. -/
def Obligations.Sha2RoundUpdatesTheWorkingVariables : Prop :=
  ∀ (s : State) (D : Descriptor) (rot : RotTable) (ht : s.t.toNat < 80), s.phase = .round →
    desc s.algL = some D → D.fam = .sha2 rot → s.t.toNat < D.rounds →
    ∃ t, engineStep s = .next t ∧
      t = { s with V := t.V, t := s.t + 1#7,
                   phase := if s.t.toNat + 1 = D.rounds then .fold else .round } ∧
      (let v := fun (i : Fin 8) => s.V[i].setWidth D.w
       let t1 := v 7 + bigSigma rot.big1 (v 4) + ch (v 4) (v 5) (v 6) +
         (D.k.getD s.t.toNat 0#64).setWidth D.w + s.W[s.t.toNat].setWidth D.w
       let t2 := bigSigma rot.big0 (v 0) + maj (v 0) (v 1) (v 2)
       t.V[0] = (t1 + t2).setWidth 64 ∧ t.V[4] = (v 3 + t1).setWidth 64 ∧
       t.V[1] = (v 0).setWidth 64 ∧ t.V[2] = (v 1).setWidth 64 ∧ t.V[3] = (v 2).setWidth 64 ∧
       t.V[5] = (v 4).setWidth 64 ∧ t.V[6] = (v 5).setWidth 64 ∧ t.V[7] = (v 6).setWidth 64)

/-- R201, R290, R291: a SHA-1 ROUND, whose function depends on the phase of `t` (the equations are marked "from
general knowledge" by the spec, log 15); `V[5..7]` are neither read nor written. -/
def Obligations.Sha1RoundUpdatesTheWorkingVariables : Prop :=
  ∀ (s : State) (ht : s.t.toNat < 80), s.phase = .round → s.algL = 0x1#4 →
    ∃ t, engineStep s = .next t ∧
      t = { s with V := t.V, t := s.t + 1#7,
                   phase := if s.t.toNat + 1 = 80 then .fold else .round } ∧
      (let v := fun (i : Fin 8) => s.V[i].setWidth 32
       let f := if s.t.toNat < 20 then ch (v 1) (v 2) (v 3)
         else if 40 ≤ s.t.toNat ∧ s.t.toNat < 60 then maj (v 1) (v 2) (v 3)
         else parity (v 1) (v 2) (v 3)
       t.V[0] = (rotl (v 0) 5 + f + v 4 + (descSha1.k.getD s.t.toNat 0#64).setWidth 32 +
         s.W[s.t.toNat].setWidth 32).setWidth 64 ∧
       t.V[1] = (v 0).setWidth 64 ∧ t.V[2] = (rotl (v 1) 30).setWidth 64 ∧
       t.V[3] = (v 2).setWidth 64 ∧ t.V[4] = (v 3).setWidth 64 ∧
       t.V[5] = s.V[5] ∧ t.V[6] = s.V[6] ∧ t.V[7] = s.V[7])

/-- R202, R311: FOLD adds the working variables into the running state word by word modulo 2^w, counts the
chunk, and goes to OUTPUT after the last one; nothing else changes. -/
def Obligations.FoldAddsWordByWord : Prop :=
  ∀ (s : State) (D : Descriptor), s.phase = .fold → desc s.algL = some D →
    ∃ t, engineStep s = .next t ∧
      t = { s with H := t.H, chunks := s.chunks + 1#32, j := s.j + 1#32,
                   phase := if s.j + 1#32 = s.nch then .output else .load } ∧
      ∀ i : Fin 8, t.H[i].toNat =
        if i.val < D.nsw then (s.H[i].toNat + s.V[i].toNat) % 2 ^ D.w else s.H[i].toNat

/-- R203, R322: OUTPUT writes the big-endian words of the truncated state into DIGEST, zero from word `dl/32`
on, ends BUSY, sets DONE, and changes nothing else; `irq` then follows DONE_EN (R345). -/
def Obligations.OutputWritesTheDigestWords : Prop :=
  ∀ (s : State) (D : Descriptor), s.phase = .output → desc s.algL = some D → s.err = false →
    ∃ t, engineStep s = .next t ∧
      t = { s with digest := t.digest, busy := false, done := true, phase := .idle } ∧
      t.irq = s.doneEn ∧
      ∀ k : Fin 16, t.digest[k] =
        if D.dl / 32 ≤ k.val then 0#32
        else if D.w = 32 then s.H[k.val % 8].setWidth 32
        else if k.val % 2 = 0 then s.H[k.val / 2].extractLsb' 32 32
        else s.H[k.val / 2].extractLsb' 0 32

/-! ### Padding, digest and bit primitives -/

/-- R231, R232, R234, R238: the padded message byte by byte, for every length: the message, one 0x80, zeros, and the
bit count `8 * L` big-endian in the last `lel / 8` bytes; it has `(L + lel/8) / (cs/8) + 1` chunks exactly, and `z`
zero bytes with `z < cs / 8`. -/
def Obligations.PaddedMessageIsWholeChunks : Prop :=
  ∀ (a : BitVec 4) (D : Descriptor) (m : List Byte), desc a = some D →
    let cb := D.cs / 8
    let lb := D.lel / 8
    let T := ((m.length + lb) / cb + 1) * cb
    numChunks D m.length = (m.length + lb) / cb + 1 ∧
    (padMessage D m).length = T ∧
    m.length + 1 + zeroCount D m.length + lb = T ∧ zeroCount D m.length < cb ∧
    ∀ p, p < T → (padMessage D m)[p]? = some
      (if h : p < m.length then m[p]
       else if p = m.length then 0x80#8
       else if p < T - lb then 0x00#8
       else BitVec.ofNat 8 (8 * m.length / 2 ^ (8 * (T - 1 - p))))

/-- R233, R237: the bytes the controller generates in LOAD, byte by byte and for any memory: a written message
byte, 0x80 at position `L`, the big-endian bit count in the last `lel / 8` bytes, and zeros between; so they are the
chunk of the padded message, and written bytes are read with no draw. -/
def Obligations.ChunkBytesAreThePaddedMessage : Prop :=
  ∀ (a : BitVec 4) (D : Descriptor) (mem : Memory) (L j d : Nat), desc a = some D →
    let cb := D.cs / 8
    let lb := D.lel / 8
    let T := ((L + lb) / cb + 1) * cb
    j < (L + lb) / cb + 1 →
    let B := (chunkBytes mem D L j d).1
    B.length = cb ∧
    (∀ i, i < cb →
      let p := j * cb + i
      (p < L → ∀ v, mem.lookup p = some v → B[i]? = some v) ∧
      (p = L → B[i]? = some 0x80#8) ∧
      (L < p → p < T - lb → B[i]? = some 0x00#8) ∧
      (T - lb ≤ p → B[i]? = some (BitVec.ofNat 8 (8 * L / 2 ^ (8 * (T - 1 - p)))))) ∧
    ∀ m : List Byte, m.length = L → mem.Holds m →
      chunkBytes mem D L j d = (((padMessage D m).drop (j * cb)).take cb, d)

/-- R236: the sixteen message words of a chunk are its bytes, big-endian: four to a word at `w = 32`, eight at
`w = 64`. -/
def Obligations.MessageWordsAreBigEndian : Prop :=
  ∀ (a : BitVec 4) (D : Descriptor) (B : List Byte), desc a = some D → B.length = D.cs / 8 →
    let b := fun k => (B.getD k 0x00#8).toNat
    (chunkWords D B).length = 16 ∧
    ∀ i, i < 16 →
      (chunkWords D B)[i]? = some (chunkWord D B i) ∧
      (D.w = 32 → (chunkWord D B i).toNat =
        b (4 * i) * 2 ^ 24 + b (4 * i + 1) * 2 ^ 16 + b (4 * i + 2) * 2 ^ 8 + b (4 * i + 3)) ∧
      (D.w = 64 → (chunkWord D B i).toNat =
        b (8 * i) * 2 ^ 56 + b (8 * i + 1) * 2 ^ 48 + b (8 * i + 2) * 2 ^ 40 + b (8 * i + 3) * 2 ^ 32 +
        b (8 * i + 4) * 2 ^ 24 + b (8 * i + 5) * 2 ^ 16 + b (8 * i + 6) * 2 ^ 8 + b (8 * i + 7))

/-- R325: the digest has `dl/8` bytes for every message, and its rendering `dl/4` characters (R326). -/
def Obligations.DigestHasAFixedLength : Prop :=
  ∀ (a : BitVec 4) (D : Descriptor) (m : List Byte) (r : Vector Word32 16), desc a = some D →
    (hashBytes D m).length = D.dl / 8 ∧ (hexDigest D r).length = D.dl / 4

/-- R161, R162, R171: rotating right undoes rotating left, at every width and for every amount, reduced or
not. -/
def Obligations.RotationsAreInverse : Prop :=
  ∀ (n : Nat) (x : BitVec n) (k : Nat),
    rotr (rotl x k) k = x ∧ rotr x (k + n) = rotr x k ∧ rotl x (k + n) = rotl x k

/-- R164 to R168, R171: `byte_swap` at its four widths; `pack` of four bytes, of two words and of eight bytes puts
the first argument highest, `unpack` gives the arguments back and packing them again gives the word; reversing
twice is the identity; and the keep functions at 0 and at the full width. `packBytes`, which the model uses for
the bus lanes, is `pack` of the same bytes. -/
def Obligations.PackingAndKeepingLaws : Prop :=
  (∀ b0 : Byte, byteSwap b0 = b0) ∧
  (∀ b0 b1 : Byte, unpack (b0 ++ b1) = [b0, b1] ∧ byteSwap (b0 ++ b1) = b1 ++ b0) ∧
  (∀ b0 b1 b2 b3 : Byte,
    (pack4 b0 b1 b2 b3).toNat = b0.toNat * 2 ^ 24 + b1.toNat * 2 ^ 16 + b2.toNat * 2 ^ 8 + b3.toNat ∧
    unpack (pack4 b0 b1 b2 b3) = [b0, b1, b2, b3] ∧ packBytes 32 [b0, b1, b2, b3] = pack4 b0 b1 b2 b3 ∧
    byteSwap (pack4 b0 b1 b2 b3) = pack4 b3 b2 b1 b0) ∧
  (∀ w0 w1 : Word32, (pack2 w0 w1).toNat = w0.toNat * 2 ^ 32 + w1.toNat) ∧
  (∀ b0 b1 b2 b3 b4 b5 b6 b7 : Byte,
    pack8 b0 b1 b2 b3 b4 b5 b6 b7 = pack2 (pack4 b0 b1 b2 b3) (pack4 b4 b5 b6 b7) ∧
    unpack (pack8 b0 b1 b2 b3 b4 b5 b6 b7) = [b0, b1, b2, b3, b4, b5, b6, b7] ∧
    packBytes 64 [b0, b1, b2, b3, b4, b5, b6, b7] = pack8 b0 b1 b2 b3 b4 b5 b6 b7 ∧
    byteSwap (pack8 b0 b1 b2 b3 b4 b5 b6 b7) = pack8 b7 b6 b5 b4 b3 b2 b1 b0) ∧
  (∀ x : BitVec 32, ∃ b0 b1 b2 b3, unpack x = [b0, b1, b2, b3] ∧ pack4 b0 b1 b2 b3 = x) ∧
  (∀ x : BitVec 64, ∃ b0 b1 b2 b3 b4 b5 b6 b7,
    unpack x = [b0, b1, b2, b3, b4, b5, b6, b7] ∧ pack8 b0 b1 b2 b3 b4 b5 b6 b7 = x) ∧
  (∀ x : BitVec 8, byteSwap (byteSwap x) = x) ∧ (∀ x : BitVec 16, byteSwap (byteSwap x) = x) ∧
  (∀ x : BitVec 32, byteSwap (byteSwap x) = x) ∧ (∀ x : BitVec 64, byteSwap (byteSwap x) = x) ∧
  (∀ (n : Nat) (x : BitVec n), keepLeft x 0 = 0#n ∧ keepLeft x n = x ∧ keepRight x 0 = 0#n ∧
    keepRight x n = x)

/-- R160, R167 to R169, U5: a bit primitive called outside its stated domain is refused. -/
def Obligations.BitPrimitivesRefuseOutsideTheirDomain : Prop :=
  ∀ (n : Nat) (x : BitVec n) (k : Nat),
    (n < k → (BitCall.keepLeftN n x k).run = none ∧ (BitCall.keepRightN n x k).run = none) ∧
    (n ≤ k → (BitCall.setNthBit n x k).run = none) ∧
    (n ≠ 8 → n ≠ 16 → n ≠ 32 → n ≠ 64 → (BitCall.rotr n x k).run = none ∧
      (BitCall.rotl n x k).run = none ∧ (BitCall.shr n x k).run = none ∧
      (BitCall.byteSwap n x).run = none ∧ (BitCall.unpack n x).run = none ∧
      (BitCall.keepLeftN n x k).run = none ∧ (BitCall.keepRightN n x k).run = none ∧
      (BitCall.setNthBit n x k).run = none ∧ (BitCall.toHex n x).run = none)

/-! ### Whole-machine rules -/

/-- R345: `irq` is the OR of the two enabled sources, read off STATUS and IRQ_EN as the host reads them. -/
def Obligations.IrqFollowsStatusAndEnables : Prop :=
  ∀ s : State, s.irq =
    (((s.readReg .status).getLsbD 1 && (s.readReg .irqEn).getLsbD 0) ||
      ((s.readReg .status).getLsbD 2 && (s.readReg .irqEn).getLsbD 1))

/-- R35: BUSY rises only by an accepted HASH, and falls only by the OUTPUT step and by reset. -/
def Obligations.BusyChangesOnlyByHashOutputReset : Prop :=
  ∀ s t : State, step s = .next t →
    (s.busy = false → t.busy = true → s.nextIs .hash ∧ 1 ≤ s.alg.toNat ∧ s.alg.toNat ≤ 7 ∧
      s.msgLen.toNat ≤ s.memSize.bytes) ∧
    (s.busy = true → t.busy = false →
      s.nextAction = .reset ∨ (s.nextAction = .engine ∧ s.phase = .output))

/-- R36: DONE rises only by the OUTPUT step, and falls exactly by a HASH, a reserved command or CLEAR written
while idle, and by reset; NOP leaves it unchanged. -/
def Obligations.DoneChangesOnlyAsStated : Prop :=
  ∀ s t : State, step s = .next t →
    (s.done = false → t.done = true → s.nextAction = .engine ∧ s.phase = .output) ∧
    (s.done = true → t.done = false → s.nextAction = .reset ∨
      (s.busy = false ∧ (s.nextIs .hash ∨ s.nextIs .clear ∨ ∃ op, s.nextIs (.cmdReserved op)))) ∧
    (s.busy = false → (s.nextIs .hash ∨ s.nextIs .clear ∨ ∃ op, s.nextIs (.cmdReserved op)) →
      t.done = false) ∧
    (s.nextAction = .reset → t.done = false) ∧
    (s.nextIs .nop → t.done = s.done)

/-- R37: ERR rises only by a rejected command, with a code of R340; it falls by a HASH written while idle
(before its checks, so that an accepted one leaves it 0), by CLEAR and by reset, and by nothing else; a reserved
command clears DONE and sets ERR. -/
def Obligations.ErrChangesOnlyAsStated : Prop :=
  ∀ s t : State, step s = .next t →
    (s.err = false → t.err = true → s.busy = false ∧ 1 ≤ t.errCode.toNat ∧ t.errCode.toNat ≤ 4 ∧
      (s.nextIs .hash ∨ ∃ op, s.nextIs (.cmdReserved op))) ∧
    (s.err = true → t.err = false → s.nextAction = .reset ∨
      (s.busy = false ∧ (s.nextIs .hash ∨ s.nextIs .clear))) ∧
    (s.busy = false → s.nextIs .hash → (t.err = false ↔ t.busy = true)) ∧
    (s.busy = false → s.nextIs .clear → t.err = false) ∧
    (s.nextAction = .reset → t.err = false) ∧
    (s.busy = false → (∃ op, s.nextIs (.cmdReserved op)) → t.done = false ∧ t.err = true)

/-- R43: only the OUTPUT step, an accepted HASH, CLEAR and reset change DIGEST, and the last three set all sixteen
words to 0. -/
def Obligations.DigestChangesOnlyAsStated : Prop :=
  ∀ s t : State, step s = .next t →
    (t.digest ≠ s.digest →
      s.nextAction = .reset ∨ (s.nextAction = .engine ∧ s.phase = .output) ∨
      (s.busy = false ∧ ((s.nextIs .hash ∧ t.busy = true) ∨ s.nextIs .clear))) ∧
    ((s.nextAction = .reset ∨
      (s.busy = false ∧ ((s.nextIs .hash ∧ t.busy = true) ∨ s.nextIs .clear))) →
      ∀ k : Fin 16, t.digest[k] = 0#32)

/-- R52: `alg_l`, `len_l` and `nch` change only by an accepted HASH and by reset. -/
def Obligations.LatchesChangeOnlyAtAcceptance : Prop :=
  ∀ s t : State, step s = .next t →
    (t.algL ≠ s.algL ∨ t.lenL ≠ s.lenL ∨ t.nch ≠ s.nch) →
    s.nextAction = .reset ∨ (s.busy = false ∧ s.nextIs .hash ∧ t.busy = true)

/-- R39, R40, R32, R383: CTRL, MSG_LEN and IRQ_EN change only through host writes and reset, and all but IRQ_EN
only while idle; MEMSIZE never changes (R42). -/
def Obligations.ConfigurationChangesOnlyByHostWrites : Prop :=
  ∀ s t : State, step s = .next t →
    t.memSize = s.memSize ∧
    ((t.alg ≠ s.alg ∨ t.msgLenLo ≠ s.msgLenLo ∨ t.msgLenHi ≠ s.msgLenHi) →
      s.nextAction = .reset ∨ (s.busy = false ∧ ∃ i, s.nextIs i ∧ isRead i = false)) ∧
    ((t.doneEn ≠ s.doneEn ∨ t.errEn ≠ s.errEn) →
      s.nextAction = .reset ∨ ∃ v, s.nextIs (.regWr 0x0018#15 v))

/-- The invariant of R61, R52, R53, R323 and R392 holds after reset. -/
def Obligations.ResetMeetsTheInvariant : Prop := MachineInv State.reset

/-- Every step keeps the invariant: R61 and what R52, R53, R323, R340 and R392 add to it, with the canonical form
of the memory. -/
def Obligations.StepKeepsTheInvariant : Prop :=
  ∀ s t : State, MachineInv s → step s = .next t → MachineInv t

/-- From a state that meets the invariant no step faults, and the only refusal is that of a word that spells no
transaction: no host operation and no engine step is ever without effect in the model (R344, R196). -/
def Obligations.NoFaultFromTheInvariant : Prop :=
  ∀ s : State, MachineInv s →
    (∃ t, step s = .next t) ∨
    (∃ w, s.nextAction = .host w ∧ step s = .refused (.notATraceWord w) ∧
      ∀ i : Instr, decode w ≠ .instr i)

/-- R312, R85, R205: whatever the host does in between, every step but a reset keeps a running HASH on the
source's algorithm, or completes it with the digest of the message in DIGEST. -/
def Obligations.StepKeepsTheHashOnTheAlgorithm : Prop :=
  ∀ (s t : State) (D : Descriptor) (m : List Byte), MachineInv s → Hashing D m s → s.nextAction ≠ .reset →
    step s = .next t → Hashing D m t ∨ HashDone D m t

/-- R205, R206: an accepted HASH takes `N_D(L) * (R + 2) + 1` engine steps and leaves `HashBytes(D, m)` in DIGEST,
`N_D(L)` in CHUNKS and 0x00000002 in STATUS, `m` being the message bytes as they stood at acceptance, an
unwritten one standing as the value LOAD drew for it; it is still busy after any smaller number of steps. -/
def Obligations.AcceptedHashDeliversHashBytes : Prop :=
  ∀ (s u : State) (D : Descriptor), MachineInv s → s.busy = false → desc s.alg = some D →
    s.msgLen.toNat ≤ s.memSize.bytes → exec .hash s = .next u →
    let m := (s.mem.readBytes s.draws 0 s.msgLen.toNat).1
    let n := numChunks D s.msgLen.toNat * (D.rounds + 2) + 1
    (∃ t, engineRun n u = .next t ∧ HashDone D m t ∧ t.mem = s.mem) ∧
    ∀ k < n, ∃ t, engineRun k u = .next t ∧ t.busy = true

/-! ### Host programs -/

/-- R109, R104: the trace words of every line but a `poll` and `wait`: the commands, `setalg`, `setlen` (LO, then HI),
`start` in its order, the reads and writes of R108, and a `msg` of at most 32768 bytes, the most that 16-bit
offsets reach (a longer one has none, log 24). -/
def Obligations.HostLinesHaveTheirTabledWords : Prop :=
  (∀ seen : List Word32,
    HostOp.nop.words seen = some [0x8200000800000000#64] ∧
    HostOp.hash.words seen = some [0x8200000800000001#64] ∧
    HostOp.clear.words seen = some [0x8200000800000002#64]) ∧
  (∀ (seen : List Word32) (a : Word32) (len : Word64),
    (HostOp.setalg a).words seen = some [0x82000004#32 ++ a] ∧
    (HostOp.setlen len).words seen =
      some [0x82000010#32 ++ len.extractLsb' 0 32, 0x82000014#32 ++ len.extractLsb' 32 32] ∧
    (HostOp.start a len).words seen =
      some [0x82000004#32 ++ a, 0x82000010#32 ++ len.extractLsb' 0 32,
        0x82000014#32 ++ len.extractLsb' 32 32, 0x8200000800000001#64]) ∧
  (∀ (seen : List Word32) (off : BitVec 16) (v : Word32),
    (HostOp.rd .one off).words seen = some [0x0000#16 ++ off ++ 0#32] ∧
    (HostOp.rd .two off).words seen = some [0x0100#16 ++ off ++ 0#32] ∧
    (HostOp.rd .four off).words seen = some [0x0200#16 ++ off ++ 0#32] ∧
    (HostOp.wr .four off v).words seen = some [0x8200#16 ++ off ++ v] ∧
    (v.toNat < 2 ^ 16 → (HostOp.wr .two off v).words seen = some [0x8100#16 ++ off ++ v]) ∧
    (v.toNat < 2 ^ 8 → (HostOp.wr .one off v).words seen = some [0x8000#16 ++ off ++ v])) ∧
  ∀ (seen : List Word32) (b : List Byte),
    let at' := fun k => b.getD k 0x00#8
    let q := b.length / 4
    (b.length ≤ 32768 → (HostOp.msg b).words seen = some
      ((List.range q).map (fun i => 0x8200#16 ++ BitVec.ofNat 16 (0x8000 + 4 * i) ++
          (at' (4 * i) ++ at' (4 * i + 1) ++ at' (4 * i + 2) ++ at' (4 * i + 3))) ++
        (List.range (b.length % 4)).map (fun r => 0x8000#16 ++ BitVec.ofNat 16 (0x8000 + 4 * q + r) ++
          (0#24 ++ at' (4 * q + r))))) ∧
    (32768 < b.length → (HostOp.msg b).words seen = none)

/-- R109: `poll` repeats its `rd32` until `(value & M) = V`. Each value is what `rd32 OFF` returns in the state its
turns lead to (`ReadsReturn`); every value before the last fails the condition, and the last one meets it and is the
last one read; a poll still waiting has used every turn and has met it never; and from a state of the invariant a
poll has ended or is waiting. `wait` is `poll STATUS, 0x1, 0x0`. The turns of the engine between the reads are the
model's form (log 21). -/
def Obligations.PollReadsUntilItsConditionHolds : Prop :=
  (∀ (off : BitVec 16) (mask val : Word32) (turns : List Nat) (s : State),
    (∀ t rest seen, (HostOp.poll off mask val).run turns s = .finished t rest seen →
      ∃ used earlier, turns = used ++ rest ∧ ReadsReturn off used s seen t ∧
        seen = earlier ++ [t.readData] ∧ (t.readData &&& mask) = val ∧
        (∀ v ∈ earlier, (v &&& mask) ≠ val) ∧
        (HostOp.poll off mask val).words seen =
          some (List.replicate seen.length (0x0200#16 ++ off ++ 0#32))) ∧
    (∀ t seen, (HostOp.poll off mask val).run turns s = .waiting t seen →
      ReadsReturn off turns s seen t ∧ ∀ v ∈ seen, (v &&& mask) ≠ val) ∧
    (MachineInv s →
      (∃ t rest seen, (HostOp.poll off mask val).run turns s = .finished t rest seen) ∨
      ∃ t seen, (HostOp.poll off mask val).run turns s = .waiting t seen)) ∧
  ∀ (turns : List Nat) (s : State),
    HostOp.wait.run turns s = (HostOp.poll 0x000C#16 0x1#32 0x0#32).run turns s

/-- R109: `msg` writes exactly its bytes, from byte 0 of an idle machine's memory on, leaves every other byte as it
was and changes no register, in the words and bytes of its expansion and whatever turns come between. -/
def Obligations.MsgWritesItsBytesOnly : Prop :=
  ∀ (s : State) (b : List Byte) (turns : List Nat), s.busy = false → s.phase = .idle →
    b.length ≤ s.memSize.bytes → b.length / 4 + b.length % 4 ≤ turns.length →
    ∃ m, (HostOp.msg b).run turns s =
        .finished { s with mem := m } (turns.drop (b.length / 4 + b.length % 4)) [] ∧
      ∀ a, m.lookup a = if h : a < b.length then some b[a] else s.mem.lookup a

/-- R391, R395, R109: after an accepted HASH, `wait` reads BUSY = 1 until the engine has had
`N_D(L) * (R + 2) + 1` turns, and then STATUS = 0x00000002 once, with the digest of the message in DIGEST; with
fewer turns it is still waiting. The turns between the reads are the model's form (log 21); the order of the
draws for unwritten bytes is log 20. -/
def Obligations.WaitEndsWithTheDigest : Prop :=
  ∀ (s u : State) (D : Descriptor) (turns : List Nat), MachineInv s → s.busy = false →
    desc s.alg = some D → s.msgLen.toNat ≤ s.memSize.bytes → exec .hash s = .next u →
    let m := (s.mem.readBytes s.draws 0 s.msgLen.toNat).1
    let n := numChunks D s.msgLen.toNat * (D.rounds + 2) + 1
    (turns.sum < n → ∃ t, t.busy = true ∧
      HostOp.wait.run turns u = .waiting t (List.replicate turns.length 0x00000001#32)) ∧
    (n ≤ turns.sum → ∃ t rest k, HashDone D m t ∧ t.mem = s.mem ∧
      turns.length = k + 1 + rest.length ∧
      HostOp.wait.run turns u =
        .finished t rest (List.replicate k 0x00000001#32 ++ [0x00000002#32]))

/-- R110: run from an idle state of the invariant, the program of `hashStrg` returns the digest of its input: its
reads are STATUS with BUSY = 1 any number of times, STATUS = 0x00000002 once, and the words of the digest; and it
ends when each of its transactions has the turns of a HASH before it. The turns are the model's form (log 21). -/
def Obligations.HashStrgProgramReturnsTheDigest : Prop :=
  ∀ (s : State) (a : BitVec 4) (D : Descriptor) (input : List Byte) (turns : List Nat),
    MachineInv s → s.busy = false → desc a = some D → input.length ≤ s.memSize.bytes →
    let words := input.length / 4 + input.length % 4 + 4 + 1 + D.dl / 32
    (∀ t rest seen, programRun (hashStrgProgram a D input) turns s = .finished t rest seen →
      ∃ k, seen = List.replicate k 0x00000001#32 ++ [0x00000002#32] ++
        (List.range (D.dl / 32)).map (packDigest D (hashBytes D input))) ∧
    (words ≤ turns.length → (∀ n ∈ turns, numChunks D input.length * (D.rounds + 2) + 1 ≤ n) →
      ∃ t rest seen, programRun (hashStrgProgram a D input) turns s = .finished t rest seen)
end

