-- ==== Sys2Proof/Laws/Decode.lean ====
section
/-! SUPPORT. The fields of a trace word (spec 30_encoding.md R104) and of a word written to CTRL (R102):
each field of an assembled word, and a word from its fields. -/

namespace Sys2Proof

section
variable (dir : BitVec 1) (size : BitVec 2) (window : BitVec 1) (off : BitVec 15) (data : BitVec 32)

/-- A bit of an assembled trace word (R104). -/
theorem traceWord_getLsbD (k : Nat) :
    (traceWord dir size window off data).getLsbD k =
      if k < 32 then data.getLsbD k
      else if k < 47 then off.getLsbD (k - 32)
      else if k < 48 then window.getLsbD (k - 47)
      else if k < 56 then false
      else if k < 58 then size.getLsbD (k - 56)
      else if k < 63 then false
      else dir.getLsbD (k - 63) := by
  unfold traceWord
  simp only [BitVec.getLsbD_append, BitVec.getLsbD_zero]
  repeat' split
  all_goals first
    | rfl
    | (exfalso; omega)

@[simp] theorem dirField_traceWord : dirField (traceWord dir size window off data) = dir := by
  unfold dirField
  apply BitVec.eq_of_getLsbD_eq
  intro i hi
  simp only [BitVec.getLsbD_extractLsb', traceWord_getLsbD]
  rw [if_neg (by omega), if_neg (by omega), if_neg (by omega), if_neg (by omega), if_neg (by omega),
    if_neg (by omega), Nat.add_sub_cancel_left, decide_eq_true hi, Bool.true_and]

@[simp] theorem reservedHigh_traceWord : reservedHigh (traceWord dir size window off data) = 0#5 := by
  unfold reservedHigh
  apply BitVec.eq_of_getLsbD_eq
  intro i hi
  simp only [BitVec.getLsbD_extractLsb', traceWord_getLsbD, BitVec.getLsbD_zero]
  rw [if_neg (by omega), if_neg (by omega), if_neg (by omega), if_neg (by omega), if_neg (by omega),
    if_pos (by omega), Bool.and_false]

@[simp] theorem sizeField_traceWord : sizeField (traceWord dir size window off data) = size := by
  unfold sizeField
  apply BitVec.eq_of_getLsbD_eq
  intro i hi
  simp only [BitVec.getLsbD_extractLsb', traceWord_getLsbD]
  rw [if_neg (by omega), if_neg (by omega), if_neg (by omega), if_neg (by omega), if_pos (by omega),
    Nat.add_sub_cancel_left, decide_eq_true hi, Bool.true_and]

@[simp] theorem reservedLow_traceWord : reservedLow (traceWord dir size window off data) = 0#8 := by
  unfold reservedLow
  apply BitVec.eq_of_getLsbD_eq
  intro i hi
  simp only [BitVec.getLsbD_extractLsb', traceWord_getLsbD, BitVec.getLsbD_zero]
  rw [if_neg (by omega), if_neg (by omega), if_neg (by omega), if_pos (by omega), Bool.and_false]

@[simp] theorem windowField_traceWord : windowField (traceWord dir size window off data) = window := by
  unfold windowField
  apply BitVec.eq_of_getLsbD_eq
  intro i hi
  simp only [BitVec.getLsbD_extractLsb', traceWord_getLsbD]
  rw [if_neg (by omega), if_neg (by omega), if_pos (by omega), Nat.add_sub_cancel_left,
    decide_eq_true hi, Bool.true_and]

@[simp] theorem offsetField_traceWord : offsetField (traceWord dir size window off data) = off := by
  unfold offsetField
  apply BitVec.eq_of_getLsbD_eq
  intro i hi
  simp only [BitVec.getLsbD_extractLsb', traceWord_getLsbD]
  rw [if_neg (by omega), if_pos (by omega), Nat.add_sub_cancel_left, decide_eq_true hi, Bool.true_and]

@[simp] theorem dataField_traceWord : dataField (traceWord dir size window off data) = data := by
  unfold dataField
  apply BitVec.eq_of_getLsbD_eq
  intro i hi
  simp only [BitVec.getLsbD_extractLsb', traceWord_getLsbD]
  rw [if_pos (by omega), Nat.zero_add, decide_eq_true hi, Bool.true_and]

end

/-- A word with its reserved bits zero is its fields put together (R104). -/
theorem traceWord_of_fields {w : Word64} (hh : reservedHigh w = 0#5) (hl : reservedLow w = 0#8) :
    traceWord (dirField w) (sizeField w) (windowField w) (offsetField w) (dataField w) = w := by
  apply BitVec.eq_of_getLsbD_eq
  intro k hk
  have h1 : ∀ i < 5, w.getLsbD (58 + i) = false := fun i hi => by
    have := congrArg (fun x => x.getLsbD i) hh
    simpa [reservedHigh, hi] using this
  have h2 : ∀ i < 8, w.getLsbD (48 + i) = false := fun i hi => by
    have := congrArg (fun x => x.getLsbD i) hl
    simpa [reservedLow, hi] using this
  rw [traceWord_getLsbD]
  simp only [dirField, sizeField, windowField, offsetField, dataField, BitVec.getLsbD_extractLsb']
  repeat' split
  · rw [Nat.zero_add, decide_eq_true (by omega), Bool.true_and]
  · rw [show 32 + (k - 32) = k by omega, decide_eq_true (by omega), Bool.true_and]
  · rw [show 47 + (k - 47) = k by omega, decide_eq_true (by omega), Bool.true_and]
  · have := h2 (k - 48) (by omega)
    rw [show 48 + (k - 48) = k by omega] at this
    exact this.symm
  · rw [show 56 + (k - 56) = k by omega, decide_eq_true (by omega), Bool.true_and]
  · have := h1 (k - 58) (by omega)
    rw [show 58 + (k - 58) = k by omega] at this
    exact this.symm
  · rw [show 63 + (k - 63) = k by omega, decide_eq_true (by omega), Bool.true_and]

/-- A word written to CTRL is its reserved part and its ALG code (R102). -/
theorem ctrl_of_fields (v : BitVec 32) : v.extractLsb' 4 28 ++ v.extractLsb' 0 4 = v := by
  apply BitVec.eq_of_getLsbD_eq
  intro k hk
  simp only [BitVec.getLsbD_append, BitVec.getLsbD_extractLsb']
  split
  · rw [Nat.zero_add, decide_eq_true (by omega), Bool.true_and]
  · rw [show 4 + (k - 4) = k by omega, decide_eq_true (by omega), Bool.true_and]

theorem algField_append (rsv : BitVec 28) (a : BitVec 4) : (rsv ++ a).extractLsb' 0 4 = a := by
  apply BitVec.eq_of_getLsbD_eq
  intro k hk
  simp only [BitVec.getLsbD_append, BitVec.getLsbD_extractLsb']
  rw [Nat.zero_add, if_pos hk, decide_eq_true hk, Bool.true_and]

theorem rsvField_append (rsv : BitVec 28) (a : BitVec 4) : (rsv ++ a).extractLsb' 4 28 = rsv := by
  apply BitVec.eq_of_getLsbD_eq
  intro k hk
  simp only [BitVec.getLsbD_append, BitVec.getLsbD_extractLsb']
  rw [if_neg (by omega), Nat.add_sub_cancel_left, decide_eq_true hk, Bool.true_and]

/-- The low three bits of a word are those of its ALG code. -/
theorem low3_of_alg (v : BitVec 32) : v.extractLsb' 0 3 = (v.extractLsb' 0 4).extractLsb' 0 3 := by
  apply BitVec.eq_of_getLsbD_eq
  intro k hk
  simp only [BitVec.getLsbD_extractLsb']
  rw [Nat.zero_add, Nat.zero_add, decide_eq_true hk, decide_eq_true (by omega : k < 4), Bool.true_and,
    Bool.true_and]

/-- An ALG code from 8 on has its top bit set (R103). -/
theorem alg_high (x : BitVec 4) (h : 8 ≤ x.toNat) : 1#1 ++ x.extractLsb' 0 3 = x := by
  revert x
  decide

/-! ### The decoder gives well-formed operations only -/

theorem decodeCmd_wf (v : BitVec 32) : (decodeCmd v).wf = true := by
  unfold decodeCmd
  repeat' split
  all_goals simp [Instr.wf, *]

theorem decodeCtrl_wf (v : BitVec 32) : (decodeCtrl v).wf = true := by
  unfold decodeCtrl
  simp only
  repeat' split
  all_goals rfl

theorem decodeRegister_wf (dir : BitVec 1) (size : BitVec 2) (off : BitVec 15) (data : BitVec 32) :
    (decodeRegister dir size off data).wf = true := by
  unfold decodeRegister decodeRegWrite
  simp only
  by_cases hs : size = 2#2 <;> by_cases hd : dir = 1#1 <;> simp only [hs, hd, if_true, if_false]
  · by_cases h1 : off = Machine.cmdOffset
    · rw [if_pos h1]; exact decodeCmd_wf data
    · rw [if_neg h1]
      by_cases h2 : off = Machine.ctrlOffset
      · rw [if_pos h2]; exact decodeCtrl_wf data
      · rw [if_neg h2]; simp [Instr.wf, h1, h2]
  all_goals rfl

theorem decodeWindow_wf (dir : BitVec 1) (size : BitVec 2) (a : BitVec 15) (data : BitVec 32) :
    (decodeWindow dir size a data).wf = true := by
  unfold decodeWindow
  repeat' split
  all_goals rfl

theorem decode_wf {w : Word64} {i : Instr} (h : decode w = .instr i) : i.wf = true := by
  unfold decode at h
  split at h
  · cases h
  · split at h
    · cases h
    · split at h <;> cases h
      · exact decodeWindow_wf ..
      · exact decodeRegister_wf ..

theorem bit_cases (x : BitVec 1) : x = 0#1 ∨ x = 1#1 := by
  revert x
  decide

theorem size_cases (x : BitVec 2) (h : x ≠ 3#2) : x = 0#2 ∨ x = 1#2 ∨ x = 2#2 := by
  revert x
  decide

end Sys2Proof
end

