-- ==== Sys2Proof/Laws/Rom.lean ====
section
/-! SUPPORT. What every descriptor of the ROM has (spec 40_descriptors.md R131 to R139): later proofs split
on the two shapes, not on the seven descriptors. -/

namespace Sys2Proof.Machine

/-- The numbers all seven descriptors agree on or come in two kinds of (R131). -/
structure Descriptor.Shaped (D : Descriptor) : Prop where
  width : (D.w = 32 ∧ D.cb = 64 ∧ D.lb = 8) ∨ (D.w = 64 ∧ D.cb = 128 ∧ D.lb = 16)
  words : D.nsw = 5 ∨ D.nsw = 8
  rounds : D.rounds = 64 ∨ D.rounds = 80
  digestWords : D.dl % 32 = 0 ∧ D.dl ≤ D.nsw * D.w ∧ D.dl ≤ 512
  ivLength : D.iv.length = D.nsw
  kLength : D.k.length = D.rounds
  ivFits : ∀ x ∈ D.iv, x.toNat < 2 ^ D.w

/-- The seven descriptors. -/
theorem desc_cases {a : BitVec 4} {D : Descriptor} (h : desc a = some D) :
    D = descSha1 ∨ D = descSha224 ∨ D = descSha256 ∨ D = descSha384 ∨ D = descSha512 ∨
      D = descSha512_224 ∨ D = descSha512_256 := by
  unfold desc at h
  repeat' split at h
  all_goals first
    | (cases h; simp)
    | cases h

theorem kSha1_length : kSha1.length = 80 := by simp [kSha1]

theorem kSha256_length : kSha256.length = 64 := by simp [kSha256]

theorem kSha512_length : kSha512.length = 80 := by simp [kSha512]

/-- The words of an initial vector fit the word width (R53). -/
theorem desc_ivFits {a : BitVec 4} {D : Descriptor} (h : desc a = some D) :
    ∀ x ∈ D.iv, x.toNat < 2 ^ D.w := by
  rcases desc_cases h with rfl | rfl | rfl | rfl | rfl | rfl | rfl <;>
    simp [descSha1, descSha224, descSha256, descSha384, descSha512, descSha512_224, descSha512_256,
      ivSha1, ivSha224, ivSha256, ivSha384, ivSha512, ivSha512_224, ivSha512_256]

/-- As many round constants as rounds (R131). -/
theorem desc_kLength {a : BitVec 4} {D : Descriptor} (h : desc a = some D) :
    D.k.length = D.rounds := by
  rcases desc_cases h with rfl | rfl | rfl | rfl | rfl | rfl | rfl
  · exact kSha1_length
  · exact kSha256_length
  · exact kSha256_length
  · exact kSha512_length
  · exact kSha512_length
  · exact kSha512_length
  · exact kSha512_length

theorem desc_shaped {a : BitVec 4} {D : Descriptor} (h : desc a = some D) : D.Shaped := by
  have hiv := desc_ivFits h
  have hk := desc_kLength h
  rcases desc_cases h with rfl | rfl | rfl | rfl | rfl | rfl | rfl <;>
    exact ⟨by decide, by decide, by decide, by decide, by decide, hk, hiv⟩

/-- `Desc(a)` is defined for the codes 1 to 7 only (R131). -/
theorem desc_isSome_iff (a : BitVec 4) : (desc a).isSome ↔ 1 ≤ a.toNat ∧ a.toNat ≤ 7 := by
  revert a
  decide

theorem Descriptor.Shaped.cb_pos {D : Descriptor} (h : D.Shaped) : 0 < D.cb := by
  rcases h.width with ⟨-, h, -⟩ | ⟨-, h, -⟩ <;> omega

end Sys2Proof.Machine
end

