-- ==== Sys2Proof/Laws/Digest.lean ====
section
/-! SUPPORT. The serialised state byte by byte (spec 46_accumulator_digest.md R320 to R325). -/

namespace Sys2Proof.Machine

/-- Lists of one length laid end to end: element `i` is element `i % n` of list `i / n`. -/
theorem flatMap_getElem? {α β : Type} (f : α → List β) (n : Nat) (hf : ∀ x, (f x).length = n)
    (xs : List α) (i : Nat) (hi : i / n < xs.length) (hn : 0 < n) :
    (xs.flatMap f)[i]? = (f xs[i / n])[i % n]? := by
  induction xs generalizing i with
  | nil => simp at hi
  | cons x xs ih =>
    rw [List.flatMap_cons]
    by_cases h : i < n
    · rw [List.getElem?_append_left (by rw [hf]; exact h)]
      simp [Nat.div_eq_of_lt h, Nat.mod_eq_of_lt h]
    · have hd : i / n = (i - n) / n + 1 := by
        rw [Nat.div_eq_sub_div hn (by omega)]
      rw [List.getElem?_append_right (by rw [hf]; omega), hf,
        ih (i - n) (by rw [List.length_cons] at hi; omega)]
      simp only [hd, List.getElem_cons_succ]
      rw [Nat.mod_eq_sub_mod (by omega : i ≥ n)]

theorem unpack_length {n : Nat} (x : BitVec n) : (unpack x).length = n / 8 := by simp [unpack]

/-- Byte `i` of a word, the most significant first (R166). -/
theorem unpack_getElem? {n : Nat} (x : BitVec n) (i : Nat) (hi : i < n / 8) :
    (unpack x)[i]? = some (x.extractLsb' (n - 8 - 8 * i) 8) := by simp [unpack, hi]

/-- The serialised state has `nsw * w / 8` bytes (R320). -/
theorem serialize_length {D : Descriptor} (h : D.Shaped) (H : Vector Word64 8) :
    (serialize D H).length = D.nsw * (D.w / 8) := by
  have hn : min D.nsw 8 = D.nsw := by rcases h.words with h | h <;> omega
  simp only [serialize, List.length_flatMap, unpack_length, List.map_const', List.sum_replicate,
    List.length_take, Vector.length_toList, smul_eq_mul, hn]

/-- Byte `i` of the serialised state is byte `i mod (w/8)` of word `i / (w/8)` (R320). -/
theorem serialize_getElem? {D : Descriptor} (h : D.Shaped) (H : Vector Word64 8) (i : Nat)
    (hi : i < D.nsw * (D.w / 8)) (h8 : i / (D.w / 8) < 8) :
    (serialize D H)[i]? =
      some ((H[i / (D.w / 8)].setWidth D.w).extractLsb' (D.w - 8 - 8 * (i % (D.w / 8))) 8) := by
  have hp : 0 < D.w / 8 := by rcases h.width with ⟨h, -⟩ | ⟨h, -⟩ <;> omega
  have hn : D.nsw ≤ 8 := by rcases h.words with h | h <;> omega
  have hd : i / (D.w / 8) < D.nsw := (Nat.div_lt_iff_lt_mul hp).2 hi
  unfold serialize
  rw [flatMap_getElem? _ (D.w / 8) (fun x => unpack_length _) _ i (by simp; omega) hp,
    unpack_getElem? _ _ (Nat.mod_lt _ hp)]
  simp

/-- The digest's bytes are a prefix of the serialised state (R321). -/
theorem truncateDigest_length {D : Descriptor} (h : D.Shaped) (H : Vector Word64 8) :
    (truncateDigest D (serialize D H)).length = D.dl / 8 := by
  have h1 := h.digestWords
  rw [truncateDigest, List.length_take, serialize_length h]
  rcases h.width with ⟨hw, -⟩ | ⟨hw, -⟩ <;> rcases h.words with hn | hn <;> rw [hw, hn] at h1 ⊢ <;> omega

end Sys2Proof.Machine
end

