-- ==== Sys2Proof/Laws/HostProgram.lean ====
section
/-! SUPPORT. What the lines of a host program reach (spec 30_encoding.md R107 to R109). -/

namespace Sys2Proof.Machine

/-- `MSG+a` does not wrap for a byte the window can hold (R107). -/
theorem msgOff_toNat {a : Nat} (h : a < windowBytes) : (msgOff a).toNat = 0x8000 + a := by
  unfold windowBytes at h
  simp only [msgOff, BitVec.toNat_ofNat]
  omega

/-- `MSG+a` names the window, never the register region (20_memory.md R71). -/
theorem msgOff_window {a : Nat} (h : a < windowBytes) : 0x8000 ≤ (msgOff a).toNat := by
  rw [msgOff_toNat h]
  omega

/-- A line has words exactly when the syntax spells it, and they are its expansion. -/
theorem words_eq_some {seen : List Word32} {op : HostOp} {ws : List Word64} :
    op.words seen = some ws ↔ op.spelled = true ∧ op.expansion.words seen = some ws := by
  unfold HostOp.words
  split
  · next h => simp [h]
  · next h => simp [h]

/-- A completed poll: the last value ends it, no earlier one does, and each is one read (R109). -/
theorem pollWords_eq_some {off : BitVec 16} {mask val : Word32} {seen : List Word32} {ws : List Word64} :
    pollWords off mask val seen = some ws ↔
      ∃ earlier last, seen = earlier ++ [last] ∧ pollEnds mask val last = true ∧
        (∀ v ∈ earlier, pollEnds mask val v = false) ∧ ws = List.replicate seen.length (rdWord .four off) := by
  induction seen generalizing ws with
  | nil => simp [pollWords]
  | cons v seen ih =>
    unfold pollWords
    cases hv : pollEnds mask val v with
    | true =>
      rw [if_pos rfl]
      constructor
      · intro h
        split at h
        · next hs =>
          subst hs
          exact ⟨[], v, rfl, hv, by simp, by simpa using h.symm⟩
        · cases h
      · rintro ⟨earlier, last, he, -, hn, rfl⟩
        cases earlier with
        | nil => simp_all
        | cons x xs =>
          have hx := hn x (by simp)
          simp only [List.cons_append, List.cons.injEq] at he
          rw [← he.1, hv] at hx
          cases hx
    | false =>
      rw [if_neg (by simp)]
      constructor
      · intro h
        obtain ⟨more, hm, rfl⟩ := Option.map_eq_some_iff.1 h
        obtain ⟨earlier, last, rfl, hl, hn, rfl⟩ := ih.1 hm
        exact ⟨v :: earlier, last, rfl, hl, by simpa [hv] using hn, by simp [List.replicate_succ]⟩
      · rintro ⟨earlier, last, he, hl, hn, rfl⟩
        cases earlier with
        | nil =>
          simp only [List.nil_append, List.cons.injEq] at he
          rw [← he.1, hv] at hl
          cases hl
        | cons x xs =>
          simp only [List.cons_append, List.cons.injEq] at he
          rw [ih.2 ⟨xs, last, he.2, hl, fun y hy => hn y (by simp [hy]), rfl⟩]
          simp [List.replicate_succ]

/-- The words of a program are those of its lines, in order. -/
theorem programWords_cons {line : List Word32 × HostOp} {rest : List (List Word32 × HostOp)} {ws : List Word64} :
    programWords (line :: rest) = some ws ↔
      ∃ first more, line.2.words line.1 = some first ∧ programWords rest = some more ∧
        ws = first ++ more := by
  simp only [programWords]
  split
  · next a b ha hb => simp [ha, hb, Eq.comm (a := ws)]
  · next h =>
    constructor
    · simp
    · rintro ⟨a, b, ha, hb, -⟩
      exact absurd hb (h a b ha)

end Sys2Proof.Machine
end

