-- ==== Sys2Proof/Laws/State.lean ====
section
/-! SUPPORT. One lemma per field per named update of State: what the update leaves in the field. -/

namespace Sys2Proof.Machine

section
variable (s : State) (v : Word32)

@[simp] theorem State.reply_alg : (s.reply v).alg = s.alg := rfl
@[simp] theorem State.reply_msgLenLo : (s.reply v).msgLenLo = s.msgLenLo := rfl
@[simp] theorem State.reply_msgLenHi : (s.reply v).msgLenHi = s.msgLenHi := rfl
@[simp] theorem State.reply_doneEn : (s.reply v).doneEn = s.doneEn := rfl
@[simp] theorem State.reply_errEn : (s.reply v).errEn = s.errEn := rfl
@[simp] theorem State.reply_busy : (s.reply v).busy = s.busy := rfl
@[simp] theorem State.reply_done : (s.reply v).done = s.done := rfl
@[simp] theorem State.reply_err : (s.reply v).err = s.err := rfl
@[simp] theorem State.reply_errCode : (s.reply v).errCode = s.errCode := rfl
@[simp] theorem State.reply_chunks : (s.reply v).chunks = s.chunks := rfl
@[simp] theorem State.reply_digest : (s.reply v).digest = s.digest := rfl
@[simp] theorem State.reply_memSize : (s.reply v).memSize = s.memSize := rfl
@[simp] theorem State.reply_phase : (s.reply v).phase = s.phase := rfl
@[simp] theorem State.reply_algL : (s.reply v).algL = s.algL := rfl
@[simp] theorem State.reply_lenL : (s.reply v).lenL = s.lenL := rfl
@[simp] theorem State.reply_nch : (s.reply v).nch = s.nch := rfl
@[simp] theorem State.reply_j : (s.reply v).j = s.j := rfl
@[simp] theorem State.reply_t : (s.reply v).t = s.t := rfl
@[simp] theorem State.reply_H : (s.reply v).H = s.H := rfl
@[simp] theorem State.reply_V : (s.reply v).V = s.V := rfl
@[simp] theorem State.reply_W : (s.reply v).W = s.W := rfl
@[simp] theorem State.reply_mem : (s.reply v).mem = s.mem := rfl
@[simp] theorem State.reply_draws : (s.reply v).draws = s.draws := rfl
@[simp] theorem State.reply_readData : (s.reply v).readData = v := rfl
@[simp] theorem State.reply_inbox : (s.reply v).inbox = s.inbox := rfl

end

section
variable (s : State) (d : Nat)

@[simp] theorem State.setDraws_alg : (s.setDraws d).alg = s.alg := rfl
@[simp] theorem State.setDraws_msgLenLo : (s.setDraws d).msgLenLo = s.msgLenLo := rfl
@[simp] theorem State.setDraws_msgLenHi : (s.setDraws d).msgLenHi = s.msgLenHi := rfl
@[simp] theorem State.setDraws_doneEn : (s.setDraws d).doneEn = s.doneEn := rfl
@[simp] theorem State.setDraws_errEn : (s.setDraws d).errEn = s.errEn := rfl
@[simp] theorem State.setDraws_busy : (s.setDraws d).busy = s.busy := rfl
@[simp] theorem State.setDraws_done : (s.setDraws d).done = s.done := rfl
@[simp] theorem State.setDraws_err : (s.setDraws d).err = s.err := rfl
@[simp] theorem State.setDraws_errCode : (s.setDraws d).errCode = s.errCode := rfl
@[simp] theorem State.setDraws_chunks : (s.setDraws d).chunks = s.chunks := rfl
@[simp] theorem State.setDraws_digest : (s.setDraws d).digest = s.digest := rfl
@[simp] theorem State.setDraws_memSize : (s.setDraws d).memSize = s.memSize := rfl
@[simp] theorem State.setDraws_phase : (s.setDraws d).phase = s.phase := rfl
@[simp] theorem State.setDraws_algL : (s.setDraws d).algL = s.algL := rfl
@[simp] theorem State.setDraws_lenL : (s.setDraws d).lenL = s.lenL := rfl
@[simp] theorem State.setDraws_nch : (s.setDraws d).nch = s.nch := rfl
@[simp] theorem State.setDraws_j : (s.setDraws d).j = s.j := rfl
@[simp] theorem State.setDraws_t : (s.setDraws d).t = s.t := rfl
@[simp] theorem State.setDraws_H : (s.setDraws d).H = s.H := rfl
@[simp] theorem State.setDraws_V : (s.setDraws d).V = s.V := rfl
@[simp] theorem State.setDraws_W : (s.setDraws d).W = s.W := rfl
@[simp] theorem State.setDraws_mem : (s.setDraws d).mem = s.mem := rfl
@[simp] theorem State.setDraws_draws : (s.setDraws d).draws = d := rfl
@[simp] theorem State.setDraws_readData : (s.setDraws d).readData = s.readData := rfl
@[simp] theorem State.setDraws_inbox : (s.setDraws d).inbox = s.inbox := rfl

end

section
variable (s : State) (m : Memory)

@[simp] theorem State.setMem_alg : (s.setMem m).alg = s.alg := rfl
@[simp] theorem State.setMem_msgLenLo : (s.setMem m).msgLenLo = s.msgLenLo := rfl
@[simp] theorem State.setMem_msgLenHi : (s.setMem m).msgLenHi = s.msgLenHi := rfl
@[simp] theorem State.setMem_doneEn : (s.setMem m).doneEn = s.doneEn := rfl
@[simp] theorem State.setMem_errEn : (s.setMem m).errEn = s.errEn := rfl
@[simp] theorem State.setMem_busy : (s.setMem m).busy = s.busy := rfl
@[simp] theorem State.setMem_done : (s.setMem m).done = s.done := rfl
@[simp] theorem State.setMem_err : (s.setMem m).err = s.err := rfl
@[simp] theorem State.setMem_errCode : (s.setMem m).errCode = s.errCode := rfl
@[simp] theorem State.setMem_chunks : (s.setMem m).chunks = s.chunks := rfl
@[simp] theorem State.setMem_digest : (s.setMem m).digest = s.digest := rfl
@[simp] theorem State.setMem_memSize : (s.setMem m).memSize = s.memSize := rfl
@[simp] theorem State.setMem_phase : (s.setMem m).phase = s.phase := rfl
@[simp] theorem State.setMem_algL : (s.setMem m).algL = s.algL := rfl
@[simp] theorem State.setMem_lenL : (s.setMem m).lenL = s.lenL := rfl
@[simp] theorem State.setMem_nch : (s.setMem m).nch = s.nch := rfl
@[simp] theorem State.setMem_j : (s.setMem m).j = s.j := rfl
@[simp] theorem State.setMem_t : (s.setMem m).t = s.t := rfl
@[simp] theorem State.setMem_H : (s.setMem m).H = s.H := rfl
@[simp] theorem State.setMem_V : (s.setMem m).V = s.V := rfl
@[simp] theorem State.setMem_W : (s.setMem m).W = s.W := rfl
@[simp] theorem State.setMem_mem : (s.setMem m).mem = m := rfl
@[simp] theorem State.setMem_draws : (s.setMem m).draws = s.draws := rfl
@[simp] theorem State.setMem_readData : (s.setMem m).readData = s.readData := rfl
@[simp] theorem State.setMem_inbox : (s.setMem m).inbox = s.inbox := rfl

end

section
variable (s : State) (a : BitVec 4)

@[simp] theorem State.setAlg_alg : (s.setAlg a).alg = a := rfl
@[simp] theorem State.setAlg_msgLenLo : (s.setAlg a).msgLenLo = s.msgLenLo := rfl
@[simp] theorem State.setAlg_msgLenHi : (s.setAlg a).msgLenHi = s.msgLenHi := rfl
@[simp] theorem State.setAlg_doneEn : (s.setAlg a).doneEn = s.doneEn := rfl
@[simp] theorem State.setAlg_errEn : (s.setAlg a).errEn = s.errEn := rfl
@[simp] theorem State.setAlg_busy : (s.setAlg a).busy = s.busy := rfl
@[simp] theorem State.setAlg_done : (s.setAlg a).done = s.done := rfl
@[simp] theorem State.setAlg_err : (s.setAlg a).err = s.err := rfl
@[simp] theorem State.setAlg_errCode : (s.setAlg a).errCode = s.errCode := rfl
@[simp] theorem State.setAlg_chunks : (s.setAlg a).chunks = s.chunks := rfl
@[simp] theorem State.setAlg_digest : (s.setAlg a).digest = s.digest := rfl
@[simp] theorem State.setAlg_memSize : (s.setAlg a).memSize = s.memSize := rfl
@[simp] theorem State.setAlg_phase : (s.setAlg a).phase = s.phase := rfl
@[simp] theorem State.setAlg_algL : (s.setAlg a).algL = s.algL := rfl
@[simp] theorem State.setAlg_lenL : (s.setAlg a).lenL = s.lenL := rfl
@[simp] theorem State.setAlg_nch : (s.setAlg a).nch = s.nch := rfl
@[simp] theorem State.setAlg_j : (s.setAlg a).j = s.j := rfl
@[simp] theorem State.setAlg_t : (s.setAlg a).t = s.t := rfl
@[simp] theorem State.setAlg_H : (s.setAlg a).H = s.H := rfl
@[simp] theorem State.setAlg_V : (s.setAlg a).V = s.V := rfl
@[simp] theorem State.setAlg_W : (s.setAlg a).W = s.W := rfl
@[simp] theorem State.setAlg_mem : (s.setAlg a).mem = s.mem := rfl
@[simp] theorem State.setAlg_draws : (s.setAlg a).draws = s.draws := rfl
@[simp] theorem State.setAlg_readData : (s.setAlg a).readData = s.readData := rfl
@[simp] theorem State.setAlg_inbox : (s.setAlg a).inbox = s.inbox := rfl

end

section
variable (s : State) (v : Word32)

@[simp] theorem State.setMsgLenLo_alg : (s.setMsgLenLo v).alg = s.alg := rfl
@[simp] theorem State.setMsgLenLo_msgLenLo : (s.setMsgLenLo v).msgLenLo = v := rfl
@[simp] theorem State.setMsgLenLo_msgLenHi : (s.setMsgLenLo v).msgLenHi = s.msgLenHi := rfl
@[simp] theorem State.setMsgLenLo_doneEn : (s.setMsgLenLo v).doneEn = s.doneEn := rfl
@[simp] theorem State.setMsgLenLo_errEn : (s.setMsgLenLo v).errEn = s.errEn := rfl
@[simp] theorem State.setMsgLenLo_busy : (s.setMsgLenLo v).busy = s.busy := rfl
@[simp] theorem State.setMsgLenLo_done : (s.setMsgLenLo v).done = s.done := rfl
@[simp] theorem State.setMsgLenLo_err : (s.setMsgLenLo v).err = s.err := rfl
@[simp] theorem State.setMsgLenLo_errCode : (s.setMsgLenLo v).errCode = s.errCode := rfl
@[simp] theorem State.setMsgLenLo_chunks : (s.setMsgLenLo v).chunks = s.chunks := rfl
@[simp] theorem State.setMsgLenLo_digest : (s.setMsgLenLo v).digest = s.digest := rfl
@[simp] theorem State.setMsgLenLo_memSize : (s.setMsgLenLo v).memSize = s.memSize := rfl
@[simp] theorem State.setMsgLenLo_phase : (s.setMsgLenLo v).phase = s.phase := rfl
@[simp] theorem State.setMsgLenLo_algL : (s.setMsgLenLo v).algL = s.algL := rfl
@[simp] theorem State.setMsgLenLo_lenL : (s.setMsgLenLo v).lenL = s.lenL := rfl
@[simp] theorem State.setMsgLenLo_nch : (s.setMsgLenLo v).nch = s.nch := rfl
@[simp] theorem State.setMsgLenLo_j : (s.setMsgLenLo v).j = s.j := rfl
@[simp] theorem State.setMsgLenLo_t : (s.setMsgLenLo v).t = s.t := rfl
@[simp] theorem State.setMsgLenLo_H : (s.setMsgLenLo v).H = s.H := rfl
@[simp] theorem State.setMsgLenLo_V : (s.setMsgLenLo v).V = s.V := rfl
@[simp] theorem State.setMsgLenLo_W : (s.setMsgLenLo v).W = s.W := rfl
@[simp] theorem State.setMsgLenLo_mem : (s.setMsgLenLo v).mem = s.mem := rfl
@[simp] theorem State.setMsgLenLo_draws : (s.setMsgLenLo v).draws = s.draws := rfl
@[simp] theorem State.setMsgLenLo_readData : (s.setMsgLenLo v).readData = s.readData := rfl
@[simp] theorem State.setMsgLenLo_inbox : (s.setMsgLenLo v).inbox = s.inbox := rfl

end

section
variable (s : State) (v : Word32)

@[simp] theorem State.setMsgLenHi_alg : (s.setMsgLenHi v).alg = s.alg := rfl
@[simp] theorem State.setMsgLenHi_msgLenLo : (s.setMsgLenHi v).msgLenLo = s.msgLenLo := rfl
@[simp] theorem State.setMsgLenHi_msgLenHi : (s.setMsgLenHi v).msgLenHi = v := rfl
@[simp] theorem State.setMsgLenHi_doneEn : (s.setMsgLenHi v).doneEn = s.doneEn := rfl
@[simp] theorem State.setMsgLenHi_errEn : (s.setMsgLenHi v).errEn = s.errEn := rfl
@[simp] theorem State.setMsgLenHi_busy : (s.setMsgLenHi v).busy = s.busy := rfl
@[simp] theorem State.setMsgLenHi_done : (s.setMsgLenHi v).done = s.done := rfl
@[simp] theorem State.setMsgLenHi_err : (s.setMsgLenHi v).err = s.err := rfl
@[simp] theorem State.setMsgLenHi_errCode : (s.setMsgLenHi v).errCode = s.errCode := rfl
@[simp] theorem State.setMsgLenHi_chunks : (s.setMsgLenHi v).chunks = s.chunks := rfl
@[simp] theorem State.setMsgLenHi_digest : (s.setMsgLenHi v).digest = s.digest := rfl
@[simp] theorem State.setMsgLenHi_memSize : (s.setMsgLenHi v).memSize = s.memSize := rfl
@[simp] theorem State.setMsgLenHi_phase : (s.setMsgLenHi v).phase = s.phase := rfl
@[simp] theorem State.setMsgLenHi_algL : (s.setMsgLenHi v).algL = s.algL := rfl
@[simp] theorem State.setMsgLenHi_lenL : (s.setMsgLenHi v).lenL = s.lenL := rfl
@[simp] theorem State.setMsgLenHi_nch : (s.setMsgLenHi v).nch = s.nch := rfl
@[simp] theorem State.setMsgLenHi_j : (s.setMsgLenHi v).j = s.j := rfl
@[simp] theorem State.setMsgLenHi_t : (s.setMsgLenHi v).t = s.t := rfl
@[simp] theorem State.setMsgLenHi_H : (s.setMsgLenHi v).H = s.H := rfl
@[simp] theorem State.setMsgLenHi_V : (s.setMsgLenHi v).V = s.V := rfl
@[simp] theorem State.setMsgLenHi_W : (s.setMsgLenHi v).W = s.W := rfl
@[simp] theorem State.setMsgLenHi_mem : (s.setMsgLenHi v).mem = s.mem := rfl
@[simp] theorem State.setMsgLenHi_draws : (s.setMsgLenHi v).draws = s.draws := rfl
@[simp] theorem State.setMsgLenHi_readData : (s.setMsgLenHi v).readData = s.readData := rfl
@[simp] theorem State.setMsgLenHi_inbox : (s.setMsgLenHi v).inbox = s.inbox := rfl

end

section
variable (s : State) (x y : Bool)

@[simp] theorem State.setIrqEn_alg : (s.setIrqEn x y).alg = s.alg := rfl
@[simp] theorem State.setIrqEn_msgLenLo : (s.setIrqEn x y).msgLenLo = s.msgLenLo := rfl
@[simp] theorem State.setIrqEn_msgLenHi : (s.setIrqEn x y).msgLenHi = s.msgLenHi := rfl
@[simp] theorem State.setIrqEn_doneEn : (s.setIrqEn x y).doneEn = x := rfl
@[simp] theorem State.setIrqEn_errEn : (s.setIrqEn x y).errEn = y := rfl
@[simp] theorem State.setIrqEn_busy : (s.setIrqEn x y).busy = s.busy := rfl
@[simp] theorem State.setIrqEn_done : (s.setIrqEn x y).done = s.done := rfl
@[simp] theorem State.setIrqEn_err : (s.setIrqEn x y).err = s.err := rfl
@[simp] theorem State.setIrqEn_errCode : (s.setIrqEn x y).errCode = s.errCode := rfl
@[simp] theorem State.setIrqEn_chunks : (s.setIrqEn x y).chunks = s.chunks := rfl
@[simp] theorem State.setIrqEn_digest : (s.setIrqEn x y).digest = s.digest := rfl
@[simp] theorem State.setIrqEn_memSize : (s.setIrqEn x y).memSize = s.memSize := rfl
@[simp] theorem State.setIrqEn_phase : (s.setIrqEn x y).phase = s.phase := rfl
@[simp] theorem State.setIrqEn_algL : (s.setIrqEn x y).algL = s.algL := rfl
@[simp] theorem State.setIrqEn_lenL : (s.setIrqEn x y).lenL = s.lenL := rfl
@[simp] theorem State.setIrqEn_nch : (s.setIrqEn x y).nch = s.nch := rfl
@[simp] theorem State.setIrqEn_j : (s.setIrqEn x y).j = s.j := rfl
@[simp] theorem State.setIrqEn_t : (s.setIrqEn x y).t = s.t := rfl
@[simp] theorem State.setIrqEn_H : (s.setIrqEn x y).H = s.H := rfl
@[simp] theorem State.setIrqEn_V : (s.setIrqEn x y).V = s.V := rfl
@[simp] theorem State.setIrqEn_W : (s.setIrqEn x y).W = s.W := rfl
@[simp] theorem State.setIrqEn_mem : (s.setIrqEn x y).mem = s.mem := rfl
@[simp] theorem State.setIrqEn_draws : (s.setIrqEn x y).draws = s.draws := rfl
@[simp] theorem State.setIrqEn_readData : (s.setIrqEn x y).readData = s.readData := rfl
@[simp] theorem State.setIrqEn_inbox : (s.setIrqEn x y).inbox = s.inbox := rfl

end

section
variable (s : State) (x y : Bool) (c : BitVec 4)

@[simp] theorem State.setStatus_alg : (s.setStatus x y c).alg = s.alg := rfl
@[simp] theorem State.setStatus_msgLenLo : (s.setStatus x y c).msgLenLo = s.msgLenLo := rfl
@[simp] theorem State.setStatus_msgLenHi : (s.setStatus x y c).msgLenHi = s.msgLenHi := rfl
@[simp] theorem State.setStatus_doneEn : (s.setStatus x y c).doneEn = s.doneEn := rfl
@[simp] theorem State.setStatus_errEn : (s.setStatus x y c).errEn = s.errEn := rfl
@[simp] theorem State.setStatus_busy : (s.setStatus x y c).busy = s.busy := rfl
@[simp] theorem State.setStatus_done : (s.setStatus x y c).done = x := rfl
@[simp] theorem State.setStatus_err : (s.setStatus x y c).err = y := rfl
@[simp] theorem State.setStatus_errCode : (s.setStatus x y c).errCode = c := rfl
@[simp] theorem State.setStatus_chunks : (s.setStatus x y c).chunks = s.chunks := rfl
@[simp] theorem State.setStatus_digest : (s.setStatus x y c).digest = s.digest := rfl
@[simp] theorem State.setStatus_memSize : (s.setStatus x y c).memSize = s.memSize := rfl
@[simp] theorem State.setStatus_phase : (s.setStatus x y c).phase = s.phase := rfl
@[simp] theorem State.setStatus_algL : (s.setStatus x y c).algL = s.algL := rfl
@[simp] theorem State.setStatus_lenL : (s.setStatus x y c).lenL = s.lenL := rfl
@[simp] theorem State.setStatus_nch : (s.setStatus x y c).nch = s.nch := rfl
@[simp] theorem State.setStatus_j : (s.setStatus x y c).j = s.j := rfl
@[simp] theorem State.setStatus_t : (s.setStatus x y c).t = s.t := rfl
@[simp] theorem State.setStatus_H : (s.setStatus x y c).H = s.H := rfl
@[simp] theorem State.setStatus_V : (s.setStatus x y c).V = s.V := rfl
@[simp] theorem State.setStatus_W : (s.setStatus x y c).W = s.W := rfl
@[simp] theorem State.setStatus_mem : (s.setStatus x y c).mem = s.mem := rfl
@[simp] theorem State.setStatus_draws : (s.setStatus x y c).draws = s.draws := rfl
@[simp] theorem State.setStatus_readData : (s.setStatus x y c).readData = s.readData := rfl
@[simp] theorem State.setStatus_inbox : (s.setStatus x y c).inbox = s.inbox := rfl

end

section
variable (s : State) 

@[simp] theorem State.zeroResults_alg : (s.zeroResults).alg = s.alg := rfl
@[simp] theorem State.zeroResults_msgLenLo : (s.zeroResults).msgLenLo = s.msgLenLo := rfl
@[simp] theorem State.zeroResults_msgLenHi : (s.zeroResults).msgLenHi = s.msgLenHi := rfl
@[simp] theorem State.zeroResults_doneEn : (s.zeroResults).doneEn = s.doneEn := rfl
@[simp] theorem State.zeroResults_errEn : (s.zeroResults).errEn = s.errEn := rfl
@[simp] theorem State.zeroResults_busy : (s.zeroResults).busy = s.busy := rfl
@[simp] theorem State.zeroResults_done : (s.zeroResults).done = s.done := rfl
@[simp] theorem State.zeroResults_err : (s.zeroResults).err = s.err := rfl
@[simp] theorem State.zeroResults_errCode : (s.zeroResults).errCode = s.errCode := rfl
@[simp] theorem State.zeroResults_chunks : (s.zeroResults).chunks = 0#32 := rfl
@[simp] theorem State.zeroResults_digest : (s.zeroResults).digest = Vector.replicate 16 0#32 := rfl
@[simp] theorem State.zeroResults_memSize : (s.zeroResults).memSize = s.memSize := rfl
@[simp] theorem State.zeroResults_phase : (s.zeroResults).phase = s.phase := rfl
@[simp] theorem State.zeroResults_algL : (s.zeroResults).algL = s.algL := rfl
@[simp] theorem State.zeroResults_lenL : (s.zeroResults).lenL = s.lenL := rfl
@[simp] theorem State.zeroResults_nch : (s.zeroResults).nch = s.nch := rfl
@[simp] theorem State.zeroResults_j : (s.zeroResults).j = s.j := rfl
@[simp] theorem State.zeroResults_t : (s.zeroResults).t = s.t := rfl
@[simp] theorem State.zeroResults_H : (s.zeroResults).H = s.H := rfl
@[simp] theorem State.zeroResults_V : (s.zeroResults).V = s.V := rfl
@[simp] theorem State.zeroResults_W : (s.zeroResults).W = s.W := rfl
@[simp] theorem State.zeroResults_mem : (s.zeroResults).mem = s.mem := rfl
@[simp] theorem State.zeroResults_draws : (s.zeroResults).draws = s.draws := rfl
@[simp] theorem State.zeroResults_readData : (s.zeroResults).readData = s.readData := rfl
@[simp] theorem State.zeroResults_inbox : (s.zeroResults).inbox = s.inbox := rfl

end

section
variable (s : State) (q : List Action)

@[simp] theorem State.setInbox_alg : (s.setInbox q).alg = s.alg := rfl
@[simp] theorem State.setInbox_msgLenLo : (s.setInbox q).msgLenLo = s.msgLenLo := rfl
@[simp] theorem State.setInbox_msgLenHi : (s.setInbox q).msgLenHi = s.msgLenHi := rfl
@[simp] theorem State.setInbox_doneEn : (s.setInbox q).doneEn = s.doneEn := rfl
@[simp] theorem State.setInbox_errEn : (s.setInbox q).errEn = s.errEn := rfl
@[simp] theorem State.setInbox_busy : (s.setInbox q).busy = s.busy := rfl
@[simp] theorem State.setInbox_done : (s.setInbox q).done = s.done := rfl
@[simp] theorem State.setInbox_err : (s.setInbox q).err = s.err := rfl
@[simp] theorem State.setInbox_errCode : (s.setInbox q).errCode = s.errCode := rfl
@[simp] theorem State.setInbox_chunks : (s.setInbox q).chunks = s.chunks := rfl
@[simp] theorem State.setInbox_digest : (s.setInbox q).digest = s.digest := rfl
@[simp] theorem State.setInbox_memSize : (s.setInbox q).memSize = s.memSize := rfl
@[simp] theorem State.setInbox_phase : (s.setInbox q).phase = s.phase := rfl
@[simp] theorem State.setInbox_algL : (s.setInbox q).algL = s.algL := rfl
@[simp] theorem State.setInbox_lenL : (s.setInbox q).lenL = s.lenL := rfl
@[simp] theorem State.setInbox_nch : (s.setInbox q).nch = s.nch := rfl
@[simp] theorem State.setInbox_j : (s.setInbox q).j = s.j := rfl
@[simp] theorem State.setInbox_t : (s.setInbox q).t = s.t := rfl
@[simp] theorem State.setInbox_H : (s.setInbox q).H = s.H := rfl
@[simp] theorem State.setInbox_V : (s.setInbox q).V = s.V := rfl
@[simp] theorem State.setInbox_W : (s.setInbox q).W = s.W := rfl
@[simp] theorem State.setInbox_mem : (s.setInbox q).mem = s.mem := rfl
@[simp] theorem State.setInbox_draws : (s.setInbox q).draws = s.draws := rfl
@[simp] theorem State.setInbox_readData : (s.setInbox q).readData = s.readData := rfl
@[simp] theorem State.setInbox_inbox : (s.setInbox q).inbox = q := rfl

end

/-! The composed updates, in terms of the named ones. -/

@[simp] theorem State.clearStatus_eq (s : State) : s.clearStatus = s.setStatus false false 0#4 := rfl

@[simp] theorem State.raiseError_eq (s : State) (c : BitVec 4) :
    s.raiseError c = s.setStatus false true c := rfl

theorem State.unlessBusy_of_busy {s : State} (f : State → State) (h : s.busy = true) :
    s.unlessBusy f = s := by simp [State.unlessBusy, h]

theorem State.unlessBusy_of_idle {s : State} (f : State → State) (h : s.busy = false) :
    s.unlessBusy f = f s := by simp [State.unlessBusy, h]

end Sys2Proof.Machine
end

