-- ==== Sys2Proof/Laws/Memory.lean ====
section
/-! SUPPORT. The laws of the message memory: reading after writing, and that every memory operation keeps
the canonical form. -/

namespace Sys2Proof.Machine

theorem Memory.lookup_insert (m : Memory) (a b : Nat) (v : Byte) :
    (m.insert a v).lookup b = if b = a then some v else m.lookup b := by
  induction m with
  | nil => simp [Memory.insert, Memory.lookup]
  | cons c m ih =>
    obtain ⟨c, u⟩ := c
    simp only [Memory.insert]
    split
    · simp only [Memory.lookup]
    · split
      · subst_vars
        simp only [Memory.lookup]
        split <;> rfl
      · simp only [Memory.lookup, ih]
        split
        · rw [if_neg (by omega)]
        · rfl

theorem Memory.mem_insert {m : Memory} {a : Nat} {v : Byte} {c : Host.Cell} (h : c ∈ m.insert a v) :
    c = (a, v) ∨ c ∈ m := by
  induction m with
  | nil => simpa [Memory.insert] using h
  | cons d m ih =>
    obtain ⟨d, u⟩ := d
    simp only [Memory.insert] at h
    split at h
    · simpa using h
    · split at h
      · rcases List.mem_cons.1 h with h | h
        · exact .inl h
        · exact .inr (List.mem_cons_of_mem _ h)
      · rcases List.mem_cons.1 h with h | h
        · exact .inr (h ▸ List.mem_cons_self)
        · exact (ih h).imp_right (List.mem_cons_of_mem _)

theorem Memory.insert_wf {m : Memory} (h : m.wf) (a : Nat) (v : Byte) : (m.insert a v).wf := by
  induction m with
  | nil => simp [Memory.insert, Memory.wf]
  | cons d m ih =>
    obtain ⟨d, u⟩ := d
    obtain ⟨hd, hm⟩ := List.pairwise_cons.1 h
    simp only [Memory.insert]
    split
    · refine List.pairwise_cons.2 ⟨fun c hc => ?_, h⟩
      rcases List.mem_cons.1 hc with rfl | hc
      · assumption
      · exact Nat.lt_trans ‹_› (hd c hc)
    · split
      · subst_vars
        exact List.pairwise_cons.2 ⟨hd, hm⟩
      · refine List.pairwise_cons.2 ⟨fun c hc => ?_, ih hm⟩
        rcases Memory.mem_insert hc with rfl | hc
        · show d < a
          omega
        · exact hd c hc

theorem Memory.insert_below {m : Memory} {n a : Nat} (h : m.below n) (ha : a < n) (v : Byte) :
    (m.insert a v).below n := by
  intro c hc
  rcases Memory.mem_insert hc with rfl | hc
  · exact ha
  · exact h c hc

theorem Memory.writeBytes_wf {m : Memory} (h : m.wf) (a : Nat) (vs : List Byte) :
    (m.writeBytes a vs).wf := by
  induction vs generalizing m a with
  | nil => exact h
  | cons v vs ih => exact ih (Memory.insert_wf h a v) (a + 1)

theorem Memory.writeBytes_below {m : Memory} {n : Nat} (h : m.below n) (a : Nat) (vs : List Byte)
    (ha : a + vs.length ≤ n) : (m.writeBytes a vs).below n := by
  induction vs generalizing m a with
  | nil => exact h
  | cons v vs ih =>
    rw [List.length_cons] at ha
    exact ih (Memory.insert_below h (by omega) v) (a + 1) (by omega)

/-- Reading after writing: the bytes written, and every other byte as before. -/
theorem Memory.lookup_writeBytes (m : Memory) (a b : Nat) (vs : List Byte) :
    (m.writeBytes a vs).lookup b =
      if h : a ≤ b ∧ b < a + vs.length then some (vs[b - a]'(by omega)) else m.lookup b := by
  induction vs generalizing m a with
  | nil =>
    rw [dif_neg (by simp only [List.length_nil]; omega)]
    rfl
  | cons v vs ih =>
    rw [Memory.writeBytes, ih, Memory.lookup_insert]
    by_cases h1 : b = a
    · subst h1
      rw [dif_neg (by omega), if_pos rfl, dif_pos (by simp)]
      simp
    · rw [if_neg h1]
      by_cases h2 : a + 1 ≤ b ∧ b < a + 1 + vs.length
      · rw [dif_pos h2, dif_pos (by simp only [List.length_cons]; omega)]
        congr 1
        simp only [show b - a = (b - (a + 1)) + 1 by omega, List.getElem_cons_succ]
      · rw [dif_neg h2, dif_neg (by simp only [List.length_cons]; omega)]

theorem laneBytes_length (n : Nat) (v : Word32) : (laneBytes n v).length = n := by simp [laneBytes]

theorem Memory.write_wf {m : Memory} (h : m.wf) (a n : Nat) (v : Word32) : (m.write a n v).wf :=
  Memory.writeBytes_wf h a _

theorem Memory.write_below {m : Memory} {k : Nat} (h : m.below k) (a n : Nat) (v : Word32)
    (ha : a + n ≤ k) : (m.write a n v).below k :=
  Memory.writeBytes_below h a _ (by rw [laneBytes_length]; exact ha)

/-- `MemWrite` byte by byte (R77). -/
theorem Memory.lookup_write (m : Memory) (a n b : Nat) (v : Word32) :
    (m.write a n v).lookup b =
      if a ≤ b ∧ b < a + n then some (laneByte n (b - a) v) else m.lookup b := by
  rw [Memory.write, Memory.lookup_writeBytes]
  simp only [laneBytes_length]
  split <;> simp [laneBytes]

theorem Memory.readByte_of_lookup {m : Memory} {a : Nat} {v : Byte} (h : m.lookup a = some v) (d : Nat) :
    m.readByte d a = (v, d) := by simp [Memory.readByte, h]

theorem Memory.readByte_of_unwritten {m : Memory} {a : Nat} (h : m.lookup a = none) (d : Nat) :
    m.readByte d a = (Config.freeByte d, d + 1) := by simp [Memory.readByte, h]

theorem Memory.readBytes_length (m : Memory) (d a n : Nat) : (m.readBytes d a n).1.length = n := by
  induction n generalizing d a with
  | zero => rfl
  | succ n ih => simp [Memory.readBytes, ih]

/-- Reading written bytes: their values, and no draw (R76). -/
theorem Memory.readBytes_of_written {m : Memory} {a : Nat} (bs : List Byte)
    (h : ∀ i (hi : i < bs.length), m.lookup (a + i) = some bs[i]) (d : Nat) :
    m.readBytes d a bs.length = (bs, d) := by
  induction bs generalizing a with
  | nil => rfl
  | cons b bs ih =>
    have h0 : m.lookup a = some b := h 0 (Nat.zero_lt_succ _)
    have hs : ∀ i (hi : i < bs.length), m.lookup (a + 1 + i) = some bs[i] := fun i hi => by
      have := h (i + 1) (by simpa using hi)
      rwa [List.getElem_cons_succ, show a + (i + 1) = a + 1 + i by omega] at this
    simp [Memory.readBytes, Memory.readByte_of_lookup h0, ih hs]

end Sys2Proof.Machine
end

