-- ==== Sys2Proof/Laws/Ops.lean ====
section
/-! SUPPORT. One lemma per shared operation: everything it can do. -/

namespace Sys2Proof.Machine

/-- A window read replies with the value read and counts the draws; nothing else changes. -/
theorem State.windowRead_eq (s : State) (a n : Nat) :
    s.windowRead a n =
      (s.setDraws (s.mem.readBytes s.draws a (if windowEffective s.memSize.bytes a n then n else 0)).2).reply
        (laneValue (s.mem.readBytes s.draws a (if windowEffective s.memSize.bytes a n then n else 0)).1) :=
  rfl

theorem windowEffective_iff (size a n : Nat) :
    windowEffective size a n = true ↔ a % n = 0 ∧ a < size := by simp [windowEffective]

/-- An effective access stays inside the memory, whose size is a multiple of 4 (R78). -/
theorem windowEffective_end {size a n : Nat} (hs : size % 4 = 0) (hn : n = 1 ∨ n = 2 ∨ n = 4)
    (h : windowEffective size a n = true) : a + n ≤ size := by
  rw [windowEffective_iff] at h
  rcases hn with rfl | rfl | rfl <;> omega

/-- A window write stores its bytes in an idle machine when it is effective, and otherwise changes
nothing (R77, R78, R390). -/
theorem State.windowWrite_cases (s : State) (a n : Nat) (v : Word32) :
    (s.busy = false ∧ windowEffective s.memSize.bytes a n = true ∧
      s.windowWrite a n v = s.setMem (s.mem.write a n v)) ∨
    ((s.busy = true ∨ windowEffective s.memSize.bytes a n = false) ∧ s.windowWrite a n v = s) := by
  unfold State.windowWrite State.unlessBusy
  cases hb : s.busy <;> cases he : windowEffective s.memSize.bytes a n <;> simp [he]

/-- A write to CTRL stores ALG in an idle machine (R32). -/
theorem State.writeCtrl_cases (s : State) (v : Word32) :
    (s.busy = false ∧ s.writeCtrl v = s.setAlg (algOf v)) ∨ (s.busy = true ∧ s.writeCtrl v = s) := by
  unfold State.writeCtrl State.unlessBusy
  cases hb : s.busy <;> simp

/-- HASH on an idle engine is rejected with a code, or accepted (R193 to R196). -/
theorem hashCommand_cases (s : State) :
    (∃ c, hashCheck s = .error c ∧ hashCommand s = s.setStatus false true c) ∨
    (∃ D, hashCheck s = .ok D ∧ hashCommand s = acceptHash (s.setStatus false false 0#4) D) := by
  unfold hashCommand
  cases h : hashCheck s with
  | error c => exact .inl ⟨c, rfl, rfl⟩
  | ok D => exact .inr ⟨D, rfl, rfl⟩

/-- What passing the checks means (R194, R195). -/
theorem hashCheck_ok {s : State} {D : Descriptor} (h : hashCheck s = .ok D) :
    desc s.alg = some D ∧ s.msgLen.toNat < 2 ^ 61 ∧ s.msgLen.toNat ≤ s.memSize.bytes := by
  unfold hashCheck at h
  split at h
  · cases h
  · split at h
    · cases h
    · split at h
      · cases h
      · cases h
        exact ⟨‹_›, by omega, by omega⟩

/-- The code a failing check gives (R342). -/
theorem hashCheck_error {s : State} {c : BitVec 4} (h : hashCheck s = .error c) :
    (desc s.alg = none ∧ c = errAlgReserved) ∨
    ((desc s.alg).isSome ∧ 2 ^ 61 ≤ s.msgLen.toNat ∧ c = errLenUnrepresentable) ∨
    ((desc s.alg).isSome ∧ s.msgLen.toNat < 2 ^ 61 ∧ s.memSize.bytes < s.msgLen.toNat ∧
      c = errLenExceedsMem) := by
  unfold hashCheck at h
  split at h
  · cases h
    exact .inl ⟨‹_›, rfl⟩
  · rename_i D hD
    split at h
    · cases h
      exact .inr (.inl ⟨by simp [hD], ‹_›, rfl⟩)
    · split at h
      · cases h
        exact .inr (.inr ⟨by simp [hD], by omega, ‹_›, rfl⟩)
      · cases h

/-- A register write changes one writable register, runs a command, or changes nothing (R208). -/
theorem writeReg_cases (s : State) (v : Word32) (r : Reg) :
    (r = .irqEn ∧ writeReg s v r = s.setIrqEn (doneEnOf v) (errEnOf v)) ∨
    (r = .cmd ∧ writeReg s v r = runCommand s v) ∨
    (r = .ctrl ∧ s.busy = false ∧ writeReg s v r = s.setAlg (algOf v)) ∨
    (r = .msgLenLo ∧ s.busy = false ∧ writeReg s v r = s.setMsgLenLo v) ∨
    (r = .msgLenHi ∧ s.busy = false ∧ writeReg s v r = s.setMsgLenHi v) ∨
    writeReg s v r = s := by
  cases r <;> simp only [writeReg, State.writeCtrl, State.unlessBusy] <;> cases hb : s.busy <;> simp

/-- A command in a busy machine changes nothing; in an idle one it is one of the four (R190, R191). -/
theorem runCommand_cases (s : State) (v : Word32) :
    runCommand s v = s ∨
    (s.busy = false ∧
      ((v = 1#32 ∧ runCommand s v = hashCommand s) ∨
       (v = 2#32 ∧ runCommand s v = clearCommand s) ∨
       (2 < v.toNat ∧ runCommand s v = reservedCommand s))) := by
  unfold runCommand State.unlessBusy
  cases hb : s.busy
  · by_cases h0 : v = 0x00000000#32
    · simp [h0]
    · by_cases h1 : v = 0x00000001#32
      · simp [h1]
      · by_cases h2 : v = 0x00000002#32
        · simp [h2]
        · refine .inr ⟨rfl, .inr (.inr ⟨?_, by simp [h0, h1, h2]⟩)⟩
          bv_omega
  · simp

end Sys2Proof.Machine
end

