-- ==== Sys2Proof/Laws/HostRun.lean ====
section
/-! SUPPORT. What a run of a host program can do (spec 30_encoding.md R109), said once per function. -/

namespace Sys2Proof.Machine

@[simp] theorem HostRun.after_finished (before seen : List Word32) (s : State) (turns : List Nat) :
    (HostRun.finished s turns seen).after before = .finished s turns (before ++ seen) := rfl

@[simp] theorem HostRun.after_waiting (before seen : List Word32) (s : State) :
    (HostRun.waiting s seen).after before = .waiting s (before ++ seen) := rfl

theorem HostRun.after_eq_finished {before seen : List Word32} {r : HostRun} {s : State} {turns : List Nat} :
    r.after before = .finished s turns seen ↔
      ∃ more, r = .finished s turns more ∧ seen = before ++ more := by
  cases r <;> simp [HostRun.after, and_assoc, Eq.comm (a := seen)]

theorem HostRun.after_eq_waiting {before seen : List Word32} {r : HostRun} {s : State} :
    r.after before = .waiting s seen ↔ ∃ more, r = .waiting s more ∧ seen = before ++ more := by
  cases r <;> simp [HostRun.after, and_assoc, Eq.comm (a := seen)]

/-- Turns in a row. -/
theorem engineRun_add (m n : Nat) (s : State) :
    engineRun (m + n) s =
      match engineRun m s with
      | .next t => engineRun n t
      | .fault r => .fault r
      | .refused r => .refused r := by
  induction m generalizing s with
  | zero => simp [engineRun]
  | succ m ih =>
    rw [Nat.succ_add]
    simp only [engineRun]
    cases engineStep s with
    | next t => exact ih t
    | fault r => rfl
    | refused r => rfl

/-- An idle engine's turns change nothing (R204). -/
theorem engineRun_idle {s : State} (h : s.phase = .idle) (n : Nat) : engineRun n s = .next s := by
  induction n with
  | zero => rfl
  | succ n ih => simp [engineRun, engineStep, h, ih]

/-- One read of a `poll`, after `n` turns that lead to `u`. -/
theorem pollRun_cons {off : BitVec 16} {mask val : Word32} {n : Nat} {turns : List Nat} {s t : State}
    (h : hostTurn n (rdWord .four off) s = .next t) :
    pollRun off mask val (n :: turns) s =
      if pollEnds mask val t.readData then .finished t turns [t.readData]
      else (pollRun off mask val turns t).after [t.readData] := by
  simp [pollRun, h]

end Sys2Proof.Machine
end

