-- ==== Sys2Proof/Laws/Operands.lean ====
section
/-! SUPPORT. The big-endian byte order of the host data bus (spec 20_memory.md R76, R77, R79) and of a
packed word (41_bit_utilities.md R165), written as concatenations. -/

namespace Sys2Proof.Machine

theorem packBytes_nil (n : Nat) : packBytes n [] = 0#n := rfl

/-- One more byte at the low end: the value so far moves up by a byte (R165). -/
theorem packBytes_concat (n : Nat) (bs : List Byte) (b : Byte) :
    packBytes n (bs ++ [b]) = (packBytes n bs <<< 8) ||| b.setWidth n := by
  simp [packBytes]

/-- A byte put below a word that has room for it is a concatenation. -/
theorem shift_or_byte (k n : Nat) (x : BitVec k) (b : Byte) (_h : k + 8 ≤ n) :
    (x.setWidth n <<< 8) ||| b.setWidth n = (x ++ b).setWidth n := by
  apply BitVec.eq_of_getLsbD_eq
  intro i hi
  simp only [BitVec.getLsbD_or, BitVec.getLsbD_shiftLeft, BitVec.getLsbD_setWidth,
    BitVec.getLsbD_append, decide_eq_true hi, Bool.true_and]
  by_cases h8 : i < 8
  · simp [h8]
  · rw [BitVec.getLsbD_of_ge b i (by omega)]
    simp [h8, show i - 8 < n by omega]

theorem packBytes_one (n : Nat) (b : Byte) : packBytes n [b] = b.setWidth n := by
  simp [packBytes]

theorem packBytes_two (n : Nat) (h : 16 ≤ n) (b0 b1 : Byte) :
    packBytes n [b0, b1] = (b0 ++ b1).setWidth n := by
  rw [show [b0, b1] = [b0] ++ [b1] from rfl, packBytes_concat, packBytes_one]
  exact shift_or_byte 8 n b0 b1 h

theorem packBytes_three (n : Nat) (h : 24 ≤ n) (b0 b1 b2 : Byte) :
    packBytes n [b0, b1, b2] = (b0 ++ b1 ++ b2).setWidth n := by
  rw [show [b0, b1, b2] = [b0, b1] ++ [b2] from rfl, packBytes_concat, packBytes_two n (by omega)]
  exact shift_or_byte 16 n (b0 ++ b1) b2 h

theorem packBytes_four (n : Nat) (h : 32 ≤ n) (b0 b1 b2 b3 : Byte) :
    packBytes n [b0, b1, b2, b3] = (b0 ++ b1 ++ b2 ++ b3).setWidth n := by
  rw [show [b0, b1, b2, b3] = [b0, b1, b2] ++ [b3] from rfl, packBytes_concat,
    packBytes_three n (by omega)]
  exact shift_or_byte 24 n (b0 ++ b1 ++ b2) b3 h

/-- Zero-extension is concatenation below zeros (R79). -/
theorem setWidth_eq_append (k m : Nat) (x : BitVec m) : x.setWidth (k + m) = 0#k ++ x := by
  apply BitVec.eq_of_getLsbD_eq
  intro i hi
  simp only [BitVec.getLsbD_setWidth, BitVec.getLsbD_append, decide_eq_true hi, Bool.true_and,
    BitVec.getLsbD_zero]
  split
  · rfl
  · exact BitVec.getLsbD_of_ge x i (by omega)

/-- A one-byte read (R76, R79). -/
theorem laneValue_one (b0 : Byte) : laneValue [b0] = 0#24 ++ b0 := by
  rw [laneValue, packBytes_one]
  exact setWidth_eq_append 24 8 b0

/-- A two-byte read (R76, R79). -/
theorem laneValue_two (b0 b1 : Byte) : laneValue [b0, b1] = 0#16 ++ (b0 ++ b1) := by
  rw [laneValue, packBytes_two 32 (by omega)]
  exact setWidth_eq_append 16 16 (b0 ++ b1)

/-- A four-byte read (R76). -/
theorem laneValue_four (b0 b1 b2 b3 : Byte) : laneValue [b0, b1, b2, b3] = b0 ++ b1 ++ b2 ++ b3 := by
  rw [laneValue, packBytes_four 32 (by omega)]
  exact BitVec.setWidth_eq _

/-- The four bytes of a word, most significant first, make the word (R77). -/
theorem word_of_bytes (v : Word32) :
    v.extractLsb' 24 8 ++ v.extractLsb' 16 8 ++ v.extractLsb' 8 8 ++ v.extractLsb' 0 8 = v := by
  apply BitVec.eq_of_getLsbD_eq
  intro i hi
  simp only [BitVec.getLsbD_append, BitVec.getLsbD_extractLsb']
  repeat' split
  all_goals
    rw [decide_eq_true (by omega), Bool.true_and]
    congr 1
    omega

end Sys2Proof.Machine
end

