-- ==== Sys2Proof/Laws/Padding.lean ====
section
/-! SUPPORT. What LOAD reads and generates (spec 43_padding.md R231 to R237): message bytes first, in
ascending order, then generated bytes; and the padded message byte by byte. -/

namespace Sys2Proof.Machine

/-- Reading on from where a read stopped, with the draws made so far. -/
theorem Memory.readBytes_add (m : Memory) (d a n k : Nat) :
    m.readBytes d a (n + k) =
      ((m.readBytes d a n).1 ++ (m.readBytes (m.readBytes d a n).2 (a + n) k).1,
        (m.readBytes (m.readBytes d a n).2 (a + n) k).2) := by
  induction n generalizing d a with
  | zero => simp [Memory.readBytes]
  | succ n ih =>
    rw [show n + 1 + k = (n + k) + 1 by omega]
    simp only [Memory.readBytes, ih, List.cons_append]
    rw [show a + 1 + n = a + (n + 1) by omega]

/-- Past the message LOAD generates every byte and draws none (R233). -/
theorem loadBytes_generated (m : Memory) (D : Descriptor) (L d p n : Nat) (h : L ≤ p) :
    loadBytes m D L d p n = ((List.range n).map fun i => generatedByte D L (p + i), d) := by
  induction n generalizing p with
  | zero => rfl
  | succ n ih =>
    simp only [loadBytes, if_neg (show ¬ p < L by omega), ih (p + 1) (by omega),
      List.range_succ_eq_map, List.map_cons, List.map_map]
    congr 2
    apply List.map_congr_left
    intro i _
    simp only [Function.comp, Nat.succ_eq_add_one, Nat.add_assoc, Nat.add_comm 1 i]

/-- LOAD reads the message bytes of its range, in ascending order, then generates the rest (R233). -/
theorem loadBytes_eq (m : Memory) (D : Descriptor) (L d p n : Nat) :
    loadBytes m D L d p n =
      ((m.readBytes d p (min n (L - p))).1 ++
        (List.range (n - min n (L - p))).map fun i => generatedByte D L (p + min n (L - p) + i),
        (m.readBytes d p (min n (L - p))).2) := by
  induction n generalizing d p with
  | zero => simp [loadBytes, Memory.readBytes]
  | succ n ih =>
    by_cases h : p < L
    · have hm : min (n + 1) (L - p) = min n (L - (p + 1)) + 1 := by omega
      rw [hm]
      simp only [loadBytes, if_pos h, ih, Memory.readBytes, List.cons_append, Nat.add_sub_add_right,
        show p + (min n (L - (p + 1)) + 1) = p + 1 + min n (L - (p + 1)) by omega]
    · rw [loadBytes_generated m D L d p (n + 1) (by omega), show L - p = 0 by omega, Nat.min_zero]
      simp [Memory.readBytes]

theorem loadBytes_length (m : Memory) (D : Descriptor) (L d p n : Nat) :
    (loadBytes m D L d p n).1.length = n := by
  induction n generalizing d p with
  | zero => rfl
  | succ n ih => rw [loadBytes, List.length_cons, ih]

/-- The last chunk ends after the sentinel, the zeros and the length field (R234): the padded length, in
terms of the number of zeros. -/
theorem paddedLength_eq {D : Descriptor} (h : D.Shaped) (L : Nat) :
    L + 1 + zeroCount D L + D.lb = paddedLength D L := by
  unfold zeroCount paddedLength numChunks
  rcases h.width with ⟨-, hc, hl⟩ | ⟨-, hc, hl⟩ <;> rw [hc, hl] <;> omega

theorem padMessage_length {D : Descriptor} (m : List Byte) :
    (padMessage D m).length = m.length + 1 + zeroCount D m.length + D.lb := by
  simp [padMessage, lenField]
  omega

/-- The padded message byte by byte: the message, then what the controller generates (R231, R233). -/
theorem padMessage_getElem? {D : Descriptor} (h : D.Shaped) (m : List Byte) (p : Nat)
    (hp : p < paddedLength D m.length) :
    (padMessage D m)[p]? = if p < m.length then m[p]? else some (generatedByte D m.length p) := by
  have ht := paddedLength_eq h m.length
  unfold padMessage generatedByte
  by_cases h1 : p < m.length
  · rw [if_pos h1, List.getElem?_append_left (by simp; omega), List.getElem?_append_left (by simp; omega),
      List.getElem?_append_left h1]
  · rw [if_neg h1]
    by_cases h2 : p = m.length
    · rw [if_pos h2, List.getElem?_append_left (by simp; omega),
        List.getElem?_append_left (by simp; omega), List.getElem?_append_right (by omega), h2]
      simp
    · rw [if_neg h2]
      by_cases h3 : paddedLength D m.length - D.lb ≤ p
      · rw [if_pos h3, List.getElem?_append_right (by simp; omega)]
        have e : p - (m ++ [sentinel] ++ List.replicate (zeroCount D m.length) 0x00#8).length =
            p - (paddedLength D m.length - D.lb) := by
          simp only [List.length_append, List.length_singleton, List.length_replicate]
          omega
        rw [e, lenField, List.getElem?_map, List.getElem?_range (by omega)]
        rfl
      · rw [if_neg h3, List.getElem?_append_left (by simp; omega),
          List.getElem?_append_right (by simp; omega)]
        simp only [List.length_append, List.length_singleton, List.getElem?_replicate]
        rw [if_pos (by omega)]

theorem chunksOf_length {D : Descriptor} (h : D.Shaped) (m : List Byte) :
    (chunksOf D (padMessage D m)).length = numChunks D m.length := by
  have ht := paddedLength_eq h m.length
  rw [chunksOf, List.length_map, List.length_range, padMessage_length, ht, paddedLength]
  exact Nat.mul_div_cancel _ h.cb_pos

/-- Chunk `j` of the padded message (R235). -/
theorem chunksOf_getD {D : Descriptor} (h : D.Shaped) (m : List Byte) (j : Nat)
    (hj : j < numChunks D m.length) :
    (chunksOf D (padMessage D m)).getD j [] = ((padMessage D m).drop (j * D.cb)).take D.cb := by
  have hl := chunksOf_length h m
  rw [chunksOf, List.length_map, List.length_range] at hl
  rw [chunksOf, List.getD_eq_getElem?_getD, List.getElem?_map, List.getElem?_range (by omega)]
  rfl

end Sys2Proof.Machine
end

