-- ==== Sys2Proof/Laws/PerInstr.lean ====
section
/-! SUPPORT. Families of statements made per operation. `TableRow`: the encoding of an operation lies in
its own row of spec/opcode_table.json, whose match and mask are written out here. -/

namespace Sys2Proof.Laws.TableRow

/-- A row of spec/opcode_table.json: the match and the mask of a 32-bit word (formats CMD and CTRL, the DATA of
the `wr32` that carries it) or of a 64-bit trace word (format TRACE). -/
inductive Row where
  | word32 (pattern mask : BitVec 32)
  | word64 (pattern mask : BitVec 64)

/-- The row of an operation, as the table has it. -/
def rowOf : Instr → Row
  | .nop => .word32 0x00000000#32 0xFFFFFFFF#32
  | .hash => .word32 0x00000001#32 0xFFFFFFFF#32
  | .clear => .word32 0x00000002#32 0xFFFFFFFF#32
  | .cmdReserved _ => .word32 0x00000000#32 0x00000000#32
  | .sha1 _ => .word32 0x00000001#32 0x0000000F#32
  | .sha224 _ => .word32 0x00000002#32 0x0000000F#32
  | .sha256 _ => .word32 0x00000003#32 0x0000000F#32
  | .sha384 _ => .word32 0x00000004#32 0x0000000F#32
  | .sha512 _ => .word32 0x00000005#32 0x0000000F#32
  | .sha512_224 _ => .word32 0x00000006#32 0x0000000F#32
  | .sha512_256 _ => .word32 0x00000007#32 0x0000000F#32
  | .algReserved0 _ => .word32 0x00000000#32 0x0000000F#32
  | .algReserved8F _ _ => .word32 0x00000008#32 0x00000008#32
  | .regRd _ => .word64 0x0200000000000000#64 0xFFFF800000000000#64
  | .regWr _ _ => .word64 0x8200000000000000#64 0xFFFF800000000000#64
  | .regNarrow _ _ _ _ => .word64 0x0000000000000000#64 0x7EFF800000000000#64
  | .msgRd8 _ => .word64 0x0000800000000000#64 0xFFFF800000000000#64
  | .msgRd16 _ => .word64 0x0100800000000000#64 0xFFFF800000000000#64
  | .msgRd32 _ => .word64 0x0200800000000000#64 0xFFFF800000000000#64
  | .msgWr8 _ _ => .word64 0x8000800000000000#64 0xFFFF800000000000#64
  | .msgWr16 _ _ => .word64 0x8100800000000000#64 0xFFFF800000000000#64
  | .msgWr32 _ _ => .word64 0x8200800000000000#64 0xFFFF800000000000#64

/-- A trace word lies in a row. -/
def Row.covers : Row → Word64 → Prop
  | .word32 pattern mask, w => dataField w &&& mask = pattern
  | .word64 pattern mask, w => w &&& mask = pattern

/-- The encoding of the operation lies in its row. -/
def Statement (i : Instr) : Prop := (rowOf i).covers (encode i)

/-- A CTRL word under a mask of its low four bits. -/
theorem ctrl_mask (rsv : BitVec 28) (a : BitVec 4) (mask : BitVec 4) :
    (rsv ++ a) &&& (0#28 ++ mask) = 0#28 ++ (a &&& mask) := by
  apply BitVec.eq_of_getLsbD_eq
  intro k _
  simp only [BitVec.getLsbD_and, BitVec.getLsbD_append, BitVec.getLsbD_zero]
  split
  · rfl
  · exact Bool.and_false _

/-- A trace word under the mask of every bit but OFF[14:0] and DATA. -/
theorem trace_mask (dir : BitVec 1) (size : BitVec 2) (window : BitVec 1) (off : BitVec 15)
    (data : BitVec 32) (md : BitVec 1) (ms : BitVec 2) :
    traceWord dir size window off data &&&
        (md ++ (0x1F#5 ++ (ms ++ (0xFF#8 ++ (1#1 ++ (0#15 ++ 0#32)))))) =
      traceWord (dir &&& md) (size &&& ms) window 0#15 0#32 := by
  apply BitVec.eq_of_getLsbD_eq
  intro k hk
  rw [BitVec.getLsbD_and, traceWord_getLsbD, traceWord_getLsbD]
  simp only [BitVec.getLsbD_append, BitVec.getLsbD_zero, BitVec.getLsbD_and]
  by_cases h0 : k < 32
  · simp [h0, show k < 47 by omega, show k < 48 by omega, show k < 56 by omega, show k < 58 by omega,
      show k < 63 by omega]
  by_cases h1 : k < 47
  · simp [h0, h1, show k < 48 by omega, show k < 56 by omega, show k < 58 by omega, show k < 63 by omega]
  by_cases h2 : k < 48
  · have hk : k = 47 := by omega
    subst hk
    simp
  by_cases h3 : k < 56
  · simp [h0, h1, h2, h3]
  by_cases h4 : k < 58
  · simp [h0, h1, h2, h3, h4, show k < 63 by omega]
  by_cases h5 : k < 63
  · simp [h0, h1, h2, h3, h4, h5]
  have hk : k = 63 := by omega
  subst hk
  simp

section
variable (rsv : BitVec 28) (off : BitVec 15) (data : BitVec 32)

theorem nop : Statement .nop := by
  show dataField (cmdWord _) &&& _ = _
  rw [cmdWord, dataField_traceWord]
  decide

theorem hash : Statement .hash := by
  show dataField (cmdWord _) &&& _ = _
  rw [cmdWord, dataField_traceWord]
  decide

theorem clear : Statement .clear := by
  show dataField (cmdWord _) &&& _ = _
  rw [cmdWord, dataField_traceWord]
  decide

theorem cmdReserved : Statement (.cmdReserved data) := BitVec.and_zero

/-- The CTRL rows that name one code. -/
theorem ctrl_row (a : BitVec 4) : dataField (ctrlWord rsv a) &&& 0x0000000F#32 = 0#28 ++ a := by
  rw [ctrlWord, dataField_traceWord]
  exact (ctrl_mask rsv a 0xF#4).trans (by rw [show (0xF#4 : BitVec 4) = BitVec.allOnes 4 from rfl, BitVec.and_allOnes])

theorem sha1 : Statement (.sha1 rsv) := ctrl_row rsv 1#4
theorem sha224 : Statement (.sha224 rsv) := ctrl_row rsv 2#4
theorem sha256 : Statement (.sha256 rsv) := ctrl_row rsv 3#4
theorem sha384 : Statement (.sha384 rsv) := ctrl_row rsv 4#4
theorem sha512 : Statement (.sha512 rsv) := ctrl_row rsv 5#4
theorem sha512_224 : Statement (.sha512_224 rsv) := ctrl_row rsv 6#4
theorem sha512_256 : Statement (.sha512_256 rsv) := ctrl_row rsv 7#4
theorem algReserved0 : Statement (.algReserved0 rsv) := ctrl_row rsv 0#4

theorem algReserved8F (low : BitVec 3) : Statement (.algReserved8F rsv low) := by
  show dataField (ctrlWord rsv (1#1 ++ low)) &&& 0x00000008#32 = 0x00000008#32
  rw [ctrlWord, dataField_traceWord]
  refine (ctrl_mask rsv (1#1 ++ low) 0x8#4).trans ?_
  revert low
  decide

theorem regRd : Statement (.regRd off) := (trace_mask 0#1 2#2 0#1 off 0#32 1#1 3#2).trans (by decide)

theorem regWr : Statement (.regWr off data) := (trace_mask 1#1 2#2 0#1 off data 1#1 3#2).trans (by decide)

theorem regNarrow (dir : Dir) (size : NarrowSize) : Statement (.regNarrow dir size off data) := by
  refine (trace_mask dir.code size.code 0#1 off data 0#1 2#2).trans ?_
  cases dir <;> cases size <;> decide

theorem msgRd8 : Statement (.msgRd8 off) := (trace_mask 0#1 0#2 1#1 off 0#32 1#1 3#2).trans (by decide)

theorem msgRd16 : Statement (.msgRd16 off) := (trace_mask 0#1 1#2 1#1 off 0#32 1#1 3#2).trans (by decide)

theorem msgRd32 : Statement (.msgRd32 off) := (trace_mask 0#1 2#2 1#1 off 0#32 1#1 3#2).trans (by decide)

theorem msgWr8 : Statement (.msgWr8 off data) :=
  (trace_mask 1#1 0#2 1#1 off data 1#1 3#2).trans (by decide)

theorem msgWr16 : Statement (.msgWr16 off data) :=
  (trace_mask 1#1 1#2 1#1 off data 1#1 3#2).trans (by decide)

theorem msgWr32 : Statement (.msgWr32 off data) :=
  (trace_mask 1#1 2#2 1#1 off data 1#1 3#2).trans (by decide)

end

end Sys2Proof.Laws.TableRow
end

