-- ==== Sys2Proof/Laws/Schedule.lean ====
section
/-! SUPPORT. The expanded schedule word by word (spec 44_schedule.md R260, R262): extending keeps the words
there are, and each new word is `nextWord` of the words before it. -/

namespace Sys2Proof.Machine

theorem extendSchedule_length (D : Descriptor) (W : List Word64) (n : Nat) :
    (extendSchedule D W n).length = W.length + n := by
  induction n generalizing W with
  | zero => rfl
  | succ n ih => rw [extendSchedule, ih, List.length_append, List.length_singleton]; omega

/-- Extending keeps the words there are. -/
theorem extendSchedule_take (D : Descriptor) (W : List Word64) (n : Nat) :
    (extendSchedule D W n).take W.length = W := by
  induction n generalizing W with
  | zero => exact List.take_length
  | succ n ih =>
    have h := congrArg (List.take W.length) (ih (W ++ [nextWord D W]))
    rw [List.take_take, List.length_append, Nat.min_eq_left (Nat.le_add_right ..),
      List.take_left] at h
    exact h

/-- Word `t` of the extended schedule is computed from the words before it. -/
theorem extendSchedule_next (D : Descriptor) (W : List Word64) (n t : Nat) (ht : W.length ≤ t)
    (hn : t < W.length + n) :
    (extendSchedule D W n).getD t 0#64 = nextWord D ((extendSchedule D W n).take t) := by
  induction n generalizing W with
  | zero => omega
  | succ n ih =>
    rw [extendSchedule]
    by_cases h : t = W.length
    · subst h
      have h1 := extendSchedule_take D (W ++ [nextWord D W]) n
      have h2 := congrArg (List.take W.length) h1
      have h3 := congrArg (fun l => l[W.length]?) h1
      rw [List.take_take, List.length_append, Nat.min_eq_left (Nat.le_add_right ..), List.take_left] at h2
      simp only [List.length_append, List.length_singleton] at h3
      rw [h2, List.getD_eq_getElem?_getD]
      rw [List.getElem?_take_of_lt (Nat.lt_succ_self _)] at h3
      rw [h3]
      simp
    · exact ih (W ++ [nextWord D W]) (by rw [List.length_append, List.length_singleton]; omega)
        (by rw [List.length_append, List.length_singleton]; omega)

theorem chunkWords_length (D : Descriptor) (B : List Byte) : (chunkWords D B).length = 16 := by
  simp [chunkWords]

theorem schedule_length (D : Descriptor) (B : List Byte) (h : 16 ≤ D.rounds) :
    (schedule D (chunkWords D B)).length = D.rounds := by
  rw [schedule, extendSchedule_length, chunkWords_length]
  omega

/-- The first sixteen words are the chunk's (R260, R262). -/
theorem schedule_first (D : Descriptor) (B : List Byte) (t : Nat) (ht : t < 16) :
    (schedule D (chunkWords D B)).getD t 0#64 = chunkWord D B t := by
  have h := congrArg (fun l => l[t]?) (extendSchedule_take D (chunkWords D B) (D.rounds - 16))
  simp only [chunkWords_length] at h
  rw [List.getElem?_take_of_lt ht] at h
  rw [schedule, List.getD_eq_getElem?_getD, h]
  simp [chunkWords, ht]

/-- Every later word is computed from the words before it (R260, R262). -/
theorem schedule_next (D : Descriptor) (B : List Byte) (t : Nat) (ht : 16 ≤ t) (hr : t < D.rounds) :
    (schedule D (chunkWords D B)).getD t 0#64 = nextWord D ((schedule D (chunkWords D B)).take t) :=
  extendSchedule_next D _ _ t (by rw [chunkWords_length]; exact ht) (by rw [chunkWords_length]; omega)

/-- A word looked up `k` words back from the end of a prefix. -/
theorem take_back (W : List Word64) (t k : Nat) (hk : 0 < k) (ht : k ≤ t) (hl : t ≤ W.length) :
    (W.take t).getD ((W.take t).length - k) 0#64 = W.getD (t - k) 0#64 := by
  rw [List.length_take, Nat.min_eq_left hl, List.getD_eq_getElem?_getD, List.getD_eq_getElem?_getD,
    List.getElem?_take_of_lt (by omega)]

/-- The same in a schedule. -/
theorem schedule_back (D : Descriptor) (B : List Byte) (t k : Nat) (hR : 16 ≤ D.rounds) (hk : 0 < k)
    (ht : k ≤ t) (hl : t ≤ D.rounds) :
    ((schedule D (chunkWords D B)).take t).getD (((schedule D (chunkWords D B)).take t).length - k) 0#64 =
      (schedule D (chunkWords D B)).getD (t - k) 0#64 :=
  take_back _ t k hk ht (by rw [schedule_length D B hR]; exact hl)

end Sys2Proof.Machine
end

