-- ==== Sys2Proof/Laws/Step.lean ====
section
/-! SUPPORT. Everything a host transaction and a step can do, said once: `exec_effect` and `step_next`. -/

namespace Sys2Proof.Machine

/-- The register at an offset stands at that offset (R30). -/
theorem regAt_offset {off : RegOffset} {r : Reg} (h : regAt off = some r) : off = r.offset := by
  have hn : off.toNat = r.offset.toNat := by
    unfold regAt at h
    split at h
    · cases h
    · split at h
      case h_10 q _ _ _ _ _ _ _ _ _ =>
        split at h
        · cases h
          simp only [Reg.offset, BitVec.toNat_ofNat]
          omega
        · cases h
      all_goals
        cases h
        simp only [Reg.offset, ctrlOffset, cmdOffset, BitVec.toNat_ofNat]
        omega
  exact BitVec.eq_of_toNat_eq hn

/-- What a host transaction does to the state, and which operations do it. -/
inductive HostEffect (i : Instr) (s : State) : State → Prop where
  | unchanged : HostEffect i s s
  | read (hi : isRead i = true) (v : Word32) (d : Nat) : HostEffect i s ((s.setDraws d).reply v)
  | irqEn (v : Word32) (hi : i = .regWr 0x0018#15 v) :
      HostEffect i s (s.setIrqEn (doneEnOf v) (errEnOf v))
  | alg (h : s.busy = false) (hi : isRead i = false) (a : BitVec 4) : HostEffect i s (s.setAlg a)
  | lenLo (h : s.busy = false) (v : Word32) (hi : i = .regWr 0x0010#15 v) :
      HostEffect i s (s.setMsgLenLo v)
  | lenHi (h : s.busy = false) (v : Word32) (hi : i = .regWr 0x0014#15 v) :
      HostEffect i s (s.setMsgLenHi v)
  | rejected (h : s.busy = false) (c : BitVec 4) (hc : 1 ≤ c.toNat ∧ c.toNat ≤ 4)
      (hi : i = .hash ∨ ∃ op, i = .cmdReserved op) : HostEffect i s (s.setStatus false true c)
  | accepted (h : s.busy = false) (hi : i = .hash) (D : Descriptor) (hD : hashCheck s = .ok D) :
      HostEffect i s (acceptHash (s.setStatus false false 0#4) D)
  | cleared (h : s.busy = false) (hi : i = .clear) :
      HostEffect i s (s.setStatus false false 0#4).zeroResults
  | stored (h : s.busy = false) (a n : Nat) (v : Word32) (hi : windowWriteOf i = some (a, n))
      (hn : n = 1 ∨ n = 2 ∨ n = 4) (he : windowEffective s.memSize.bytes a n = true) :
      HostEffect i s (s.setMem (s.mem.write a n v))

theorem hashCommand_effect {s : State} (h : s.busy = false) : HostEffect .hash s (hashCommand s) := by
  rcases hashCommand_cases s with ⟨c, hc, he⟩ | ⟨D, hD, he⟩
  · rw [he]
    refine .rejected h c ?_ (.inl rfl)
    rcases hashCheck_error hc with ⟨-, rfl⟩ | ⟨-, -, rfl⟩ | ⟨-, -, -, rfl⟩ <;> decide
  · rw [he]
    exact .accepted h rfl D hD

theorem writeCtrl_effect {i : Instr} (hi : isRead i = false) (s : State) (v : Word32) :
    HostEffect i s (s.writeCtrl v) := by
  rcases s.writeCtrl_cases v with ⟨h, he⟩ | ⟨-, he⟩ <;> rw [he]
  · exact .alg h hi _
  · exact .unchanged

theorem writeOffset_effect (s : State) (off : RegOffset) (v : Word32)
    (hw : (Instr.regWr off v).wf = true) : HostEffect (.regWr off v) s (writeOffset s off v) := by
  unfold writeOffset
  split
  · rename_i r hr
    have ho := regAt_offset hr
    subst ho
    rcases writeReg_cases s v r with ⟨rfl, he⟩ | ⟨rfl, -⟩ | ⟨rfl, -, -⟩ | ⟨rfl, h, he⟩ | ⟨rfl, h, he⟩ | he
    · rw [he]; exact .irqEn v rfl
    · simp [Instr.wf, Reg.offset] at hw
    · simp [Instr.wf, Reg.offset] at hw
    · rw [he]; exact .lenLo h v rfl
    · rw [he]; exact .lenHi h v rfl
    · rw [he]; exact .unchanged
  · exact .unchanged

theorem windowWrite_effect {i : Instr} {a n : Nat} (hi : windowWriteOf i = some (a, n))
    (hn : n = 1 ∨ n = 2 ∨ n = 4) (s : State) (v : Word32) : HostEffect i s (s.windowWrite a n v) := by
  rcases s.windowWrite_cases a n v with ⟨h, he, hw⟩ | ⟨-, hw⟩ <;> rw [hw]
  · exact .stored h a n v hi hn he
  · exact .unchanged

/-- Every well-formed operation answers a next state, which differs from the old one as `HostEffect`
says. -/
theorem exec_effect (i : Instr) (s : State) (hw : i.wf = true) :
    ∃ t, exec i s = .next t ∧ HostEffect i s t := by
  cases i with
  | nop => exact ⟨_, rfl, .unchanged⟩
  | hash =>
    refine ⟨_, rfl, ?_⟩
    cases h : s.busy with
    | false => rw [State.unlessBusy_of_idle _ h]; exact hashCommand_effect h
    | true => rw [State.unlessBusy_of_busy _ h]; exact .unchanged
  | clear =>
    refine ⟨_, rfl, ?_⟩
    cases h : s.busy with
    | false => rw [State.unlessBusy_of_idle _ h]; exact .cleared h rfl
    | true => rw [State.unlessBusy_of_busy _ h]; exact .unchanged
  | cmdReserved op =>
    refine ⟨_, rfl, ?_⟩
    rcases runCommand_cases s op with he | ⟨h, ⟨rfl, -⟩ | ⟨rfl, -⟩ | ⟨-, he⟩⟩
    · rw [he]; exact .unchanged
    · simp [Instr.wf] at hw
    · simp [Instr.wf] at hw
    · rw [he]; exact .rejected h errCmdReserved (by decide) (.inr ⟨op, rfl⟩)
  | sha1 rsv => exact ⟨_, rfl, writeCtrl_effect rfl s _⟩
  | sha224 rsv => exact ⟨_, rfl, writeCtrl_effect rfl s _⟩
  | sha256 rsv => exact ⟨_, rfl, writeCtrl_effect rfl s _⟩
  | sha384 rsv => exact ⟨_, rfl, writeCtrl_effect rfl s _⟩
  | sha512 rsv => exact ⟨_, rfl, writeCtrl_effect rfl s _⟩
  | sha512_224 rsv => exact ⟨_, rfl, writeCtrl_effect rfl s _⟩
  | sha512_256 rsv => exact ⟨_, rfl, writeCtrl_effect rfl s _⟩
  | algReserved0 rsv => exact ⟨_, rfl, writeCtrl_effect rfl s _⟩
  | algReserved8F rsv low => exact ⟨_, rfl, writeCtrl_effect rfl s _⟩
  | regRd off => exact ⟨_, rfl, .read rfl _ s.draws⟩
  | regWr off data => exact ⟨_, rfl, writeOffset_effect s off data hw⟩
  | regNarrow dir size off data =>
    cases dir with
    | read => exact ⟨_, rfl, .read rfl _ s.draws⟩
    | write => exact ⟨_, rfl, .unchanged⟩
  | msgRd8 a => exact ⟨_, rfl, .read rfl _ _⟩
  | msgRd16 a => exact ⟨_, rfl, .read rfl _ _⟩
  | msgRd32 a => exact ⟨_, rfl, .read rfl _ _⟩
  | msgWr8 a data => exact ⟨_, rfl, windowWrite_effect rfl (by simp) s _⟩
  | msgWr16 a data => exact ⟨_, rfl, windowWrite_effect rfl (by simp) s _⟩
  | msgWr32 a data => exact ⟨_, rfl, windowWrite_effect rfl (by simp) s _⟩

/-- What one engine step does. -/
inductive EngineEffect (s : State) : State → Prop where
  | idle (h : s.phase = .idle) : EngineEffect s s
  | load (D : Descriptor) (hD : desc s.algL = some D) (h : s.phase = .load) : EngineEffect s (loadStep D s)
  | round (D : Descriptor) (hD : desc s.algL = some D) (h : s.phase = .round) : EngineEffect s (roundStep D s)
  | fold (D : Descriptor) (hD : desc s.algL = some D) (h : s.phase = .fold) : EngineEffect s (foldStep D s)
  | output (D : Descriptor) (hD : desc s.algL = some D) (h : s.phase = .output) :
      EngineEffect s (outputStep D s)

theorem withDescriptor_next {s t : State} {f : Descriptor → State → State}
    (h : withDescriptor s f = .next t) : ∃ D, desc s.algL = some D ∧ t = f D s := by
  unfold withDescriptor at h
  split at h
  · cases h
    exact ⟨_, ‹_›, rfl⟩
  · cases h

theorem engineStep_next {s t : State} (h : engineStep s = .next t) : EngineEffect s t := by
  unfold engineStep at h
  cases hp : s.phase <;> simp only [hp] at h
  · cases h
    exact .idle hp
  all_goals
    obtain ⟨D, hD, rfl⟩ := withDescriptor_next h
    constructor <;> assumption

theorem hostStep_next {w : Word64} {s t : State} (h : hostStep w s = .next t) :
    ∃ i, decode w = .instr i ∧ exec i s = .next t := by
  unfold hostStep at h
  split at h
  · exact ⟨_, ‹_›, h⟩
  · cases h

/-- What one step does: a host transaction, an engine step or a reset, on the state with the action
taken from the inbox. -/
theorem step_next {s t : State} (h : step s = .next t) :
    (∃ w rest i, s.inbox = .host w :: rest ∧ decode w = .instr i ∧
      exec i (s.setInbox rest) = .next t ∧ HostEffect i (s.setInbox rest) t) ∨
    (s.nextAction = .engine ∧ EngineEffect (s.setInbox s.inbox.tail) t) ∨
    (∃ rest, s.inbox = .reset :: rest ∧ t = (s.setInbox rest).applyReset) := by
  unfold step at h
  split at h
  · rename_i hq
    refine .inr (.inl ⟨by simp [State.nextAction, hq], ?_⟩)
    have ht : s.inbox.tail = s.inbox := by rw [hq]; rfl
    rw [ht]
    exact engineStep_next h
  · rename_i w rest hq
    obtain ⟨i, hi, he⟩ := hostStep_next h
    obtain ⟨u, hu, hf⟩ := exec_effect i (s.setInbox rest) (decode_wf hi)
    rw [he] at hu
    cases hu
    exact .inl ⟨w, rest, i, hq, hi, he, hf⟩
  · rename_i rest hq
    refine .inr (.inl ⟨by simp [State.nextAction, hq], ?_⟩)
    rw [hq]
    exact engineStep_next h
  · rename_i rest hq
    cases h
    exact .inr (.inr ⟨rest, hq, rfl⟩)

end Sys2Proof.Machine
end

