-- ==== Sys2Proof/Tests/Slice0.lean ====
section
/-! SUPPORT. Tests and witnesses. Every expected value is the spec's: 95_test_vectors.md (the vector is named in
each comment), the examples of the rules, or the encoding tables of 30_encoding.md written out bit by bit. -/

namespace Sys2Proof.Tests

open Sys2Proof Sys2Proof.Machine

/-! ### WellFormed: one ill-formed term for each check -/

theorem test_wf_refuses_cmdReserved_nop : (Instr.cmdReserved 0#32).wf = false := by decide
theorem test_wf_refuses_cmdReserved_hash : (Instr.cmdReserved 1#32).wf = false := by decide
theorem test_wf_refuses_cmdReserved_clear : (Instr.cmdReserved 2#32).wf = false := by decide
theorem test_wf_refuses_regWr_ctrl : (Instr.regWr 0x0004#15 3#32).wf = false := by decide
theorem test_wf_refuses_regWr_cmd : (Instr.regWr 0x0008#15 1#32).wf = false := by decide
theorem test_wf_refuses_narrow_read_data : (Instr.regNarrow .read .byte 0#15 1#32).wf = false := by decide
theorem test_wf_accepts : (Instr.cmdReserved 3#32).wf = true ∧ (Instr.regWr 0x0018#15 1#32).wf = true ∧
    (Instr.regNarrow .read .half 0#15 0#32).wf = true ∧
    (Instr.regNarrow .write .half 0#15 1#32).wf = true := by decide

/-! ### Decode: words written out from R104's table, R101 and R102

Bit 63 is DIR, bits 57:56 SZ, bits 47:32 OFF, bits 31:0 DATA. -/

/-- `wr32 CMD, 0x0`. -/
theorem test_decode_nop :
    decode 0b1000001000000000000000000000100000000000000000000000000000000000#64 =
      .instr (.nop) := by decide

/-- `wr32 CMD, 0x1`. -/
theorem test_decode_hash :
    decode 0b1000001000000000000000000000100000000000000000000000000000000001#64 =
      .instr (.hash) := by decide

/-- `wr32 CMD, 0x2`. -/
theorem test_decode_clear :
    decode 0b1000001000000000000000000000100000000000000000000000000000000010#64 =
      .instr (.clear) := by decide

/-- `wr32 CMD, 0x101: the whole word is the opcode (R101)`. -/
theorem test_decode_cmdReserved :
    decode 0b1000001000000000000000000000100000000000000000000000000100000001#64 =
      .instr (.cmdReserved 0x101#32) := by decide

/-- `wr32 CTRL, 0x1`. -/
theorem test_decode_sha1 :
    decode 0b1000001000000000000000000000010000000000000000000000000000000001#64 =
      .instr (.sha1 0#28) := by decide

/-- `wr32 CTRL, 0x2`. -/
theorem test_decode_sha224 :
    decode 0b1000001000000000000000000000010000000000000000000000000000000010#64 =
      .instr (.sha224 0#28) := by decide

/-- `wr32 CTRL, 0xFFFFFFF3 (V-REG-1)`. -/
theorem test_decode_sha256 :
    decode 0b1000001000000000000000000000010011111111111111111111111111110011#64 =
      .instr (.sha256 0xFFFFFFF#28) := by decide

/-- `wr32 CTRL, 0x4`. -/
theorem test_decode_sha384 :
    decode 0b1000001000000000000000000000010000000000000000000000000000000100#64 =
      .instr (.sha384 0#28) := by decide

/-- `wr32 CTRL, 0x5`. -/
theorem test_decode_sha512 :
    decode 0b1000001000000000000000000000010000000000000000000000000000000101#64 =
      .instr (.sha512 0#28) := by decide

/-- `wr32 CTRL, 0x6`. -/
theorem test_decode_sha512_224 :
    decode 0b1000001000000000000000000000010000000000000000000000000000000110#64 =
      .instr (.sha512_224 0#28) := by decide

/-- `wr32 CTRL, 0x7`. -/
theorem test_decode_sha512_256 :
    decode 0b1000001000000000000000000000010000000000000000000000000000000111#64 =
      .instr (.sha512_256 0#28) := by decide

/-- `wr32 CTRL, 0x50`. -/
theorem test_decode_algReserved0 :
    decode 0b1000001000000000000000000000010000000000000000000000000001010000#64 =
      .instr (.algReserved0 5#28) := by decide

/-- `wr32 CTRL, 0xd`. -/
theorem test_decode_algReserved8F :
    decode 0b1000001000000000000000000000010000000000000000000000000000001101#64 =
      .instr (.algReserved8F 0#28 5#3) := by decide

/-- `rd32 DIGEST15`. -/
theorem test_decode_regRd :
    decode 0b0000001000000000000000000111110000000000000000000000000000000000#64 =
      .instr (.regRd 0x007C#15) := by decide

/-- `wr32 IRQ_EN, 0x2`. -/
theorem test_decode_regWr :
    decode 0b1000001000000000000000000001100000000000000000000000000000000010#64 =
      .instr (.regWr 0x0018#15 2#32) := by decide

/-- `wr16 CTRL, 0x5 (V-REG-12)`. -/
theorem test_decode_regNarrow_wr16 :
    decode 0b1000000100000000000000000000010000000000000000000000000000000101#64 =
      .instr (.regNarrow .write .half 0x0004#15 5#32) := by decide

/-- `rd8 STATUS`. -/
theorem test_decode_regNarrow_rd8 :
    decode 0b0000000000000000000000000000110000000000000000000000000000000000#64 =
      .instr (.regNarrow .read .byte 0x000C#15 0#32) := by decide

/-- `rd8 MSG+5`. -/
theorem test_decode_msgRd8 :
    decode 0b0000000000000000100000000000010100000000000000000000000000000000#64 =
      .instr (.msgRd8 5#15) := by decide

/-- `rd16 MSG+2`. -/
theorem test_decode_msgRd16 :
    decode 0b0000000100000000100000000000001000000000000000000000000000000000#64 =
      .instr (.msgRd16 2#15) := by decide

/-- `rd32 MSG+0x7FFC`. -/
theorem test_decode_msgRd32 :
    decode 0b0000001000000000111111111111110000000000000000000000000000000000#64 =
      .instr (.msgRd32 0x7FFC#15) := by decide

/-- `wr8 MSG+1, 0x62`. -/
theorem test_decode_msgWr8 :
    decode 0b1000000000000000100000000000000100000000000000000000000001100010#64 =
      .instr (.msgWr8 1#15 0x62#32) := by decide

/-- `wr16 MSG+2, 0x6380`. -/
theorem test_decode_msgWr16 :
    decode 0b1000000100000000100000000000001000000000000000000110001110000000#64 =
      .instr (.msgWr16 2#15 0x6380#32) := by decide

/-- `wr32 MSG+4, 0x62636465 (P2)`. -/
theorem test_decode_msgWr32 :
    decode 0b1000001000000000100000000000010001100010011000110110010001100101#64 =
      .instr (.msgWr32 4#15 0x62636465#32) := by decide

/-- Bit 62 is reserved (R104). -/
theorem test_decode_rejects_reserved_high :
    decode 0b1100001000000000000000000000100000000000000000000000000000000001#64 =
      .reject .reservedBitSet := by decide

/-- Bit 48 is reserved (R104). -/
theorem test_decode_rejects_reserved_low :
    decode 0b1000001000000001000000000000100000000000000000000000000000000001#64 =
      .reject .reservedBitSet := by decide

/-- SZ = 3 is not used (R104). -/
theorem test_decode_rejects_size_three :
    decode 0b1000001100000000000000000000100000000000000000000000000000000001#64 =
      .reject .sizeNotUsed := by decide

/-- R104's example: `wr32 CMD, 0x1`. -/
theorem test_encode_hash : encode .hash = 0x8200000800000001#64 := by decide

/-! ### The opcode table's words, and the first step after reset -/

/-- The rows of format CMD, and the words of format CTRL that no command takes (log 6). -/
theorem test_table_words32 :
    decodeTableWord 32 0 = some .nop ∧ decodeTableWord 32 1 = some .hash ∧
    decodeTableWord 32 2 = some .clear ∧ decodeTableWord 32 0x10 = some (.cmdReserved 0x10#32) ∧
    decodeTableWord 32 3 = some (.sha256 0#28) ∧ decodeTableWord 32 4 = some (.sha384 0#28) ∧
    decodeTableWord 32 5 = some (.sha512 0#28) ∧ decodeTableWord 32 6 = some (.sha512_224 0#28) ∧
    decodeTableWord 32 7 = some (.sha512_256 0#28) ∧
    decodeTableWord 32 8 = some (.algReserved8F 0#28 0#3) := by decide

/-- The rows of format TRACE. -/
theorem test_table_words64 :
    decodeTableWord 64 0x0200000000000000 = some (.regRd 0#15) ∧
    decodeTableWord 64 0x8200000000000000 = some (.regWr 0#15 0#32) ∧
    decodeTableWord 64 0 = some (.regNarrow .read .byte 0#15 0#32) ∧
    decodeTableWord 64 0x0000800000000000 = some (.msgRd8 0#15) ∧
    decodeTableWord 64 0x0100800000000000 = some (.msgRd16 0#15) ∧
    decodeTableWord 64 0x0200800000000000 = some (.msgRd32 0#15) ∧
    decodeTableWord 64 0x8000800000000000 = some (.msgWr8 0#15 0#32) ∧
    decodeTableWord 64 0x8100800000000000 = some (.msgWr16 0#15 0#32) ∧
    decodeTableWord 64 0x8200800000000000 = some (.msgWr32 0#15 0#32) ∧
    decodeTableWord 64 0x0300800000000000 = none ∧ decodeTableWord 16 0 = none := by decide

/-- What a step or a meaning leaves, when it gives a next state. -/
def observe {α : Type} (r : Result) (f : State → α) : Option α :=
  match r with
  | .next t => some (f t)
  | .fault _ => none
  | .refused _ => none

/-- `hash` as the first transaction after reset: V-CMD-1. -/
theorem test_first_step_hash :
    observe (step (State.reset.withFetchWord 32 1)) State.statusWord = some 0x00000014#32 := by decide

/-- `rd32 ID` as the first transaction after reset: V-REG-2. -/
theorem test_first_step_regRd :
    observe (step (State.reset.withFetchWord 64 0x0200000000000000)) State.readData =
      some 0x54480001#32 := by decide

/-- A word that spells no transaction is refused by name (log 11). -/
theorem test_first_step_refused :
    step (State.reset.withFetchWord 64 0x0300800000000000) =
      .refused (.notATraceWord 0x0300800000000000#64) := rfl

/-! ### Small states -/

/-- After reset, with the parameter the spec's vectors assume: `MSG_MEM_BYTES = 256`. -/
def base : State := { State.reset with memSize := ⟨256, by decide⟩ }

/-- "abc" written at byte 0. -/
def abcMem : Memory := [(0, 0x61#8), (1, 0x62#8), (2, 0x63#8)]

/-- Ready to hash "abc" with SHA-256. -/
def ready : State := { base with alg := 0x3#4, msgLenLo := 3#32, mem := abcMem }

/-- A HASH of "abc" accepted. -/
def loading : State := acceptHash ready descSha256

/-- A completed HASH: STATUS = 0x00000002. -/
def finished : State := { base with done := true, chunks := 1#32, digest := Vector.replicate 16 7#32 }

/-- A rejected command: STATUS = 0x00000044. -/
def failed : State := { base with err := true, errCode := 4#4 }

/-- `s` with some actions waiting. -/
def waiting (s : State) (q : List Action) : State := s.setInbox q

/-! ### Commands (V-CMD) -/

/-- V-CMD-16. -/
theorem test_nop : observe (exec .nop finished) State.statusWord = some 0x00000002#32 := by decide

/-- V-CMD-7: 257 bytes do not fit 256. -/
theorem test_hash_too_long :
    observe (exec .hash { ready with msgLenLo := 257#32 }) State.statusWord = some 0x00000034#32 := by decide

/-- V-CMD-3: ALG is checked first. -/
theorem test_hash_alg_first :
    observe (exec .hash { ready with alg := 0xF#4, msgLenHi := 0x20000000#32 }) State.statusWord =
      some 0x00000014#32 := by decide

/-- V-CMD-4 and V-CMD-6: 2^61 is not representable, 2^61 - 1 is. -/
theorem test_hash_unrepresentable :
    observe (exec .hash { ready with msgLenHi := 0x20000000#32, msgLenLo := 0#32 }) State.statusWord =
      some 0x00000024#32 ∧
    observe (exec .hash { ready with msgLenHi := 0x1FFFFFFF#32, msgLenLo := 0xFFFFFFFF#32 })
      State.statusWord = some 0x00000034#32 := by decide

/-- V-CMD-8 and V-CMD-20: a full memory is accepted with 5 chunks, and an earlier error is cleared. -/
theorem test_hash_accepted :
    observe (exec .hash { ready with msgLenLo := 256#32, err := true, errCode := 1#4 })
      (fun t => (t.statusWord, t.nch)) = some (0x00000001#32, 5#32) := by decide

/-- V-CMD-18. -/
theorem test_clear :
    observe (exec .clear finished) (fun t => (t.statusWord, t.chunks, t.digest[0])) =
      some (0#32, 0#32, 0#32) := by decide

/-- V-CMD-14. -/
theorem test_cmdReserved :
    observe (exec (.cmdReserved 3#32) finished) (fun t => (t.statusWord, t.digest[0])) =
      some (0x00000044#32, 7#32) := by decide

/-- V-CMD-19: everything is ignored while busy. -/
theorem test_commands_while_busy :
    observe (exec .clear { base with busy := true, phase := .round }) State.statusWord =
      some 0x00000001#32 ∧
    observe (exec (.cmdReserved 3#32) { base with busy := true, phase := .round }) State.statusWord =
      some 0x00000001#32 := by decide

/-! ### CTRL and the other registers (V-REG) -/

/-- V-REG-1, and R103's codes. -/
theorem test_ctrl_rows :
    observe (exec (.sha256 0xFFFFFFF#28) base) State.ctrlWord = some 0x00000003#32 ∧
    observe (exec (.sha1 0#28) base) State.ctrlWord = some 0x00000001#32 ∧
    observe (exec (.sha224 0#28) base) State.ctrlWord = some 0x00000002#32 ∧
    observe (exec (.sha384 0#28) base) State.ctrlWord = some 0x00000004#32 ∧
    observe (exec (.sha512 0#28) base) State.ctrlWord = some 0x00000005#32 ∧
    observe (exec (.sha512_224 0#28) base) State.ctrlWord = some 0x00000006#32 ∧
    observe (exec (.sha512_256 0#28) base) State.ctrlWord = some 0x00000007#32 ∧
    observe (exec (.algReserved0 1#28) ready) State.ctrlWord = some 0x00000000#32 ∧
    observe (exec (.algReserved8F 1#28 7#3) ready) State.ctrlWord = some 0x0000000F#32 := by decide

/-- P3 transactions 15 and 17: STATUS with ERR_CODE 4. -/
theorem test_regRd_status :
    observe (exec (.regRd 0x000C#15) failed) State.readData = some 0x00000044#32 := by decide

/-- V-REG-13 and V-REG-11: unmapped and misaligned offsets read 0. -/
theorem test_regRd_unmapped :
    observe (exec (.regRd 0x003C#15) ready) State.readData = some 0#32 ∧
    observe (exec (.regRd 0x7FFC#15) ready) State.readData = some 0#32 ∧
    observe (exec (.regRd 0x0006#15) ready) State.readData = some 0#32 := by decide

/-- V-REG-8. -/
theorem test_regWr_irqEn :
    observe (exec (.regWr 0x0018#15 0xFFFFFFFF#32) base) State.irqEnWord = some 0x00000003#32 := by decide

/-- V-REG-9. -/
theorem test_regWr_msgLen :
    observe (exec (.regWr 0x0010#15 0x89ABCDEF#32) base) State.msgLen = some 0x89ABCDEF#64 ∧
    observe (exec (.regWr 0x0014#15 0x01234567#32) base) State.msgLen =
      some 0x0123456700000000#64 := by decide

/-- V-REG-10 and V-REG-12. -/
theorem test_regNarrow :
    observe (exec (.regNarrow .read .half 0x000C#15 0#32) failed) State.readData = some 0#32 ∧
    observe (exec (.regNarrow .write .half 0x0004#15 5#32) ready) State.ctrlWord = some 3#32 := by decide

/-- V-IRQ-6, V-IRQ-7, V-IRQ-10, V-IRQ-11 and V-IRQ-13. -/
theorem test_irq :
    State.irq { finished with doneEn := true } = true ∧ State.irq { finished with errEn := true } = false ∧
    State.irq { failed with doneEn := true } = false ∧ State.irq { failed with errEn := true } = true ∧
    State.irq { base with busy := true, phase := .load, doneEn := true, errEn := true } = false := by decide

/-- V-RST-3: reset drops `irq` and keeps MEMSIZE. -/
theorem test_reset :
    observe (step (waiting { finished with doneEn := true } [.reset]))
      (fun t => (t.irq, t.statusWord, t.memSize.bytes)) = some (false, 0#32, 256) := by decide

/-! ### The message window (V-REG) -/

/-- The state of V-REG-15 to V-REG-18: 0x61626380 written at byte 0. -/
def written : State := { base with mem := base.mem.write 0 4 0x61626380#32 }

/-- V-REG-15: big-endian lanes. -/
theorem test_msgWr32 :
    observe (exec (.msgWr32 0#15 0x61626380#32) base) State.mem =
      some [(0, 0x61#8), (1, 0x62#8), (2, 0x63#8), (3, 0x80#8)] := by decide

/-- V-REG-15. -/
theorem test_msgRd :
    observe (exec (.msgRd8 0#15) written) State.readData = some 0x61#32 ∧
    observe (exec (.msgRd8 3#15) written) State.readData = some 0x80#32 ∧
    observe (exec (.msgRd16 2#15) written) State.readData = some 0x6380#32 ∧
    observe (exec (.msgRd32 0#15) written) State.readData = some 0x61626380#32 := by decide

/-- V-REG-16, V-REG-17 and V-REG-19: misaligned or past the end. -/
theorem test_window_ineffective :
    observe (exec (.msgRd16 1#15) written) State.readData = some 0#32 ∧
    observe (exec (.msgWr16 1#15 0xFFFF#32) written) State.mem = some written.mem ∧
    observe (exec (.msgRd32 256#15) written) State.readData = some 0#32 ∧
    observe (exec (.msgWr32 256#15 1#32) written) State.mem = some written.mem := by decide

/-- V-REG-18 and V-REG-22: only data[7:0] is stored, and a zero byte is written. -/
theorem test_msgWr8 :
    observe (exec (.msgWr8 0#15 0x1FF#32) written) (fun t => t.mem.lookup 0) = some (some 0xFF#8) ∧
    observe (exec (.msgWr8 5#15 0#32) base) State.mem = some [(5, 0#8)] := by decide

/-- R77 at n = 2. -/
theorem test_msgWr16 :
    observe (exec (.msgWr16 2#15 0x12346380#32) base) State.mem =
      some [(2, 0x63#8), (3, 0x80#8)] := by decide

/-- V-REG-21: an unwritten byte is drawn. -/
theorem test_msgRd8_unwritten : observe (exec (.msgRd8 5#15) base) State.draws = some 1 := by decide

/-! ### The datapath -/

/-- V-BIT-2, V-BIT-8, V-BIT-13, V-BIT-16, V-BIT-21 and V-BIT-27. -/
theorem test_bits_rotate_shift :
    rotr 0x12345678#32 36 = 0x81234567#32 ∧ rotr 0x0001#16 17 = 0x8000#16 ∧
    rotl 0x12345678#32 40 = 0x34567812#32 ∧ rotl 0x12#8 3 = 0x90#8 ∧
    shr 0xFFFFFFFF#32 32 = 0#32 ∧ byteSwap 0x1234#16 = 0x3412#16 := by decide

/-- V-BIT-28, V-BIT-31 to V-BIT-33, V-BIT-35, V-BIT-36 and V-BIT-40. -/
theorem test_bits_pack_keep :
    pack4 0x61#8 0x62#8 0x63#8 0x80#8 = 0x61626380#32 ∧ keepLeft 0xDEADBEEF#32 1 = 0x80000000#32 ∧
    keepLeft 0xDEADBEEF#32 31 = 0xDEADBEEE#32 ∧ keepRight 0xDEADBEEF#32 12 = 0xEEF#32 ∧
    keepLeft 0x0123456789ABCDEF#64 32 = 0x0123456700000000#64 ∧ setBit 0#8 7 = 0x80#8 ∧
    unpack 0x61626380#32 = [0x61#8, 0x62#8, 0x63#8, 0x80#8] := by decide

/-- V-BIT-42 and V-BIT-44. -/
theorem test_bits_hex : toHex 0x0A#8 = ['0', 'a'] ∧
    toHex 0xDEADBEEF#32 = ['d', 'e', 'a', 'd', 'b', 'e', 'e', 'f'] := by decide

/-- U5: outside the domain a primitive is refused. -/
theorem test_bits_refused :
    (BitCall.keepLeftN 32 0#32 33).run = none ∧ (BitCall.setNthBit 8 0#8 8).run = none ∧
    (BitCall.rotr 12 0#12 1).run = none ∧
    (BitCall.keepLeftN 32 1#32 32).run = some (.bits 32 1#32) := by decide

/-- V-MIX-1, V-MIX-2, V-MIX-7 and V-MIX-8. -/
theorem test_mixing :
    ch 0x0006#16 0x000A#16 0x002B#16 = 0x002B#16 ∧ maj 0x0006#16 0x000A#16 0x002B#16 = 0x000A#16 ∧
    ch 0x510E527F#32 0x9B05688C#32 0x1F83D9AB#32 = 0x1F85C98C#32 ∧
    maj 0x6A09E667#32 0xBB67AE85#32 0x3C6EF372#32 = 0x3A6FE667#32 := by decide

/-- V-DOC-8 (w = 32) and the examples of R283 to R286 (w = 64). -/
theorem test_sigmas :
    bigSigma rot32.big0 6#32 = 0x80301801#32 ∧ bigSigma rot32.big1 6#32 = 0x18C00300#32 ∧
    smallSigma rot32.small0 6#32 = 0x0C018000#32 ∧ smallSigma rot32.small1 6#32 = 0x0003C000#32 ∧
    bigSigma rot64.big0 6#64 = 0x000000618C000000#64 ∧ bigSigma rot64.big1 6#64 = 0x0019800003000000#64 ∧
    smallSigma rot64.small0 6#64 = 0x0600000000000003#64 ∧
    smallSigma rot64.small1 6#64 = 0x0000C00000000030#64 := by decide

/-- V-RND-1. -/
theorem test_round_sha256 :
    sha2Round rot32 ⟨0x6A09E667#32, 0xBB67AE85#32, 0x3C6EF372#32, 0xA54FF53A#32, 0x510E527F#32,
      0x9B05688C#32, 0x1F83D9AB#32, 0x5BE0CD19#32⟩ 0x61626380#32 0x428A2F98#32 =
      ⟨0x5D6AEBCD#32, 0x6A09E667#32, 0xBB67AE85#32, 0x3C6EF372#32, 0xFA2A4622#32, 0x510E527F#32,
        0x9B05688C#32, 0x1F83D9AB#32⟩ := by decide

/-- V-RND-7: `f`, `g`, `h` stay. -/
theorem test_round_sha1 :
    sha1Round 0 ⟨0x67452301#32, 0xEFCDAB89#32, 0x98BADCFE#32, 0x10325476#32, 0xC3D2E1F0#32, 1#32, 2#32, 3#32⟩
      0x61626380#32 0x5A827999#32 =
      ⟨0x0116FC33#32, 0x67452301#32, 0x7BF36AE2#32, 0x98BADCFE#32, 0x10325476#32, 1#32, 2#32, 3#32⟩ := by
  decide

/-- V-FOLD-3 and V-FOLD-4. -/
theorem test_fold :
    wrapAdd 32 0xFFFFFFFF#64 2#64 = 1#64 ∧ wrapAdd 64 0xFFFFFFFFFFFFFFFF#64 1#64 = 0#64 := by decide

/-- V-PAD-7, V-PAD-8, V-PAD-10 and V-PAD-11: chunks and zero bytes. -/
theorem test_padding_counts :
    (numChunks descSha256 55, zeroCount descSha256 55) = (1, 0) ∧
    (numChunks descSha256 56, zeroCount descSha256 56) = (2, 63) ∧
    (numChunks descSha512 111, zeroCount descSha512 111) = (1, 0) ∧
    (numChunks descSha512 112, zeroCount descSha512 112) = (2, 127) := by decide

/-- V-PAD-13. -/
theorem test_length_field :
    lenField descSha256 (2 ^ 61 - 1) = [0xFF#8, 0xFF#8, 0xFF#8, 0xFF#8, 0xFF#8, 0xFF#8, 0xFF#8, 0xF8#8] := by
  decide

/-- V-PAD-3: the first and the last word of the chunk of "abc". -/
theorem test_chunk_words :
    chunkWord descSha256 (chunkBytes abcMem descSha256 3 0 0).1 0 = 0x61626380#64 ∧
    chunkWord descSha256 (chunkBytes abcMem descSha256 3 0 0).1 15 = 0x00000018#64 := by decide

/-- The chunk's words of V-SCH-1: the empty message. -/
def emptyWords : List Word64 := 0x80000000#64 :: List.replicate 15 0#64

/-- V-SCH-1: `W[16]` to `W[18]`. -/
theorem test_schedule_sha256 :
    (extendSchedule descSha256 emptyWords 3).drop 16 = [0x80000000#64, 0#64, 0x00205000#64] := by decide

/-- V-SCH-5: `W[16]` to `W[19]`. -/
theorem test_schedule_sha1 :
    (extendSchedule descSha1 (1#64 :: List.replicate 15 0#64) 4).drop 16 = [2#64, 0#64, 0#64, 4#64] := by
  decide

/-- V-SER-4: the high half of `H[3]` is the last word, 0 from there on. -/
theorem test_digest_sha512_224 :
    digestWord descSha512_224 (Vector.replicate 8 0x3E8924AAF57C93D9#64) 6 = 0x3E8924AA#32 ∧
    digestWord descSha512_224 (Vector.replicate 8 0x3E8924AAF57C93D9#64) 7 = 0#32 := by decide

/-- P1, transactions 3 to 9 and 11: the trace words of `msg` and `start`, and the last poll of `wait`. -/
theorem test_host_program :
    programWords [([], .msg [0x61#8, 0x62#8, 0x63#8]), ([], .start 3#32 3#64), ([2#32], .wait)] =
      some [0x8000800000000061#64, 0x8000800100000062#64, 0x8000800200000063#64, 0x8200000400000003#64,
        0x8200001000000003#64, 0x8200001400000000#64, 0x8200000800000001#64,
        0x0200000C00000000#64] := by decide

/-- R109: `wait` is `poll STATUS, 0x1, 0x0`; its last read alone ends it. -/
theorem test_wait_words :
    HostOp.wait.words [1#32, 1#32, 2#32] =
      some [0x0200000C00000000#64, 0x0200000C00000000#64, 0x0200000C00000000#64] ∧
    HostOp.wait.words [1#32] = none ∧ HostOp.wait.words [2#32, 2#32] = none ∧
    HostOp.wait.words [] = none := by decide

/-- R108: VAL of `wr8` is at most 8 bits wide. -/
theorem test_host_program_wide_value :
    (HostOp.wr .one 0x8000#16 0xFF#32).words [] = some [0x80008000000000FF#64] ∧
    (HostOp.wr .one 0x8000#16 0x100#32).words [] = none := by decide

/-- Log 24: the 16-bit offsets of R108 end at `MSG+32767`. -/
theorem test_host_program_long_msg (bytes : List Byte) (h : bytes.length = 32769) :
    (HostOp.msg bytes).words [] = none ∧ msgOff 32767 = 0xFFFF#16 := by
  refine ⟨?_, by decide⟩
  simp [HostOp.words, HostOp.spelled, windowBytes, h]

/-! ### Witnesses: a state and operands that meet the hypotheses of each statement, at the ends of its ranges -/

/-- A message-memory access word: `wr8 MSG+1, 0x62` (P1). -/
def storeWord : Word64 := 0x8000800100000062#64

/-- The trace words of the three commands and of a reserved one. -/
def nopWord : Word64 := 0x8200000800000000#64
def hashWord : Word64 := 0x8200000800000001#64
def clearWord : Word64 := 0x8200000800000002#64
def reservedWord : Word64 := 0x8200000800000003#64

/-- A running HASH about to take the step of `p`, under the descriptor of `a`. -/
def running (a : BitVec 4) (p : Phase) (r : BitVec 7) : State :=
  { base with
    alg := a, algL := a, busy := true, phase := p, nch := 2#32, t := r,
    H := Vector.replicate 8 0x89ABCDEF#64, V := Vector.replicate 8 0x89ABCDEF#64 }

/-- A HASH of one chunk about to take OUTPUT. -/
def outputting : State :=
  { running 0x3#4 .output 64#7 with nch := 1#32, j := 1#32, chunks := 1#32 }

/-- P1, transaction 11: `wait` reads STATUS until BUSY is 0. The engine's last step comes before the second
read; the third turn is not used. -/
theorem test_wait_run :
    ∃ t, HostOp.wait.run [0, 1, 5] outputting = .finished t [5] [0x00000001#32, 0x00000002#32] := ⟨_, rfl⟩

/-- `poll` looks at the bits of M only: DONE, which a busy machine does not have. -/
theorem test_poll_run :
    (∃ t, (HostOp.poll 0x000C#16 0x2#32 0x2#32).run [0, 0] outputting = .waiting t [1#32, 1#32]) ∧
    ∃ t, (HostOp.poll 0x000C#16 0x1#32 0x1#32).run [0, 0] outputting = .finished t [0] [1#32] :=
  ⟨⟨_, rfl⟩, _, rfl⟩

theorem witness_ResetInputRestoresEveryValue :
    (waiting ready [.reset, .reset]).nextAction = .reset ∧
    (∃ t, step (waiting ready [.reset, .reset]) = .next t ∧ t.nextAction = .reset) ∧
    (∃ t, step (waiting loading [.reset]) = .next t ∧ loading.busy = true ∧ t.busy = false) ∧
    ∃ t, step outputting = .next t ∧ outputting.busy = true ∧ t.busy = false :=
  ⟨rfl, ⟨_, rfl, rfl⟩, ⟨_, rfl, rfl, rfl⟩, ⟨_, rfl, rfl, rfl⟩⟩

theorem witness_StepRunsTheDecodedTransaction :
    (waiting ready [.host hashWord, .engine]).inbox = .host hashWord :: [.engine] ∧
    decode hashWord = .instr .hash := by decide

theorem witness_OnlyUnspelledWordsAreRefused_bit48 :
    decode 0x0001000000000000#64 = .reject .reservedBitSet := by decide

theorem witness_OnlyUnspelledWordsAreRefused_bit55 :
    decode 0x0080000000000000#64 = .reject .reservedBitSet := by decide

theorem witness_OnlyUnspelledWordsAreRefused_bit58 :
    decode 0x0400000000000000#64 = .reject .reservedBitSet := by decide

theorem witness_OnlyUnspelledWordsAreRefused_bit62 :
    decode 0x4000000000000000#64 = .reject .reservedBitSet := by decide

theorem witness_OnlyUnspelledWordsAreRefused_size :
    decode 0x0300000000000000#64 = .reject .sizeNotUsed := by decide

theorem witness_OnlyUnspelledWordsAreRefused_neighbours :
    decode 0x0000800000000000#64 ≠ .reject .reservedBitSet ∧
    decode 0x0100000000000000#64 ≠ .reject .reservedBitSet ∧
    decode 0x8000000000000000#64 ≠ .reject .reservedBitSet := by decide

theorem witness_OnlyUnspelledWordsAreRefused :
    step (waiting base [.host 0x0001000000000000#64]) = .refused (.notATraceWord 0x0001000000000000#64) := rfl

theorem witness_EngineTurn_idle : (waiting base [.engine]).nextAction = .engine ∧ base.phase = .idle ∧
    base.nextAction = .engine := by decide

theorem witness_EngineTurn_steps :
    ∀ p ∈ [Phase.load, Phase.round, Phase.fold, Phase.output],
      (running 0x1#4 p 0#7).phase = p ∧ (desc (running 0x1#4 p 0#7).algL).isSome = true := by decide

theorem witness_DecodeOfEncodeIsTheOperation :
    (Instr.cmdReserved 3#32).wf = true ∧ (Instr.cmdReserved 0xFFFFFFFF#32).wf = true ∧
    (Instr.regWr 0x0000#15 1#32).wf = true ∧ (Instr.regWr 0x7FFF#15 0xFFFFFFFF#32).wf = true ∧
    (Instr.regNarrow .read .byte 0x7FFF#15 0#32).wf = true := by decide

/-- A write keeps all 64 bits; a read all but the 32 of its DATA field. -/
theorem witness_EncodeOfDecodeIsTheWord :
    decode 0x82000018FFFFFFFF#64 = .instr (.regWr 0x0018#15 0xFFFFFFFF#32) ∧
    (0x82000018FFFFFFFF#64).getLsbD 63 = true ∧
    decode 0x02000018FFFFFFFF#64 = .instr (.regRd 0x0018#15) ∧
    (0x02000018FFFFFFFF#64).getLsbD 63 = false := by decide

theorem witness_CommandsWhileBusyChangeNothing : loading.busy = true := rfl

theorem witness_HashReports_algorithm : base.busy = false ∧ base.alg.toNat = 0 ∧
    8 ≤ (0x8#4).toNat ∧ 8 ≤ (0xF#4).toNat := by decide

theorem witness_HashReports_unrepresentable :
    ∀ a ∈ [0x1#4, 0x7#4], 1 ≤ a.toNat ∧ a.toNat ≤ 7 ∧ 2 ^ 61 ≤ (0x20000000#32 ++ 0#32).toNat := by decide

theorem witness_HashReports_too_long :
    (0x1FFFFFFF#32 ++ 0xFFFFFFFF#32).toNat < 2 ^ 61 ∧
    base.memSize.bytes < (0#32 ++ 257#32).toNat ∧ (0#32 ++ 257#32).toNat < 2 ^ 61 := by decide

theorem witness_HashReports_accepted :
    ready.busy = false ∧ ready.alg.toNat = 3 ∧ (0#32 ++ 256#32).toNat ≤ ready.memSize.bytes ∧
    (0#32 ++ 0#32).toNat ≤ ready.memSize.bytes := by decide

theorem witness_AcceptedHashStartsTheEngine :
    ready.busy = false ∧ desc ready.alg = some descSha256 ∧
    (ready.msgLenHi ++ ready.msgLenLo).toNat ≤ ready.memSize.bytes ∧
    ({ ready with msgLenLo := 256#32 } : State).msgLen.toNat ≤ ready.memSize.bytes :=
  ⟨rfl, rfl, by decide, by decide⟩

theorem witness_ClearResetsTheResults : finished.busy = false ∧ finished.done = true := by decide

theorem witness_ReservedCommandIsRejected :
    finished.busy = false ∧ 2 < (3#32).toNat ∧ 2 < (0xFFFFFFFF#32).toNat := by decide

theorem witness_CtrlWriteStoresTheAlgorithmCode : finished.busy = false := rfl

theorem witness_RegisterRead_unmapped :
    (0x0001#15).toNat % 4 ≠ 0 ∧ (0x0007#15).toNat % 4 ≠ 0 ∧ (0x0042#15).toNat % 4 ≠ 0 ∧
    (0x24 ≤ (0x0024#15).toNat ∧ (0x0024#15).toNat < 0x40) ∧
    (0x24 ≤ (0x003C#15).toNat ∧ (0x003C#15).toNat < 0x40) ∧
    0x80 ≤ (0x0080#15).toNat ∧ 0x80 ≤ (0x7FFC#15).toNat := by decide

theorem witness_RegisterWrite_busy :
    loading.busy = true ∧ 0x0000#15 ≠ 0x0018#15 ∧ 0x0017#15 ≠ 0x0018#15 ∧ 0x0019#15 ≠ 0x0018#15 ∧
    0x7FFF#15 ≠ 0x0018#15 := ⟨rfl, by decide, by decide, by decide, by decide⟩

theorem witness_RegisterWrite_idle : ready.busy = false := rfl

theorem witness_RegisterWrite_nothing :
    (0x0001#15).toNat % 4 ≠ 0 ∧ (0x0000#15).toNat = 0x00 ∧ (0x000C#15).toNat = 0x0C ∧
    0x1C ≤ (0x001C#15).toNat ∧ 0x1C ≤ (0x007C#15).toNat ∧ 0x1C ≤ (0x7FFC#15).toNat := by decide

theorem witness_WritesWhileBusyAreIgnored :
    loading.busy = true ∧ isRead (.msgWr32 0#15 1#32) = false ∧ isRead (.regWr 0x0010#15 1#32) = false ∧
    isRead .hash = false ∧ isRead (.msgRd8 0#15) = true := by decide

theorem witness_HostReadsChangeNoRegisterAndNoByte :
    ∀ i ∈ [Instr.regRd 0x000C#15, .regNarrow .read .half 0#15 0#32, .msgRd8 5#15, .msgRd16 2#15,
      .msgRd32 0x7FFC#15], isRead i = true := by decide

theorem witness_WindowRead :
    (255#15).toNat < base.memSize.bytes ∧ (254#15).toNat < base.memSize.bytes ∧ (254#15).toNat % 2 = 0 ∧
    (252#15).toNat < base.memSize.bytes ∧ (252#15).toNat % 4 = 0 := by decide

theorem witness_UnwrittenByteReadsAsAFreshDraw :
    (255#15).toNat < ready.memSize.bytes ∧ ready.mem.lookup (255#15).toNat = none := by decide

theorem witness_IneffectiveWindowAccessDoesNothing :
    base.memSize.bytes ≤ (256#15).toNat ∧ base.memSize.bytes ≤ (0x7FFF#15).toNat ∧
    (255#15).toNat % 2 ≠ 0 ∧ (254#15).toNat % 4 ≠ 0 := by decide

theorem witness_WindowWrite :
    base.busy = false ∧ (252#15).toNat < base.memSize.bytes ∧ (252#15).toNat % 4 = 0 ∧
    (254#15).toNat < base.memSize.bytes ∧ (254#15).toNat % 2 = 0 ∧
    (255#15).toNat < base.memSize.bytes := by decide

theorem witness_WindowReadReturnsWhatWasWritten :
    base.busy = false ∧ (0#15).toNat % 4 = 0 ∧ (0#15).toNat < base.memSize.bytes ∧
    (252#15).toNat % 4 = 0 ∧ (252#15).toNat < base.memSize.bytes := by decide

theorem witness_WindowWriteFrame :
    windowWriteOf (.msgWr8 255#15 1#32) = some (255, 1) ∧ windowWriteOf (.msgWr16 254#15 1#32) = some (254, 2) ∧
    windowWriteOf (.msgWr32 252#15 1#32) = some (252, 4) := by decide

theorem witness_OnlyWindowWritesAndResetChangeMemory :
    ∃ t, step (waiting base [.host storeWord]) = .next t ∧ t.mem ≠ (waiting base [.host storeWord]).mem :=
  ⟨_, rfl, by decide⟩

theorem witness_OnlyWindowWritesAndResetChangeMemory_reset :
    ∃ t, step (waiting ready [.reset]) = .next t ∧ t.mem ≠ (waiting ready [.reset]).mem :=
  ⟨_, rfl, by decide⟩

theorem witness_LoadExpandsTheSha2Schedule :
    loading.phase = .load ∧ desc loading.algL = some descSha256 ∧ descSha256.fam = .sha2 rot32 ∧
    (16 ≤ 16 ∧ 63 < descSha256.rounds) ∧ 79 < descSha512.rounds := ⟨rfl, rfl, rfl, by decide, by decide⟩

theorem witness_LoadExpandsTheSha1Schedule :
    (running 0x1#4 .load 0#7).phase = .load ∧ (running 0x1#4 .load 0#7).algL = 0x1#4 := by decide

theorem witness_Sha2RoundUpdatesTheWorkingVariables :
    (running 0x3#4 .round 63#7).t.toNat < 80 ∧ (running 0x3#4 .round 63#7).phase = .round ∧
    desc (running 0x3#4 .round 63#7).algL = some descSha256 ∧ descSha256.fam = .sha2 rot32 ∧
    (running 0x3#4 .round 63#7).t.toNat < descSha256.rounds ∧
    (running 0x5#4 .round 79#7).t.toNat < 80 ∧ desc (running 0x5#4 .round 79#7).algL = some descSha512 ∧
    descSha512.fam = .sha2 rot64 ∧ (running 0x5#4 .round 79#7).t.toNat < descSha512.rounds :=
  ⟨by decide, rfl, rfl, rfl, by decide, by decide, rfl, rfl, by decide⟩

theorem witness_Sha1RoundUpdatesTheWorkingVariables :
    ∀ t ∈ [0#7, 19#7, 20#7, 39#7, 40#7, 59#7, 60#7, 79#7],
      (running 0x1#4 .round t).t.toNat < 80 ∧ (running 0x1#4 .round t).phase = .round ∧
      (running 0x1#4 .round t).algL = 0x1#4 := by decide

theorem witness_FoldAddsWordByWord :
    (running 0x1#4 .fold 80#7).phase = .fold ∧ desc (running 0x1#4 .fold 80#7).algL = some descSha1 ∧
    desc (running 0x4#4 .fold 80#7).algL = some descSha384 := ⟨rfl, rfl, rfl⟩

theorem witness_OutputWritesTheDigestWords :
    outputting.phase = .output ∧ desc outputting.algL = some descSha256 ∧ outputting.err = false ∧
    desc (running 0x6#4 .output 80#7).algL = some descSha512_224 := ⟨rfl, rfl, rfl, rfl⟩

/-- At SHA-256 a message of 55 bytes leaves no zero byte in its one chunk and 56 bytes need a second chunk; of the
64 positions for "abc", 3 is the 0x80, 4 and 55 are zeros, 56 and 63 end the length field (R231, R232). -/
theorem witness_PaddedMessageIsWholeChunks :
    desc 0x3#4 = some descSha256 ∧ desc 0x5#4 = some descSha512 ∧
    zeroCount descSha256 55 = 0 ∧ numChunks descSha256 55 = 1 ∧ numChunks descSha256 56 = 2 ∧
    (padMessage descSha256 [0x61#8, 0x62#8, 0x63#8])[2]? = some 0x63#8 ∧
    (padMessage descSha256 [0x61#8, 0x62#8, 0x63#8])[3]? = some 0x80#8 ∧
    (padMessage descSha256 [0x61#8, 0x62#8, 0x63#8])[4]? = some 0x00#8 ∧
    (padMessage descSha256 [0x61#8, 0x62#8, 0x63#8])[55]? = some 0x00#8 ∧
    (padMessage descSha256 [0x61#8, 0x62#8, 0x63#8])[56]? = some 0x00#8 ∧
    (padMessage descSha256 [0x61#8, 0x62#8, 0x63#8])[63]? = some 0x18#8 := ⟨rfl, rfl, by decide⟩

theorem abc_holds : abcMem.Holds [0x61#8, 0x62#8, 0x63#8] := by
  intro a h
  match a, h with
  | 0, _ => rfl
  | 1, _ => rfl
  | 2, _ => rfl

/-- "abc" at SHA-256: positions 2, 3, 4, 55, 56 and 63 of its one chunk. -/
theorem witness_ChunkBytesAreThePaddedMessage :
    desc 0x3#4 = some descSha256 ∧ 0 < (3 + descSha256.lel / 8) / (descSha256.cs / 8) + 1 ∧
    abcMem.lookup 2 = some 0x63#8 ∧ 63 < descSha256.cs / 8 ∧ 4 < 64 - descSha256.lel / 8 ∧
    55 < 64 - descSha256.lel / 8 ∧ 64 - descSha256.lel / 8 ≤ 56 ∧
    [0x61#8, 0x62#8, 0x63#8].length = 3 ∧ abcMem.Holds [0x61#8, 0x62#8, 0x63#8] :=
  ⟨rfl, by decide, by decide, by decide, by decide, by decide, by decide, rfl, abc_holds⟩

/-- A chunk of each width. -/
theorem witness_MessageWordsAreBigEndian :
    desc 0x3#4 = some descSha256 ∧ descSha256.w = 32 ∧
    (List.replicate 64 0x61#8).length = descSha256.cs / 8 ∧
    desc 0x5#4 = some descSha512 ∧ descSha512.w = 64 ∧
    (List.replicate 128 0x61#8).length = descSha512.cs / 8 :=
  ⟨rfl, rfl, List.length_replicate, rfl, rfl, List.length_replicate⟩

/-- R236 on the chunk 0, 1, 2, ... : its first and last word at each width. -/
theorem test_message_words :
    chunkWord descSha256 ((List.range 64).map (BitVec.ofNat 8)) 0 = 0x00010203#64 ∧
    chunkWord descSha256 ((List.range 64).map (BitVec.ofNat 8)) 15 = 0x3c3d3e3f#64 ∧
    chunkWord descSha512 ((List.range 128).map (BitVec.ofNat 8)) 15 = 0x78797a7b7c7d7e7f#64 := by decide

theorem witness_DigestHasAFixedLength : desc 0x6#4 = some descSha512_224 := rfl

theorem witness_BitPrimitivesRefuseOutsideTheirDomain :
    32 < 33 ∧ 8 ≤ 8 ∧ (12 ≠ 8 ∧ 12 ≠ 16 ∧ 12 ≠ 32 ∧ 12 ≠ 64) := by decide

theorem witness_BusyChanges :
    (∃ t, step (waiting ready [.host hashWord]) = .next t ∧ ready.busy = false ∧ t.busy = true) ∧
    ∃ t, step outputting = .next t ∧ outputting.busy = true ∧ t.busy = false :=
  ⟨⟨_, rfl, rfl, by decide⟩, _, rfl, rfl, rfl⟩

theorem witness_DoneChanges :
    (∃ t, step outputting = .next t ∧ outputting.done = false ∧ t.done = true) ∧
    (∀ w ∈ [hashWord, clearWord, reservedWord], ∃ t, step (waiting finished [.host w]) = .next t ∧
      finished.done = true ∧ t.done = false) ∧
    (∃ t, step (waiting finished [.reset]) = .next t ∧ t.done = false) := by
  refine ⟨⟨_, rfl, rfl, rfl⟩, ?_, _, rfl, rfl⟩
  simp only [List.forall_mem_cons, List.not_mem_nil, false_imp_iff, implies_true, and_true]
  exact ⟨⟨_, rfl, rfl, by decide⟩, ⟨_, rfl, rfl, by decide⟩, ⟨_, rfl, rfl, by decide⟩⟩

theorem witness_DoneChanges_actions :
    (waiting finished [.host nopWord]).nextIs .nop ∧ (waiting finished [.host hashWord]).nextIs .hash ∧
    (waiting finished [.host clearWord]).nextIs .clear ∧
    (waiting finished [.host reservedWord]).nextIs (.cmdReserved 3#32) :=
  ⟨⟨_, rfl, by decide⟩, ⟨_, rfl, by decide⟩, ⟨_, rfl, by decide⟩, ⟨_, rfl, by decide⟩⟩

theorem witness_ErrChanges :
    (∃ t, step (waiting finished [.host reservedWord]) = .next t ∧ finished.err = false ∧ t.err = true) ∧
    (∃ t, step (waiting base [.host hashWord]) = .next t ∧ base.err = false ∧ t.err = true) ∧
    (∃ t, step (waiting failed [.host clearWord]) = .next t ∧ failed.err = true ∧ t.err = false) ∧
    ∃ t, step (waiting failed [.reset]) = .next t ∧ failed.err = true ∧ t.err = false :=
  ⟨⟨_, rfl, rfl, by decide⟩, ⟨_, rfl, rfl, by decide⟩, ⟨_, rfl, rfl, by decide⟩, ⟨_, rfl, rfl, rfl⟩⟩

theorem witness_DigestChanges :
    (∃ t, step outputting = .next t ∧ t.digest ≠ outputting.digest) ∧
    (∃ t, step (waiting finished [.host clearWord]) = .next t ∧ t.digest ≠ finished.digest) ∧
    (∃ t, step (waiting { finished with alg := 3#4 } [.host hashWord]) = .next t ∧
      t.digest ≠ finished.digest ∧ t.busy = true) :=
  ⟨⟨_, rfl, by decide⟩, ⟨_, rfl, by decide⟩, ⟨_, rfl, by decide, by decide⟩⟩

theorem witness_LatchesChangeOnlyAtAcceptance :
    ∃ t, step (waiting ready [.host hashWord]) = .next t ∧ t.algL ≠ ready.algL ∧ t.lenL ≠ ready.lenL ∧
      t.nch ≠ ready.nch := ⟨_, rfl, by decide, by decide, by decide⟩

theorem witness_ConfigurationChangesOnlyByHostWrites :
    (∃ t, step (waiting base [.host 0x8200000400000003#64]) = .next t ∧ t.alg ≠ base.alg) ∧
    (∃ t, step (waiting base [.host 0x8200001000000003#64]) = .next t ∧ t.msgLenLo ≠ base.msgLenLo) ∧
    (∃ t, step (waiting base [.host 0x8200001420000000#64]) = .next t ∧ t.msgLenHi ≠ base.msgLenHi) ∧
    ∃ t, step (waiting base [.host 0x8200001800000002#64]) = .next t ∧ t.errEn ≠ base.errEn :=
  ⟨⟨_, rfl, by decide⟩, ⟨_, rfl, by decide⟩, ⟨_, rfl, by decide⟩, ⟨_, rfl, by decide⟩⟩

theorem ready_inv : MachineInv ready where
  busyIff := by decide
  notBoth := by decide
  codeZero := by decide
  codeNamed := by decide
  running := fun h => absurd h (by decide)
  result := fun h => absurd h (by decide)
  memWf := by decide
  memBelow := by decide

theorem loading_inv : MachineInv loading where
  busyIff := by decide
  notBoth := by decide
  codeZero := by decide
  codeNamed := by decide
  running := fun _ => ⟨descSha256, rfl,
    { clean := by decide
      latched := by decide
      fits := by decide
      nchIs := by decide
      jBound := by decide
      chunksIs := by decide
      tBound := by decide
      noDigest := by decide
      widthH := by unfold FitsWidth; decide
      widthV := fun h => absurd h (by decide) }⟩
  result := fun h => absurd h (by decide)
  memWf := by decide
  memBelow := by decide

theorem witness_StepKeepsTheInvariant : MachineInv loading ∧ ∃ t, step loading = .next t :=
  ⟨loading_inv, _, rfl⟩

theorem witness_RegisterRead_busy : MachineInv loading ∧ loading.busy = true := ⟨loading_inv, rfl⟩

theorem witness_WritesWhileBusyAreIgnored_latched : MachineInv loading ∧ loading.busy = true :=
  ⟨loading_inv, rfl⟩

/-- An invariant state whose next action is a word that spells no transaction. -/
theorem witness_NoFaultFromTheInvariant : MachineInv (waiting ready [.host 0x0001000000000000#64]) where
  busyIff := by decide
  notBoth := by decide
  codeZero := by decide
  codeNamed := by decide
  running := fun h => absurd h (by decide)
  result := fun h => absurd h (by decide)
  memWf := by decide
  memBelow := by decide

theorem loading_hashing : Hashing descSha256 [0x61#8, 0x62#8, 0x63#8] loading where
  busy := rfl
  descIs := rfl
  lenIs := by decide
  holds := abc_holds
  stateH := rfl
  schedW := fun h => absurd h (by decide)
  varsV := fun h => absurd h (by decide)

theorem witness_StepKeepsTheHashOnTheAlgorithm :
    MachineInv loading ∧ Hashing descSha256 [0x61#8, 0x62#8, 0x63#8] loading ∧ loading.nextAction ≠ .reset ∧
    ∃ t, step loading = .next t := ⟨loading_inv, loading_hashing, by decide, _, rfl⟩

theorem witness_AcceptedHashDeliversHashBytes :
    MachineInv ready ∧ ready.busy = false ∧ desc ready.alg = some descSha256 ∧
    ready.msgLen.toNat ≤ ready.memSize.bytes ∧ ∃ u, exec .hash ready = .next u :=
  ⟨ready_inv, rfl, rfl, by decide, _, rfl⟩

/-- A poll that ends after two reads, and one that is still waiting after two. -/
theorem witness_PollReadsUntilItsConditionHolds :
    (∃ t, (HostOp.poll 0x000C#16 0x1#32 0x0#32).run [0, 1] outputting = .finished t [] [1#32, 2#32]) ∧
    ∃ t, (HostOp.poll 0x000C#16 0x1#32 0x0#32).run [0, 0] outputting = .waiting t [1#32, 1#32] :=
  ⟨⟨_, rfl⟩, _, rfl⟩

/-- The same from a busy state of the invariant; STATUS reads 0x1. -/
theorem witness_PollReadsUntilItsConditionHolds_inv :
    MachineInv loading ∧ ∃ t, ReadsReturn 0x000C#16 [0] loading [1#32] t :=
  ⟨loading_inv, _, _, _, rfl, rfl, rfl, rfl⟩

/-- The last message that has words, and the first that has none. -/
theorem witness_HostLinesHaveTheirTabledWords :
    (0xFFFF#32).toNat < 2 ^ 16 ∧ (0xFF#32).toNat < 2 ^ 8 ∧
    (List.replicate 32768 0x61#8).length ≤ 32768 ∧ 32768 < (List.replicate 32769 0x61#8).length := by
  rw [List.length_replicate, List.length_replicate]; decide

/-- The empty message, and one that fills the memory. -/
theorem witness_MsgWritesItsBytesOnly :
    base.busy = false ∧ base.phase = .idle ∧ 0 ≤ base.memSize.bytes ∧
    (List.replicate 256 0x61#8).length ≤ base.memSize.bytes ∧
    256 / 4 + 256 % 4 ≤ (List.replicate 64 0).length := by
  refine ⟨rfl, rfl, by decide, ?_, by simp⟩; rw [List.length_replicate]; decide

/-- SHA-256 of "abc" takes 67 turns (R206). -/
theorem witness_WaitEndsWithTheDigest :
    MachineInv ready ∧ ready.busy = false ∧ desc ready.alg = some descSha256 ∧
    ready.msgLen.toNat ≤ ready.memSize.bytes ∧ (∃ u, exec .hash ready = .next u) ∧
    [0, 66].sum < numChunks descSha256 3 * (descSha256.rounds + 2) + 1 ∧
    numChunks descSha256 3 * (descSha256.rounds + 2) + 1 ≤ [0, 67, 0].sum :=
  ⟨ready_inv, rfl, rfl, by decide, ⟨_, rfl⟩, by decide, by decide⟩

theorem witness_HashStrgProgramReturnsTheDigest :
    MachineInv ready ∧ ready.busy = false ∧ desc 0x3#4 = some descSha256 ∧
    [0x61#8, 0x62#8, 0x63#8].length ≤ ready.memSize.bytes ∧
    3 / 4 + 3 % 4 + 4 + 1 + descSha256.dl / 32 ≤ (List.replicate 16 67).length ∧
    ∀ n ∈ List.replicate 16 67, numChunks descSha256 3 * (descSha256.rounds + 2) + 1 ≤ n :=
  ⟨ready_inv, rfl, rfl, by decide, by decide, by decide⟩

end Sys2Proof.Tests
end

section
/-! SUPPORT. The machine invariant (spec 10_state.md R61): every step keeps it. First the word widths of R53 and
R54 and the chunk count of R234, then the invariant under each kind of update, then the step. -/

namespace Sys2Proof.Machine

/-! ### Words that fit the datapath (R53, R54) -/

theorem fitsWidth_zero (w : Nat) : FitsWidth w 0#64 := Nat.two_pow_pos w

/-- What a `w`-bit operation leaves in a 64-bit container fits `w` bits. -/
theorem fitsWidth_setWidth {w : Nat} (x : BitVec w) : FitsWidth w (x.setWidth 64) := by
  rw [FitsWidth, BitVec.toNat_setWidth]
  exact Nat.lt_of_le_of_lt (Nat.mod_le _ _) x.isLt

theorem initState_fits {D : Descriptor} (hD : D.Shaped) (i : Fin 8) : FitsWidth D.w (initState D)[i] := by
  simp only [initState, Fin.getElem_fin, Vector.getElem_ofFn]
  split
  · have hi : i.val < D.iv.length := by rw [hD.ivLength]; assumption
    rw [List.getD_eq_getElem _ _ hi]
    exact hD.ivFits _ (List.getElem_mem hi)
  · exact fitsWidth_zero _

theorem foldAdd_fits {D : Descriptor} {H : Vector Word64 8} (V : Vector Word64 8)
    (hH : ∀ i : Fin 8, FitsWidth D.w H[i]) (i : Fin 8) : FitsWidth D.w (foldAdd D H V)[i] := by
  simp only [foldAdd, Fin.getElem_fin, Vector.getElem_ofFn]
  split
  · exact fitsWidth_setWidth _
  · exact hH i

theorem roundRegs_fits (D : Descriptor) (V : Vector Word64 8) (t : Nat) (wt kt : Word64) (i : Fin 8)
    (hi : i.val < D.nsw) : FitsWidth D.w (roundRegs D V t wt kt)[i] := by
  simp only [roundRegs, Fin.getElem_fin, Vector.getElem_ofFn, if_pos hi]
  exact fitsWidth_setWidth _

/-! ### The chunk count (R234) -/

theorem numChunks_pos (D : Descriptor) (L : Nat) : 0 < numChunks D L := Nat.succ_pos _

/-- The chunk count of a message that fits the memory fits `nch`. -/
theorem numChunks_lt {D : Descriptor} (hD : D.Shaped) {L : Nat} (hL : L ≤ 32768) :
    numChunks D L < 2 ^ 32 := by
  unfold numChunks
  rcases hD.width with ⟨-, hc, hl⟩ | ⟨-, hc, hl⟩ <;> rw [hc, hl] <;> omega

/-! ### The invariant of states of one kind -/

/-- A busy state meets the invariant when its HASH does (R61). -/
theorem MachineInv.of_busy {t : State} {D : Descriptor} (hb : t.busy = true) (hp : t.phase ≠ .idle)
    (hc : t.errCode = 0#4) (hD : desc t.algL = some D) (B : BusyInv D t) (hw : t.mem.wf)
    (hm : t.mem.below t.memSize.bytes) : MachineInv t where
  busyIff := iff_of_true hb hp
  notBoth h := by simp [B.clean.1] at h
  codeZero _ := hc
  codeNamed h := by simp [B.clean.2] at h
  running _ := ⟨D, hD, B⟩
  result h := by simp [B.clean.1] at h
  memWf := hw
  memBelow := hm

/-- An idle state without results meets the invariant when its error code and its memory do. -/
theorem MachineInv.of_no_result {t : State} (hb : t.busy = false) (hp : t.phase = .idle)
    (hd : t.done = false) (hz : t.err = false → t.errCode = 0#4)
    (hn : t.err = true → 1 ≤ t.errCode.toNat ∧ t.errCode.toNat ≤ 4) (hw : t.mem.wf)
    (hm : t.mem.below t.memSize.bytes) : MachineInv t where
  busyIff := by simp [hb, hp]
  notBoth h := by simp [hd] at h
  codeZero := hz
  codeNamed := hn
  running h := by simp [hb] at h
  result h := by simp [hd] at h
  memWf := hw
  memBelow := hm

theorem MachineInv.idle {s : State} (I : MachineInv s) (hb : s.busy = false) : s.phase = .idle := by
  by_contra hp
  simp [I.busyIff.2 hp] at hb

/-- What the invariant says of a busy machine, under the descriptor the engine reads. -/
theorem MachineInv.running_of_phase {s : State} {D : Descriptor} (I : MachineInv s) (hp : s.phase ≠ .idle)
    (hD : desc s.algL = some D) : s.busy = true ∧ s.errCode = 0#4 ∧ BusyInv D s := by
  have hb := I.busyIff.2 hp
  obtain ⟨D', hD', B⟩ := I.running hb
  obtain rfl : D = D' := Option.some.inj (hD.symm.trans hD')
  exact ⟨hb, I.codeZero B.clean.2, B⟩

/-! ### Updates the invariant does not depend on -/

/-- IRQ_EN, the draws, the value last read and the inbox stand in no clause of the invariant. -/
theorem MachineInv.unobserved {s : State} (I : MachineInv s) (de ee : Bool) (d : Nat) (r : Word32)
    (q : List Action) :
    MachineInv { s with doneEn := de, errEn := ee, draws := d, readData := r, inbox := q } :=
  { I with
    running := fun h =>
      let ⟨D, hD, B⟩ := I.running h
      ⟨D, hD, { B with }⟩ }

/-- The operands and the memory of an idle machine, whose memory stays canonical and in bounds. -/
theorem MachineInv.setOperands {s : State} (I : MachineInv s) (hb : s.busy = false) (a : BitVec 4)
    (lo hi : Word32) {m : Memory} (hw : m.wf) (hm : m.below s.memSize.bytes) :
    MachineInv { s with alg := a, msgLenLo := lo, msgLenHi := hi, mem := m } :=
  { I with
    running := fun h => absurd (hb.symm.trans h) Bool.false_ne_true
    memWf := hw
    memBelow := hm }

/-! ### Host transactions -/

/-- An accepted HASH starts a run that meets the invariant (R196). -/
theorem acceptHash_inv {s : State} {D : Descriptor} (I : MachineInv s)
    (hD : hashCheck s = .ok D) : MachineInv (acceptHash (s.setStatus false false 0#4) D) := by
  obtain ⟨hdesc, -, hfits⟩ := hashCheck_ok hD
  have shaped := desc_shaped hdesc
  have hlt := numChunks_lt shaped (hfits.trans s.memSize.legal.2.2)
  have hnch : (BitVec.ofNat 32 (numChunks D s.msgLen.toNat)).toNat = numChunks D s.msgLen.toNat := by
    rw [BitVec.toNat_ofNat, Nat.mod_eq_of_lt hlt]
  refine .of_busy rfl nofun rfl hdesc ?_ I.memWf I.memBelow
  exact
    { clean := ⟨rfl, rfl⟩
      latched := ⟨rfl, rfl⟩
      fits := hfits
      nchIs := hnch
      jBound := hnch ▸ numChunks_pos D _
      chunksIs := rfl
      tBound := by simp [acceptHash]
      noDigest := fun k => Vector.getElem_replicate k.isLt
      widthH := initState_fits shaped
      widthV := fun h => by simp [acceptHash] at h }

/-- Every effect of a host transaction keeps the invariant. -/
theorem HostEffect.keeps_inv {i : Instr} {s t : State} (he : HostEffect i s t) (I : MachineInv s) :
    MachineInv t := by
  cases he with
  | unchanged => exact I
  | read hi v d => exact I.unobserved _ _ _ _ _
  | irqEn v hi => exact I.unobserved _ _ _ _ _
  | alg h hi a => exact I.setOperands h _ _ _ I.memWf I.memBelow
  | lenLo h v hi => exact I.setOperands h _ _ _ I.memWf I.memBelow
  | lenHi h v hi => exact I.setOperands h _ _ _ I.memWf I.memBelow
  | rejected h c hc hi =>
    exact .of_no_result h (I.idle h) rfl nofun (fun _ => hc) I.memWf I.memBelow
  | accepted h hi D hD => exact acceptHash_inv I hD
  | cleared h hi =>
    exact .of_no_result h (I.idle h) rfl (fun _ => rfl) nofun I.memWf I.memBelow
  | stored h a n v hi hn hw =>
    exact I.setOperands h _ _ _ (Memory.write_wf I.memWf a n v)
      (Memory.write_below I.memBelow a n v (windowEffective_end s.memSize.legal.1 hn hw))

/-! ### The engine -/

/-- LOAD seeds `V` from `H`, whose words fit, and starts at round 0 (R200). -/
theorem loadStep_busyInv {s : State} {D : Descriptor} (B : BusyInv D s) (hD : D.Shaped)
    (hp : s.phase = .load) : BusyInv D (loadStep D s) :=
  { B with
    jBound := by simpa [loadStep, hp] using B.jBound
    tBound := by rcases hD.rounds with h | h <;> simp [loadStep, h]
    widthV := fun _ i hi => by simpa [loadStep, hi] using B.widthH i }

/-- The last round leads to FOLD, every other one to the next ROUND (R201). -/
theorem roundStep_phase (D : Descriptor) (s : State) :
    ((s.t + 1#7).toNat = D.rounds ∧ (roundStep D s).phase = .fold) ∨
    ((s.t + 1#7).toNat ≠ D.rounds ∧ (roundStep D s).phase = .round) := by
  by_cases h : (s.t + 1#7).toNat = D.rounds
  · exact .inl ⟨h, if_pos h⟩
  · exact .inr ⟨h, if_neg h⟩

/-- ROUND counts one round more (R201). -/
theorem roundStep_busyInv {s : State} {D : Descriptor} (B : BusyInv D s) (hD : D.Shaped)
    (hp : s.phase = .round) : BusyInv D (roundStep D s) := by
  have hj : s.j.toNat < s.nch.toNat := by simpa [hp] using B.jBound
  have ht : s.t.toNat < D.rounds := B.tBound.2.1 hp
  have ht1 : (s.t + 1#7).toNat = s.t.toNat + 1 := by rcases hD.rounds with h | h <;> bv_omega
  have hstep := roundStep_phase D s
  rw [ht1] at hstep
  exact
    { B with
      jBound := by rcases hstep with ⟨-, h⟩ | ⟨-, h⟩ <;> rw [h] <;> exact hj
      tBound := by
        show (s.t + 1#7).toNat ≤ D.rounds ∧ (_ → (s.t + 1#7).toNat < _) ∧ (_ → (s.t + 1#7).toNat = _)
        rw [ht1]
        rcases hstep with ⟨hr, h⟩ | ⟨hr, h⟩ <;> simp [h] <;> omega
      widthV := fun _ => roundRegs_fits D _ _ _ _ }

/-- The last FOLD leads to OUTPUT, every other one to the next LOAD (R202). -/
theorem foldStep_phase (D : Descriptor) (s : State) :
    (s.j + 1#32 = s.nch ∧ (foldStep D s).phase = .output) ∨
    (s.j + 1#32 ≠ s.nch ∧ (foldStep D s).phase = .load) := by
  by_cases h : s.j + 1#32 = s.nch
  · exact .inl ⟨h, if_pos h⟩
  · exact .inr ⟨h, if_neg h⟩

/-- FOLD keeps the width of `H` and counts one chunk more (R202). -/
theorem foldStep_busyInv {s : State} {D : Descriptor} (B : BusyInv D s) (hp : s.phase = .fold) :
    BusyInv D (foldStep D s) := by
  have hj : s.j.toNat < s.nch.toNat := by simpa [hp] using B.jBound
  have hstep := foldStep_phase D s
  exact
    { B with
      jBound := by
        show if _ then s.j + 1#32 = s.nch else (s.j + 1#32).toNat < s.nch.toNat
        rcases hstep with ⟨hn, h⟩ | ⟨hn, h⟩
        · rwa [if_pos h]
        · rw [if_neg (by simp [h])]
          bv_omega
      chunksIs := congrArg (· + 1#32) B.chunksIs
      tBound := by rcases hstep with ⟨-, h⟩ | ⟨-, h⟩ <;> simp only [h] <;> exact ⟨B.tBound.1, nofun, nofun⟩
      widthH := foldAdd_fits _ B.widthH
      widthV := by rcases hstep with ⟨-, h⟩ | ⟨-, h⟩ <;> simp [h] }

/-- OUTPUT ends the run with the digest of `H` in DIGEST (R203). -/
theorem outputStep_inv {s : State} {D : Descriptor} (I : MachineInv s) (B : BusyInv D s)
    (hD : desc s.algL = some D) (hp : s.phase = .output) : MachineInv (outputStep D s) := by
  have hj : s.j = s.nch := by simpa [hp] using B.jBound
  exact
    { I with
      busyIff := by simp [outputStep]
      notBoth := by simp [outputStep, B.clean.2]
      running := nofun
      result := fun _ => ⟨D, hD, B.chunksIs.trans hj, B.nchIs, fun k => by simp [outputStep]⟩ }

/-- Every engine step keeps the invariant. -/
theorem EngineEffect.keeps_inv {s t : State} (he : EngineEffect s t) (I : MachineInv s) : MachineInv t := by
  cases he with
  | idle h => exact I
  | load D hD h =>
    obtain ⟨hb, hc, B⟩ := I.running_of_phase (by simp [h]) hD
    exact .of_busy hb nofun hc hD (loadStep_busyInv B (desc_shaped hD) h) I.memWf I.memBelow
  | round D hD h =>
    obtain ⟨hb, hc, B⟩ := I.running_of_phase (by simp [h]) hD
    have hp : (roundStep D s).phase ≠ .idle := by
      rcases roundStep_phase D s with ⟨-, h⟩ | ⟨-, h⟩ <;> simp [h]
    exact .of_busy hb hp hc hD (roundStep_busyInv B (desc_shaped hD) h) I.memWf I.memBelow
  | fold D hD h =>
    obtain ⟨hb, hc, B⟩ := I.running_of_phase (by simp [h]) hD
    have hp : (foldStep D s).phase ≠ .idle := by
      rcases foldStep_phase D s with ⟨-, h⟩ | ⟨-, h⟩ <;> simp [h]
    exact .of_busy hb hp hc hD (foldStep_busyInv B h) I.memWf I.memBelow
  | output D hD h =>
    obtain ⟨-, -, B⟩ := I.running_of_phase (by simp [h]) hD
    exact outputStep_inv I B hD h

/-! ### Reset and the step -/

/-- Reset meets the invariant whatever is kept through it (R60, R380). -/
theorem applyReset_inv (s : State) : MachineInv s.applyReset :=
  .of_no_result rfl rfl rfl (fun _ => rfl) nofun .nil nofun

/-- Settles O51: a state reset once more is the reset state. -/
theorem resetMeetsTheInvariant : Obligations.ResetMeetsTheInvariant :=
  applyReset_inv State.reset

/-- Settles O52: a host transaction, an engine step and a reset each keep the invariant. -/
theorem stepKeepsTheInvariant : Obligations.StepKeepsTheInvariant := by
  intro s t I h
  have taken : ∀ q, MachineInv (s.setInbox q) := fun q => I.unobserved _ _ _ _ _
  rcases step_next h with ⟨w, rest, i, -, -, -, he⟩ | ⟨-, he⟩ | ⟨rest, -, rfl⟩
  · exact he.keeps_inv (taken rest)
  · exact he.keeps_inv (taken s.inbox.tail)
  · exact applyReset_inv _

end Sys2Proof.Machine
end

section
/-! SUPPORT. The whole-machine rules of STATUS, DIGEST, the latches and the configuration registers (spec
10_state.md R35 to R43, R52, R60). `step_control` says once what a step can do to the first three; the `step_of_`
lemmas say what the step of a command or of reset is. -/

namespace Sys2Proof.Machine

/-! ### The step of a given action -/

/-- An action other than the engine's turn stands first in the inbox. -/
theorem inbox_of_nextAction {s : State} {a : Action} (h : s.nextAction = a) (ha : a ≠ .engine) :
    s.inbox = a :: s.inbox.tail := by
  unfold State.nextAction at h
  cases hq : s.inbox with
  | nil => simp [hq, ha.symm] at h
  | cons b rest =>
    rw [hq] at h
    rw [show b = a from h]
    rfl

theorem nextAction_of_inbox {s : State} {a : Action} {rest : List Action} (h : s.inbox = a :: rest) :
    s.nextAction = a := by simp [State.nextAction, h]

theorem nextIs_of_inbox {s : State} {w : Word64} {rest : List Action} {i : Instr}
    (h : s.inbox = .host w :: rest) (hi : decode w = .instr i) : s.nextIs i :=
  ⟨w, nextAction_of_inbox h, hi⟩

theorem wf_of_nextIs {s : State} {i : Instr} (h : s.nextIs i) : i.wf = true :=
  let ⟨_, _, hw⟩ := h
  decode_wf hw

theorem step_of_reset {s : State} (h : s.nextAction = .reset) :
    step s = .next (s.setInbox s.inbox.tail).applyReset := by
  rw [step, inbox_of_nextAction h nofun]
  rfl

theorem step_of_nextIs {s : State} {i : Instr} (h : s.nextIs i) :
    step s = exec i (s.setInbox s.inbox.tail) := by
  obtain ⟨w, ha, hw⟩ := h
  rw [step, inbox_of_nextAction ha nofun]
  simp only [hostStep, hw, List.tail_cons]

theorem step_of_nop {s : State} (h : s.nextIs .nop) : step s = .next (s.setInbox s.inbox.tail) :=
  step_of_nextIs h

theorem step_of_hash {s : State} (hb : s.busy = false) (h : s.nextIs .hash) :
    step s = .next (hashCommand (s.setInbox s.inbox.tail)) :=
  (step_of_nextIs h).trans (congrArg Host.Outcome.next (State.unlessBusy_of_idle hashCommand hb))

theorem step_of_clear {s : State} (hb : s.busy = false) (h : s.nextIs .clear) :
    step s = .next (clearCommand (s.setInbox s.inbox.tail)) :=
  (step_of_nextIs h).trans (congrArg Host.Outcome.next (State.unlessBusy_of_idle clearCommand hb))

/-- A reserved command that a trace word spells is none of the three commands (R101, R198). -/
theorem step_of_cmdReserved {s : State} {op : Word32} (hb : s.busy = false)
    (h : s.nextIs (.cmdReserved op)) : step s = .next (reservedCommand (s.setInbox s.inbox.tail)) := by
  have hop := wf_of_nextIs h
  simp only [Instr.wf, Bool.and_eq_true, bne_iff_ne, ne_eq, and_assoc] at hop
  obtain ⟨h0, h1, h2⟩ := hop
  have hrun : runCommand (s.setInbox s.inbox.tail) op = reservedCommand (s.setInbox s.inbox.tail) := by
    rw [runCommand, State.unlessBusy_of_idle _ (by exact hb), if_neg h0, if_neg h1, if_neg h2]
  rw [step_of_nextIs h, ← hrun]
  rfl

/-! ### What the commands leave in STATUS and DIGEST (R193 to R198) -/

theorem hashCommand_done (s : State) : (hashCommand s).done = false := by
  rcases hashCommand_cases s with ⟨c, -, h⟩ | ⟨D, -, h⟩ <;> rw [h] <;> rfl

theorem hashCommand_err_iff {s : State} (hb : s.busy = false) :
    (hashCommand s).err = false ↔ (hashCommand s).busy = true := by
  rcases hashCommand_cases s with ⟨c, -, h⟩ | ⟨D, -, h⟩ <;> rw [h]
  · simp [hb]
  · exact iff_of_true rfl rfl

theorem hashCommand_digest {s : State} (hb : s.busy = false) (ha : (hashCommand s).busy = true) :
    (hashCommand s).digest = Vector.replicate 16 0#32 := by
  rcases hashCommand_cases s with ⟨c, -, h⟩ | ⟨D, -, h⟩ <;> rw [h] at ha ⊢
  · simp [hb] at ha
  · rfl

/-! ### What a step can do to STATUS, DIGEST and the latches -/

/-- The flags of STATUS, DIGEST and the latches are the same in both states. -/
structure SameControl (s t : State) : Prop where
  busy : t.busy = s.busy
  done : t.done = s.done
  err : t.err = s.err
  digest : t.digest = s.digest
  algL : t.algL = s.algL
  lenL : t.lenL = s.lenL
  nch : t.nch = s.nch

/-- What a step from `s` to `t` does to them, and the action that does it; `q` is the inbox it leaves. -/
inductive ControlEffect (s t : State) : Prop where
  | kept (h : SameControl s t)
  | rejected (hb : s.busy = false) (hi : s.nextIs .hash ∨ ∃ op, s.nextIs (.cmdReserved op)) (c : BitVec 4)
      (hc : 1 ≤ c.toNat ∧ c.toNat ≤ 4) (q : List Action) (ht : t = (s.setInbox q).setStatus false true c)
  | accepted (hb : s.busy = false) (hi : s.nextIs .hash) (D : Descriptor) (hD : hashCheck s = .ok D)
      (q : List Action) (ht : t = acceptHash ((s.setInbox q).setStatus false false 0#4) D)
  | cleared (hb : s.busy = false) (hi : s.nextIs .clear) (q : List Action)
      (ht : t = ((s.setInbox q).setStatus false false 0#4).zeroResults)
  | output (ha : s.nextAction = .engine) (hp : s.phase = .output) (D : Descriptor) (q : List Action)
      (ht : t = outputStep D (s.setInbox q))
  | reset (ha : s.nextAction = .reset) (q : List Action) (ht : t = (s.setInbox q).applyReset)

theorem HostEffect.control {s t : State} {i : Instr} {q : List Action} (hi : s.nextIs i)
    (he : HostEffect i (s.setInbox q) t) : ControlEffect s t := by
  cases he with
  | unchanged | read | irqEn | alg | lenLo | lenHi | stored =>
    exact .kept ⟨rfl, rfl, rfl, rfl, rfl, rfl, rfl⟩
  | rejected hb c hc hr =>
    refine .rejected hb ?_ c hc q rfl
    rcases hr with rfl | ⟨op, rfl⟩
    · exact .inl hi
    · exact .inr ⟨op, hi⟩
  | accepted hb hr D hD => exact .accepted hb (hr ▸ hi) D hD q rfl
  | cleared hb hr => exact .cleared hb (hr ▸ hi) q rfl

theorem EngineEffect.control {s t : State} {q : List Action} (ha : s.nextAction = .engine)
    (he : EngineEffect (s.setInbox q) t) : ControlEffect s t := by
  cases he with
  | idle | load | round | fold => exact .kept ⟨rfl, rfl, rfl, rfl, rfl, rfl, rfl⟩
  | output D hD hp => exact .output ha hp D q rfl

theorem step_control {s t : State} (h : step s = .next t) : ControlEffect s t := by
  rcases step_next h with ⟨w, rest, i, hq, hi, -, he⟩ | ⟨ha, he⟩ | ⟨rest, hq, ht⟩
  · exact he.control (nextIs_of_inbox hq hi)
  · exact he.control ha
  · exact .reset (nextAction_of_inbox hq) rest ht

/-! ### The flags, DIGEST and the latches -/

/-- Settles O45: acceptance sets BUSY, after the checks of R194 and R195; only OUTPUT and reset clear it. -/
theorem busyChangesOnlyByHashOutputReset : Obligations.BusyChangesOnlyByHashOutputReset := by
  intro s t h
  cases step_control h with
  | kept h => rw [h.busy]; simp_all
  | rejected hb _ c _ q ht => subst ht; simp_all
  | accepted hb hi D hD q ht =>
    obtain ⟨hdesc, -, hfits⟩ := hashCheck_ok hD
    obtain ⟨h1, h7⟩ := (desc_isSome_iff s.alg).1 (by simp [hdesc])
    exact ⟨fun _ _ => ⟨hi, h1, h7, hfits⟩, by simp [hb]⟩
  | cleared hb _ q ht => subst ht; simp_all
  | output ha hp D q ht => subst ht; exact ⟨nofun, fun _ _ => .inr ⟨ha, hp⟩⟩
  | reset ha q ht => exact ⟨by subst ht; nofun, fun _ _ => .inl ha⟩

/-- Settles O46: only OUTPUT sets DONE; the step of each command and of reset says what it leaves. -/
theorem doneChangesOnlyAsStated : Obligations.DoneChangesOnlyAsStated := by
  intro s t h
  refine ⟨fun h0 h1 => ?_, fun h1 h0 => ?_, fun hb hi => ?_, fun ha => ?_, fun hi => ?_⟩
  · cases step_control h with
    | kept h => simp [h.done, h0] at h1
    | output ha hp => exact ⟨ha, hp⟩
    | rejected _ _ _ _ _ ht | accepted _ _ _ _ _ ht | cleared _ _ _ ht | reset _ _ ht =>
      subst ht
      cases h1
  · cases step_control h with
    | kept h => simp [h.done, h1] at h0
    | rejected hb hi => exact .inr ⟨hb, hi.imp_right .inr⟩
    | accepted hb hi => exact .inr ⟨hb, .inl hi⟩
    | cleared hb hi => exact .inr ⟨hb, .inr (.inl hi)⟩
    | output _ _ _ _ ht => subst ht; cases h0
    | reset ha => exact .inl ha
  · rcases hi with hi | hi | ⟨op, hi⟩
    · cases (step_of_hash hb hi).symm.trans h
      exact hashCommand_done _
    · cases (step_of_clear hb hi).symm.trans h
      rfl
    · cases (step_of_cmdReserved hb hi).symm.trans h
      rfl
  · cases (step_of_reset ha).symm.trans h
    rfl
  · cases (step_of_nop hi).symm.trans h
    rfl

/-- Settles O47: only a rejection sets ERR, with a code of R340; the step of each command and of reset says
what it leaves. -/
theorem errChangesOnlyAsStated : Obligations.ErrChangesOnlyAsStated := by
  intro s t h
  refine ⟨fun h0 h1 => ?_, fun h1 h0 => ?_, fun hb hi => ?_, fun hb hi => ?_, fun ha => ?_, fun hb hi => ?_⟩
  · cases step_control h with
    | kept h => simp [h.err, h0] at h1
    | rejected hb hi c hc q ht => subst ht; exact ⟨hb, hc.1, hc.2, hi⟩
    | output _ _ _ _ ht => subst ht; exact absurd (h0.symm.trans h1) Bool.false_ne_true
    | accepted _ _ _ _ _ ht | cleared _ _ _ ht | reset _ _ ht =>
      subst ht
      cases h1
  · cases step_control h with
    | kept h => simp [h.err, h1] at h0
    | rejected _ _ _ _ _ ht => subst ht; cases h0
    | accepted hb hi => exact .inr ⟨hb, .inl hi⟩
    | cleared hb hi => exact .inr ⟨hb, .inr hi⟩
    | output _ _ _ _ ht => subst ht; exact absurd (h0.symm.trans h1) Bool.false_ne_true
    | reset ha => exact .inl ha
  · cases (step_of_hash hb hi).symm.trans h
    exact hashCommand_err_iff hb
  · cases (step_of_clear hb hi).symm.trans h
    rfl
  · cases (step_of_reset ha).symm.trans h
    rfl
  · obtain ⟨op, hi⟩ := hi
    cases (step_of_cmdReserved hb hi).symm.trans h
    exact ⟨rfl, rfl⟩

/-- Settles O48: the actions that change DIGEST, and the three that zero it. -/
theorem digestChangesOnlyAsStated : Obligations.DigestChangesOnlyAsStated := by
  intro s t h
  refine ⟨fun hne => ?_, fun hz => ?_⟩
  · cases step_control h with
    | kept h => exact absurd h.digest hne
    | rejected _ _ _ _ _ ht => subst ht; exact absurd rfl hne
    | accepted hb hi _ _ _ ht => subst ht; exact .inr (.inr ⟨hb, .inl ⟨hi, rfl⟩⟩)
    | cleared hb hi => exact .inr (.inr ⟨hb, .inr hi⟩)
    | output ha hp => exact .inr (.inl ⟨ha, hp⟩)
    | reset ha => exact .inl ha
  · have zero : t.digest = Vector.replicate 16 0#32 := by
      rcases hz with ha | ⟨hb, ⟨hi, ht⟩ | hi⟩
      · cases (step_of_reset ha).symm.trans h
        rfl
      · cases (step_of_hash hb hi).symm.trans h
        exact hashCommand_digest hb ht
      · cases (step_of_clear hb hi).symm.trans h
        rfl
    exact fun k => by simp [zero]

/-- Settles O49: acceptance and reset are the only writers of the latches. -/
theorem latchesChangeOnlyAtAcceptance : Obligations.LatchesChangeOnlyAtAcceptance := by
  intro s t h hne
  cases step_control h with
  | kept h => simp [h.algL, h.lenL, h.nch] at hne
  | accepted hb hi _ _ _ ht => subst ht; exact .inr ⟨hb, hi, rfl⟩
  | reset ha => exact .inl ha
  | rejected _ _ _ _ _ ht | cleared _ _ _ ht | output _ _ _ _ ht =>
    subst ht
    simp [outputStep] at hne

/-! ### The configuration registers -/

/-- A host transaction changes ALG and MSG_LEN by a write to an idle machine only, IRQ_EN by a write to its
offset only, and MEMSIZE never (R32, R39, R40, R42). -/
theorem HostEffect.config {i : Instr} {s t : State} (he : HostEffect i s t) :
    t.memSize = s.memSize ∧
    ((t.alg = s.alg ∧ t.msgLenLo = s.msgLenLo ∧ t.msgLenHi = s.msgLenHi) ∨
      (s.busy = false ∧ isRead i = false)) ∧
    ((t.doneEn = s.doneEn ∧ t.errEn = s.errEn) ∨ ∃ v, i = .regWr 0x0018#15 v) := by
  cases he with
  | irqEn v hi => exact ⟨rfl, .inl ⟨rfl, rfl, rfl⟩, .inr ⟨v, hi⟩⟩
  | alg hb hi a => exact ⟨rfl, .inr ⟨hb, hi⟩, .inl ⟨rfl, rfl⟩⟩
  | lenLo hb v hi => exact ⟨rfl, .inr ⟨hb, hi ▸ rfl⟩, .inl ⟨rfl, rfl⟩⟩
  | lenHi hb v hi => exact ⟨rfl, .inr ⟨hb, hi ▸ rfl⟩, .inl ⟨rfl, rfl⟩⟩
  | unchanged | read | rejected | accepted | cleared | stored =>
    exact ⟨rfl, .inl ⟨rfl, rfl, rfl⟩, .inl ⟨rfl, rfl⟩⟩

/-- The engine changes no configuration register (R383). -/
theorem EngineEffect.config {s t : State} (he : EngineEffect s t) :
    t.memSize = s.memSize ∧ (t.alg = s.alg ∧ t.msgLenLo = s.msgLenLo ∧ t.msgLenHi = s.msgLenHi) ∧
      t.doneEn = s.doneEn ∧ t.errEn = s.errEn := by
  cases he <;> exact ⟨rfl, ⟨rfl, rfl, rfl⟩, rfl, rfl⟩

/-- Settles O50: by the three kinds of action. -/
theorem configurationChangesOnlyByHostWrites : Obligations.ConfigurationChangesOnlyByHostWrites := by
  intro s t h
  rcases step_next h with ⟨w, rest, i, hq, hw, -, he⟩ | ⟨-, he⟩ | ⟨rest, hq, rfl⟩
  · have hi : s.nextIs i := nextIs_of_inbox hq hw
    obtain ⟨hmem, hops, hirq⟩ := he.config
    refine ⟨hmem, fun hne => ?_, fun hne => ?_⟩
    · rcases hops with ⟨ha, hlo, hhi⟩ | ⟨hb, hr⟩
      · simp [ha, hlo, hhi] at hne
      · exact .inr ⟨hb, i, hi, hr⟩
    · rcases hirq with ⟨hd, he⟩ | ⟨v, rfl⟩
      · simp [hd, he] at hne
      · exact .inr ⟨v, hi⟩
  · obtain ⟨hmem, ⟨ha, hlo, hhi⟩, hd, he⟩ := he.config
    simp [hmem, ha, hlo, hhi, hd, he]
  · have ha : s.nextAction = .reset := nextAction_of_inbox hq
    exact ⟨rfl, fun _ => .inl ha, fun _ => .inl ha⟩

/-! ### Reset -/

/-- The reset input gives every piece of state its reset value, from every state (R60, R380). -/
theorem applyReset_atReset (s : State) : AtReset s.applyReset where
  ctrl := rfl
  len := ⟨rfl, rfl⟩
  irqEn := ⟨rfl, rfl⟩
  status := ⟨rfl, rfl, rfl, rfl⟩
  chunks := rfl
  digest k := Vector.getElem_replicate k.isLt
  constants := ⟨rfl, rfl⟩
  irq := rfl
  phase := rfl
  latches := ⟨rfl, rfl, rfl, rfl, rfl⟩
  engine := ⟨fun i => ⟨Vector.getElem_replicate i.isLt, Vector.getElem_replicate i.isLt⟩,
    fun t => Vector.getElem_replicate t.isLt⟩
  unwritten _ := rfl

/-- Settles O1: the reset state is what the reset input makes of it. -/
theorem resetStateHoldsTheStatedValues : Obligations.ResetStateHoldsTheStatedValues :=
  applyReset_atReset State.reset

end Sys2Proof.Machine
end

section
/-! SUPPORT. The message memory as the host sees it (spec 20_memory.md R73 to R84): what a window read answers,
what a window write stores and leaves, and what a step can do to the memory. -/

namespace Sys2Proof.Machine

/-! ### The rows of the window -/

section
variable (a : BitVec 15) (v : Word32) (s : State)

theorem exec_msgRd8 : exec (.msgRd8 a) s = .next (s.windowRead a.toNat 1) := rfl
theorem exec_msgRd16 : exec (.msgRd16 a) s = .next (s.windowRead a.toNat 2) := rfl
theorem exec_msgRd32 : exec (.msgRd32 a) s = .next (s.windowRead a.toNat 4) := rfl
theorem exec_msgWr8 : exec (.msgWr8 a v) s = .next (s.windowWrite a.toNat 1 v) := rfl
theorem exec_msgWr16 : exec (.msgWr16 a v) s = .next (s.windowWrite a.toNat 2 v) := rfl
theorem exec_msgWr32 : exec (.msgWr32 a v) s = .next (s.windowWrite a.toNat 4 v) := rfl

end

/-- A write row is a window write of the bytes it names (R77). -/
theorem exec_of_windowWriteOf {i : Instr} {a n : Nat} (h : windowWriteOf i = some (a, n)) (s : State) :
    ∃ v, exec i s = .next (s.windowWrite a n v) := by
  cases i with
  | msgWr8 a v | msgWr16 a v | msgWr32 a v => cases h; exact ⟨v, rfl⟩
  | _ => cases h

/-! ### Reading bytes (R75, R76) -/

theorem Memory.readByte_draws_le (m : Memory) (d a : Nat) : d ≤ (m.readByte d a).2 := by
  unfold Memory.readByte
  split
  · exact le_rfl
  · exact Nat.le_succ d

/-- A read takes no draw back. -/
theorem Memory.readBytes_draws_le (m : Memory) (d a n : Nat) : d ≤ (m.readBytes d a n).2 := by
  induction n generalizing d a with
  | zero => exact le_rfl
  | succ n ih => exact (m.readByte_draws_le d a).trans (ih ..)

/-! ### Window reads (R76, R78) -/

theorem State.windowRead_of_effective {s : State} {a n : Nat} (hn : a % n = 0) (ha : a < s.memSize.bytes) :
    s.windowRead a n =
      { s with
        readData := laneValue (s.mem.readBytes s.draws a n).1
        draws := (s.mem.readBytes s.draws a n).2 } := by
  rw [State.windowRead_eq, if_pos ((windowEffective_iff ..).2 ⟨hn, ha⟩)]
  rfl

theorem State.windowRead_of_ineffective {s : State} {a n : Nat} (h : a % n ≠ 0 ∨ s.memSize.bytes ≤ a) :
    s.windowRead a n = { s with readData := 0#32 } := by
  have he : ¬ windowEffective s.memSize.bytes a n = true := by
    rw [windowEffective_iff]
    omega
  rw [State.windowRead_eq, if_neg he]
  rfl

/-- Reading written bytes draws nothing. -/
theorem State.windowRead_of_written {s : State} {a : Nat} (bs : List Byte) (hn : a % bs.length = 0)
    (ha : a < s.memSize.bytes) (h : ∀ i (hi : i < bs.length), s.mem.lookup (a + i) = some bs[i]) :
    s.windowRead a bs.length = { s with readData := laneValue bs } := by
  rw [State.windowRead_of_effective hn ha, Memory.readBytes_of_written bs h]

/-! ### Window writes (R77, R78) -/

theorem State.windowWrite_of_effective {s : State} {a n : Nat} (v : Word32) (hb : s.busy = false)
    (hn : a % n = 0) (ha : a < s.memSize.bytes) :
    s.windowWrite a n v = s.setMem (s.mem.write a n v) := by
  rcases s.windowWrite_cases a n v with ⟨-, -, hw⟩ | ⟨hb' | he, -⟩
  · exact hw
  · simp [hb] at hb'
  · simp [windowEffective, hn, ha] at he

theorem State.windowWrite_of_ineffective {s : State} {a n : Nat} (v : Word32)
    (h : a % n ≠ 0 ∨ s.memSize.bytes ≤ a) : s.windowWrite a n v = s := by
  rcases s.windowWrite_cases a n v with ⟨-, he, -⟩ | ⟨-, hw⟩
  · rw [windowEffective_iff] at he
    omega
  · exact hw

/-- A byte that a write names takes its lane (R77). -/
theorem Memory.lookup_write_add (m : Memory) (a : Nat) {n i : Nat} (hi : i < n) (v : Word32) :
    (m.write a n v).lookup (a + i) = some (laneByte n i v) := by
  rw [Memory.lookup_write, if_pos (by omega), Nat.add_sub_cancel_left]

/-- A byte that a write does not name reads as before (R77). -/
theorem Memory.lookup_write_outside (m : Memory) {a n b : Nat} (h : b < a ∨ a + n ≤ b) (v : Word32) :
    (m.write a n v).lookup b = m.lookup b := by
  rw [Memory.lookup_write, if_neg (by omega)]

/-! ### The statements about reads -/

/-- Settles O22: by the five kinds of read. -/
theorem hostReadsChangeNoRegisterAndNoByte : Obligations.HostReadsChangeNoRegisterAndNoByte := by
  intro s i h
  cases i with
  | regRd off => exact ⟨_, _, rfl, le_rfl⟩
  | regNarrow dir size off data =>
    cases dir with
    | read => exact ⟨_, _, rfl, le_rfl⟩
    | write => cases h
  | msgRd8 a | msgRd16 a | msgRd32 a => exact ⟨_, _, rfl, Memory.readBytes_draws_le ..⟩
  | _ => cases h

/-- Settles O23: the bytes read one after the other, put together by the bus lanes. -/
theorem windowReadReturnsBytesBigEndian : Obligations.WindowReadReturnsBytesBigEndian := by
  refine ⟨fun m d a => rfl, fun s a ha => ⟨?_, fun h2 => ?_, fun h4 => ?_⟩⟩
  · rw [exec_msgRd8, State.windowRead_of_effective (Nat.mod_one _) ha, ← laneValue_one]
    rfl
  · rw [exec_msgRd16, State.windowRead_of_effective h2 ha, BitVec.append_assoc, BitVec.cast_eq,
      ← laneValue_two]
    rfl
  · rw [exec_msgRd32, State.windowRead_of_effective h4 ha, ← laneValue_four]
    rfl

theorem exec_msgRd8_of_unwritten {s : State} {a : BitVec 15} (ha : a.toNat < s.memSize.bytes)
    (hm : s.mem.lookup a.toNat = none) :
    exec (.msgRd8 a) s =
      .next { s with readData := 0#24 ++ Config.freeByte s.draws, draws := s.draws + 1 } := by
  rw [(windowReadReturnsBytesBigEndian.2 s a ha).1, Memory.readByte_of_unwritten hm]

/-- Settles O24: the first read draws once, and leaves the byte unwritten for the second. -/
theorem unwrittenByteReadsAsAFreshDraw : Obligations.UnwrittenByteReadsAsAFreshDraw :=
  fun _ _ ha hm => ⟨_, exec_msgRd8_of_unwritten ha hm, rfl, exec_msgRd8_of_unwritten ha hm⟩

/-- Settles O25: by the three sizes. A single byte is never misaligned. -/
theorem ineffectiveWindowAccessDoesNothing : Obligations.IneffectiveWindowAccessDoesNothing := by
  refine fun s a v => ⟨fun h => ?_, fun h => ?_, fun h => ?_⟩
  · rw [exec_msgRd8, exec_msgWr8, State.windowRead_of_ineffective (.inr h),
      State.windowWrite_of_ineffective v (.inr h)]
    exact ⟨rfl, rfl⟩
  · rw [exec_msgRd16, exec_msgWr16, State.windowRead_of_ineffective h, State.windowWrite_of_ineffective v h]
    exact ⟨rfl, rfl⟩
  · rw [exec_msgRd32, exec_msgWr32, State.windowRead_of_ineffective h, State.windowWrite_of_ineffective v h]
    exact ⟨rfl, rfl⟩

/-! ### The statements about writes -/

/-- Settles O26: by the three sizes, and each by the bytes the write names. -/
theorem windowWriteStoresItsBytesOnly : Obligations.WindowWriteStoresItsBytesOnly := by
  intro s a v hb ha
  refine ⟨⟨_, congrArg Host.Outcome.next (State.windowWrite_of_effective v hb (Nat.mod_one _) ha), fun b => ?_⟩,
    fun h2 => ⟨_, congrArg Host.Outcome.next (State.windowWrite_of_effective v hb h2 ha), fun b => ?_⟩,
    fun h4 => ⟨_, congrArg Host.Outcome.next (State.windowWrite_of_effective v hb h4 ha), fun b => ?_⟩⟩
  · split_ifs with h0
    · exact h0 ▸ s.mem.lookup_write_add a.toNat (i := 0) (by decide) v
    · exact s.mem.lookup_write_outside (by omega) v
  · split_ifs with h0 h1
    · exact h0 ▸ s.mem.lookup_write_add a.toNat (i := 0) (by decide) v
    · exact h1 ▸ s.mem.lookup_write_add a.toNat (i := 1) (by decide) v
    · exact s.mem.lookup_write_outside (by omega) v
  · split_ifs with h0 h1 h2 h3
    · exact h0 ▸ s.mem.lookup_write_add a.toNat (i := 0) (by decide) v
    · exact h1 ▸ s.mem.lookup_write_add a.toNat (i := 1) (by decide) v
    · exact h2 ▸ s.mem.lookup_write_add a.toNat (i := 2) (by decide) v
    · exact h3 ▸ s.mem.lookup_write_add a.toNat (i := 3) (by decide) v
    · exact s.mem.lookup_write_outside (by omega) v

/-- Settles O28: a window write that has its effect names `n` bytes from `a` on, and one that has none
changes nothing. -/
theorem windowWriteFrame : Obligations.WindowWriteFrame := by
  intro s i a n h
  obtain ⟨v, hx⟩ := exec_of_windowWriteOf h s
  refine ⟨_, hx, ?_⟩
  rcases s.windowWrite_cases a n v with ⟨-, -, hw⟩ | ⟨-, hw⟩ <;> rw [hw]
  · exact ⟨rfl, fun b hb => s.mem.lookup_write_outside hb v⟩
  · exact ⟨rfl, fun _ _ => rfl⟩

/-! ### Reading back (R80) -/

/-- Two neighbouring bytes of a word make its half (R165). -/
theorem half_of_bytes (v : Word32) (k : Nat) :
    v.extractLsb' (k + 8) 8 ++ v.extractLsb' k 8 = v.extractLsb' k 16 := by
  apply BitVec.eq_of_getLsbD_eq
  intro i hi
  simp only [BitVec.getLsbD_append, BitVec.getLsbD_extractLsb']
  split
  · rw [decide_eq_true (by omega), decide_eq_true hi]
  · rw [decide_eq_true (by omega), decide_eq_true hi, show k + 8 + (i - 8) = k + i by omega]

/-- After a 4-byte write at `a`, a read of an aligned part of its four bytes returns their lanes and draws
nothing. -/
theorem State.windowRead_of_write {t : State} {m : Memory} {a k n x : Nat} {v : Word32}
    (hm : t.mem = m.write a 4 v) (h4 : a % 4 = 0) (ha : a < t.memSize.bytes) (hx : x = a + k)
    (hk : (n = 1 ∨ n = 2 ∨ n = 4) ∧ k % n = 0 ∧ k + n ≤ 4) :
    t.windowRead x n =
      { t with readData := laneValue ((List.range n).map fun i => laneByte 4 (k + i) v) } := by
  obtain ⟨hn, hkn, hle⟩ := hk
  have hlen : ((List.range n).map fun i => laneByte 4 (k + i) v).length = n := by simp
  have haligned : x % n = 0 := by rcases hn with rfl | rfl | rfl <;> omega
  have hinside : x < t.memSize.bytes := by
    have := t.memSize.legal.1
    omega
  rw [← State.windowRead_of_written _ (by rwa [hlen]) hinside, hlen]
  intro i hi
  rw [hlen] at hi
  rw [hm, hx, Nat.add_assoc, Memory.lookup_write_add m a (by omega) v]
  simp

/-- Settles O27: every read names bytes that the write stored, and the bus lanes put them together again. -/
theorem windowReadReturnsWhatWasWritten : Obligations.WindowReadReturnsWhatWasWritten := by
  intro s a v hb h4 ha
  have hsize := s.memSize.legal
  have off : ∀ k < 4, (a + BitVec.ofNat 15 k).toNat = a.toNat + k := fun k hk => by
    rw [BitVec.toNat_add, BitVec.toNat_ofNat]
    omega
  have word := (laneValue_four _ _ _ _).trans (word_of_bytes v)
  have high := (laneValue_two _ _).trans (congrArg (0#16 ++ ·) (half_of_bytes v 16))
  have low := (laneValue_two _ _).trans (congrArg (0#16 ++ ·) (half_of_bytes v 0))
  obtain ⟨t, ht, hm, hs⟩ : ∃ t, exec (.msgWr32 a v) s = .next t ∧ t.mem = s.mem.write a.toNat 4 v ∧
      t.memSize = s.memSize :=
    ⟨_, congrArg Host.Outcome.next (State.windowWrite_of_effective v hb h4 ha), rfl, rfl⟩
  have read : ∀ (x : BitVec 15) (k n : Nat) {w : Word32}, x.toNat = a.toNat + k →
      ((n = 1 ∨ n = 2 ∨ n = 4) ∧ k % n = 0 ∧ k + n ≤ 4) →
      laneValue ((List.range n).map fun i => laneByte 4 (k + i) v) = w →
      (.next (t.windowRead x.toNat n) : Result) = .next { t with readData := w } := by
    rintro x k n w hx hk rfl
    rw [State.windowRead_of_write hm h4 (hs ▸ ha) hx hk]
  exact ⟨t, ht, read a 0 4 rfl (by decide) word, read a 0 2 rfl (by decide) high,
    read _ 2 2 (off 2 (by decide)) (by decide) low,
    read a 0 1 rfl (by decide) (laneValue_one _),
    read _ 1 1 (off 1 (by decide)) (by decide) (laneValue_one _),
    read _ 2 1 (off 2 (by decide)) (by decide) (laneValue_one _),
    read _ 3 1 (off 3 (by decide)) (by decide) (laneValue_one _)⟩

/-! ### The statements about steps -/

/-- Settles O3: the inbox's first action is the transaction. -/
theorem stepRunsTheDecodedTransaction : Obligations.StepRunsTheDecodedTransaction := by
  intro s w rest i hq hi
  rw [step_of_nextIs (nextIs_of_inbox hq hi), hq]
  rfl

/-- A host transaction that changes the memory is an effective window write in an idle machine (R83). -/
theorem HostEffect.mem_changed {i : Instr} {s t : State} (he : HostEffect i s t) (hne : t.mem ≠ s.mem) :
    s.busy = false ∧ ∃ a n, windowWriteOf i = some (a, n) ∧ a % n = 0 ∧ a < s.memSize.bytes := by
  cases he with
  | stored hb a n v hi _ he =>
    obtain ⟨hn, ha⟩ := (windowEffective_iff ..).1 he
    exact ⟨hb, a, n, hi, hn, ha⟩
  | _ => exact absurd rfl hne

/-- The engine never writes the message memory (R83). -/
theorem EngineEffect.mem_eq {s t : State} (he : EngineEffect s t) : t.mem = s.mem := by
  cases he <;> rfl

/-- Settles O29: by the three kinds of action. -/
theorem onlyWindowWritesAndResetChangeMemory : Obligations.OnlyWindowWritesAndResetChangeMemory := by
  intro s t h hne
  rcases step_next h with ⟨w, rest, i, hq, hi, -, he⟩ | ⟨-, he⟩ | ⟨rest, hq, -⟩
  · obtain ⟨hb, a, n, hw⟩ := he.mem_changed hne
    exact .inr ⟨hb, i, a, n, nextIs_of_inbox hq hi, hw⟩
  · exact absurd he.mem_eq hne
  · exact .inl (nextAction_of_inbox hq)

end Sys2Proof.Machine
end

section
/-! SUPPORT. Trace words and the operations they spell (spec 30_encoding.md R101 to R104): what the decoder answers
for an assembled word, what the encoder gives for a decoded one, and what a word written to CMD or CTRL means. -/

namespace Sys2Proof.Machine

/-! ### Decoding an assembled word -/

/-- The decoder reads the fields back from a word that R104 spells. -/
theorem decode_traceWord (dir : BitVec 1) {size : BitVec 2} (window : BitVec 1) (off : BitVec 15)
    (data : BitVec 32) (hs : size ≠ 3#2) :
    decode (traceWord dir size window off data) =
      .instr (if window = 1#1 then decodeWindow dir size off data
        else decodeRegister dir size off data) := by
  simp only [decode, reservedHigh_traceWord, reservedLow_traceWord, sizeField_traceWord,
    windowField_traceWord, dirField_traceWord, offsetField_traceWord, dataField_traceWord, ne_eq,
    not_true_eq_false, or_self, if_false, hs]
  split <;> rfl

theorem decode_cmdWord (v : Word32) : decode (cmdWord v) = .instr (decodeCmd v) :=
  decode_traceWord 1#1 0#1 cmdOffset v (by decide)

theorem decode_ctrlWord (rsv : BitVec 28) (alg : BitVec 4) :
    decode (ctrlWord rsv alg) = .instr (decodeCtrl (rsv ++ alg)) :=
  decode_traceWord 1#1 0#1 ctrlOffset (rsv ++ alg) (by decide)

/-- The codes from 8 on share a row (R103). -/
theorem decodeCtrl_of_high (rsv : BitVec 28) {alg : BitVec 4} (h : 8 ≤ alg.toNat) :
    decodeCtrl (rsv ++ alg) = .algReserved8F rsv (alg.extractLsb' 0 3) := by
  have hne : ∀ k : BitVec 4, k.toNat < 8 → alg ≠ k := by rintro k hk rfl; omega
  simp only [decodeCtrl, low3_of_alg, algField_append, rsvField_append]
  rw [if_neg (hne _ (by decide)), if_neg (hne _ (by decide)), if_neg (hne _ (by decide)),
    if_neg (hne _ (by decide)), if_neg (hne _ (by decide)), if_neg (hne _ (by decide)),
    if_neg (hne _ (by decide)), if_neg (hne _ (by decide))]

/-- Settles O6: by the operation's row; a CMD or CTRL word is decoded by its value, any other by its fields. -/
theorem decodeOfEncodeIsTheOperation : Obligations.DecodeOfEncodeIsTheOperation := by
  intro i hw
  cases i with
  | nop | hash | clear => exact decode_cmdWord _
  | cmdReserved op =>
    simp only [Instr.wf, Bool.and_eq_true, bne_iff_ne, ne_eq, and_assoc] at hw
    obtain ⟨h0, h1, h2⟩ := hw
    rw [encode, decode_cmdWord, decodeCmd, if_neg h0, if_neg h1, if_neg h2]
  | sha1 rsv | sha224 rsv | sha256 rsv | sha384 rsv | sha512 rsv | sha512_224 rsv | sha512_256 rsv
  | algReserved0 rsv =>
    simp [encode, decode_ctrlWord, decodeCtrl, algField_append, rsvField_append]
  | algReserved8F rsv low =>
    have hl : 8 ≤ (1#1 ++ low).toNat ∧ (1#1 ++ low).extractLsb' 0 3 = low := by
      clear hw
      revert low
      decide
    rw [encode, decode_ctrlWord, decodeCtrl_of_high rsv hl.1, hl.2]
  | regRd off => exact decode_traceWord _ _ _ _ (by decide)
  | regWr off data =>
    simp only [Instr.wf, Bool.and_eq_true, bne_iff_ne, ne_eq] at hw
    obtain ⟨hctrl, hcmd⟩ := hw
    rw [encode, decode_traceWord _ _ _ _ (by decide)]
    simp [decodeRegister, decodeRegWrite, hctrl, hcmd]
  | regNarrow dir size off data =>
    cases dir with
    | read =>
      obtain rfl : data = 0#32 := by simpa [Instr.wf] using hw
      cases size <;> exact decode_traceWord _ _ _ _ (by decide)
    | write => cases size <;> exact decode_traceWord _ _ _ _ (by decide)
  | msgRd8 a | msgRd16 a | msgRd32 a | msgWr8 a data | msgWr16 a data | msgWr32 a data =>
    exact decode_traceWord _ _ _ _ (by decide)

/-- Settles O8: each word is evaluated. -/
theorem listedTraceWordsDecode : Obligations.ListedTraceWordsDecode := by
  unfold Obligations.ListedTraceWordsDecode
  decide

/-- Settles O9: the word is `wr32 CMD, v`, whose row is chosen by all of `v`. -/
theorem commandsAreMatchedByTheWholeValue : Obligations.CommandsAreMatchedByTheWholeValue := by
  intro v
  have hword : 0x82000008#32 ++ v = cmdWord v := congrArg (· ++ v) (by decide)
  have hval : ∀ k : Word32, v = k ↔ v.toNat = k.toNat := fun k => BitVec.toNat_inj.symm
  rw [hword, decode_cmdWord, decodeCmd]
  simp only [hval]
  rfl

/-! ### One meaning for a word written to CMD or CTRL (R101, R102, R208) -/

theorem encode_decodeCmd (v : Word32) : encode (decodeCmd v) = cmdWord v := by
  unfold decodeCmd
  split
  · next h => rw [h]; rfl
  split
  · next h => rw [h]; rfl
  split
  · next h => rw [h]; rfl
  rfl

/-- The row of the CMD format does what a register write of the value does (R190, R208). -/
theorem exec_decodeCmd (v : Word32) (s : State) : exec (decodeCmd v) s = .next (runCommand s v) := by
  unfold decodeCmd
  split
  · next h => subst h; cases hb : s.busy <;> simp [exec, execNop, runCommand, State.unlessBusy, hb]
  split
  · next h => subst h; rfl
  split
  · next h => subst h; rfl
  rfl

/-- The row of the CTRL format: the word that carries the value, and what it does (R102, R32). -/
theorem decodeCtrl_row (v : Word32) :
    encode (decodeCtrl v) = traceWord 1#1 2#2 0#1 ctrlOffset v ∧
      ∀ s, exec (decodeCtrl v) s = .next (s.writeCtrl v) := by
  obtain ⟨rsv, alg, rfl⟩ : ∃ (rsv : BitVec 28) (alg : BitVec 4), rsv ++ alg = v :=
    ⟨_, _, ctrl_of_fields v⟩
  by_cases h : 8 ≤ alg.toNat
  · have ha : rsv ++ (1#1 ++ alg.extractLsb' 0 3) = rsv ++ alg := congrArg (rsv ++ ·) (alg_high alg h)
    rw [decodeCtrl_of_high rsv h, ← ha]
    exact ⟨rfl, fun _ => rfl⟩
  · have hlow : alg = 0#4 ∨ alg = 1#4 ∨ alg = 2#4 ∨ alg = 3#4 ∨ alg = 4#4 ∨ alg = 5#4 ∨ alg = 6#4 ∨
        alg = 7#4 := by
      revert alg
      decide
    simp only [decodeCtrl, algField_append, rsvField_append]
    rcases hlow with rfl | rfl | rfl | rfl | rfl | rfl | rfl | rfl <;> exact ⟨rfl, fun _ => rfl⟩

theorem encode_decodeCtrl (v : Word32) : encode (decodeCtrl v) = traceWord 1#1 2#2 0#1 ctrlOffset v :=
  (decodeCtrl_row v).1

theorem exec_decodeCtrl (v : Word32) (s : State) : exec (decodeCtrl v) s = .next (s.writeCtrl v) :=
  (decodeCtrl_row v).2 s

/-- Settles O16: REG_WR at either offset is the register's own write. -/
theorem registerWriteAgreesWithTheFormatRows : Obligations.RegisterWriteAgreesWithTheFormatRows :=
  fun s v => ⟨(exec_decodeCmd v s).symm, (exec_decodeCtrl v s).symm⟩

theorem State.writeCtrl_of_idle {s : State} (hb : s.busy = false) (v : Word32) :
    s.writeCtrl v = s.setAlg (algOf v) := State.unlessBusy_of_idle _ hb

/-- Settles O17: every row of the CTRL format stores the low four bits of its word. -/
theorem ctrlWriteStoresTheAlgorithmCode : Obligations.CtrlWriteStoresTheAlgorithmCode := by
  refine ⟨fun s rsv low hb => ?_, fun v => ⟨decodeCtrl v, ?_, fun s hb => ?_⟩, fun s => ?_⟩
  · have row : ∀ alg : BitVec 4, (.next (s.writeCtrl (rsv ++ alg)) : Result) = .next { s with alg := alg } :=
      fun alg => by rw [State.writeCtrl_of_idle hb, algOf, algField_append]; rfl
    exact ⟨row _, row _, row _, row _, row _, row _, row _, row _, row _⟩
  · have hword : 0x82000004#32 ++ v = traceWord 1#1 2#2 0#1 ctrlOffset v := congrArg (· ++ v) (by decide)
    rw [hword]
    exact decode_traceWord 1#1 0#1 ctrlOffset v (by decide)
  · rw [exec_decodeCtrl, State.writeCtrl_of_idle hb]
    rfl
  · exact congrArg (fun w => Host.Outcome.next (s.reply w)) (setWidth_eq_append 28 4 s.alg)

/-! ### Encoding a decoded word -/

section
variable (dir : BitVec 1) {size : BitVec 2} (off : BitVec 15) (data : BitVec 32)

/-- A decoded word of the register region, encoded again: a read's DATA is 0 (log 7). -/
theorem encode_decodeRegister (hs : size ≠ 3#2) :
    encode (decodeRegister dir size off data) =
      traceWord dir size 0#1 off (if dir = 1#1 then data else 0#32) := by
  rcases size_cases size hs with rfl | rfl | rfl <;> rcases bit_cases dir with rfl | rfl
  case inr.inr.inr =>
    show encode (decodeRegWrite off data) = traceWord 1#1 2#2 0#1 off data
    unfold decodeRegWrite
    split
    · next h => rw [encode_decodeCmd, h]; rfl
    split
    · next h => rw [encode_decodeCtrl, h]
    rfl
  all_goals rfl

/-- A decoded word of the message window, encoded again: a read's DATA is 0 (log 7). -/
theorem encode_decodeWindow (hs : size ≠ 3#2) :
    encode (decodeWindow dir size off data) =
      traceWord dir size 1#1 off (if dir = 1#1 then data else 0#32) := by
  rcases size_cases size hs with rfl | rfl | rfl <;> rcases bit_cases dir with rfl | rfl <;> rfl

end

/-- A word that is accepted has its reserved bits 0 and SZ not 3 (R104). -/
theorem decode_eq_instr {w : Word64} {i : Instr} (h : decode w = .instr i) :
    reservedHigh w = 0#5 ∧ reservedLow w = 0#8 ∧ sizeField w ≠ 3#2 := by
  unfold decode at h
  split at h
  · cases h
  · next hr =>
    split at h
    · cases h
    · next hs =>
      simp only [ne_eq, not_or, not_not] at hr
      exact ⟨hr.1, hr.2, hs⟩

/-- The encoding of a decoded word is the word, with a read's DATA at 0. -/
theorem encode_of_decode {w : Word64} {i : Instr} (h : decode w = .instr i) :
    encode i = traceWord (dirField w) (sizeField w) (windowField w) (offsetField w)
      (if dirField w = 1#1 then dataField w else 0#32) := by
  obtain ⟨hh, hl, hs⟩ := decode_eq_instr h
  rw [← traceWord_of_fields hh hl, decode_traceWord _ _ _ _ hs] at h
  cases h
  rcases bit_cases (windowField w) with hw | hw <;> rw [hw]
  · exact encode_decodeRegister _ _ _ hs
  · exact encode_decodeWindow _ _ _ hs

/-- Settles O7: the encoding has the fields of the word, but for a read's DATA. -/
theorem encodeOfDecodeIsTheWord : Obligations.EncodeOfDecodeIsTheWord := by
  intro w i h
  obtain ⟨hh, hl, -⟩ := decode_eq_instr h
  refine ⟨decode_wf h, fun k _ hk => ?_⟩
  rw [encode_of_decode h]
  conv_rhs => rw [← traceWord_of_fields hh hl]
  rcases hk with hk | hk
  · have hdata : ¬ k < 32 := by omega
    rw [traceWord_getLsbD, traceWord_getLsbD, if_neg hdata, if_neg hdata]
  · have hd : dirField w = 1#1 := by
      apply BitVec.eq_of_getLsbD_eq
      intro j hj
      obtain rfl : j = 0 := by omega
      simpa [dirField] using hk
    rw [if_pos hd]

/-! ### The words the decoder rejects -/

/-- A field of a word has a bit set when it is not 0. -/
theorem extractLsb'_ne_zero_iff {n : Nat} (w : BitVec n) (a len : Nat) :
    w.extractLsb' a len ≠ 0#len ↔ ∃ k, a ≤ k ∧ k < a + len ∧ w.getLsbD k = true := by
  constructor
  · intro h
    by_contra hn
    refine h (BitVec.eq_of_getLsbD_eq fun i hi => ?_)
    have := fun hb => hn ⟨a + i, by omega, by omega, hb⟩
    simpa [BitVec.getLsbD_extractLsb', hi] using this
  · rintro ⟨k, ha, hk, hb⟩ h
    have := congrArg (·.getLsbD (k - a)) h
    simp [Nat.add_sub_cancel' ha, hb, show k - a < len by omega] at this

theorem sizeField_eq_three_iff (w : Word64) :
    sizeField w = 3#2 ↔ w.getLsbD 56 = true ∧ w.getLsbD 57 = true := by
  have h : ∀ x : BitVec 2, x = 3#2 ↔ x.getLsbD 0 = true ∧ x.getLsbD 1 = true := by decide
  simp [h, sizeField]

theorem decode_reject_iff (w : Word64) :
    (∃ why, decode w = .reject why) ↔ reservedHigh w ≠ 0#5 ∨ reservedLow w ≠ 0#8 ∨ sizeField w = 3#2 := by
  constructor
  · rintro ⟨why, h⟩
    by_contra hn
    simp only [ne_eq, not_or, not_not] at hn
    obtain ⟨hh, hl, hs⟩ := hn
    rw [← traceWord_of_fields hh hl, decode_traceWord _ _ _ _ hs] at h
    cases h
  · intro hr
    cases h : decode w with
    | reject why => exact ⟨why, rfl⟩
    | instr i =>
      obtain ⟨hh, hl, hs⟩ := decode_eq_instr h
      simp [hh, hl, hs] at hr

/-- A host transaction is refused when the decoder rejects its word, since every operation answers a next state. -/
theorem hostStep_refused_iff (w : Word64) (s : State) :
    hostStep w s = .refused (.notATraceWord w) ↔ ∃ why, decode w = .reject why := by
  unfold hostStep
  cases h : decode w with
  | reject why => simp
  | instr i =>
    obtain ⟨t, ht, -⟩ := exec_effect i s (decode_wf h)
    simp [ht]

/-- Settles O4: the step is the transaction's, and the decoder rejects exactly these words. -/
theorem onlyUnspelledWordsAreRefused : Obligations.OnlyUnspelledWordsAreRefused := by
  intro s w rest hq
  have hstep : step s = hostStep w (s.setInbox rest) := by rw [step, hq]
  rw [hstep, hostStep_refused_iff, decode_reject_iff, sizeField_eq_three_iff, reservedHigh, reservedLow,
    extractLsb'_ne_zero_iff, extractLsb'_ne_zero_iff, ← or_assoc, ← exists_or]
  refine or_congr_left (exists_congr fun k => ?_)
  rw [← and_assoc, ← and_assoc, ← or_and_right]
  exact and_congr_left' or_comm

/-! ### The words of the host lines (R104, R107 to R109) -/

/-- OFF of a host line is its region bit and its offset in the region (20_memory.md R71). -/
theorem append_offset {n : Nat} (x : BitVec n) (off : BitVec 16) :
    x ++ off.extractLsb' 15 1 ++ off.extractLsb' 0 15 = x ++ off := by
  apply BitVec.eq_of_getLsbD_eq
  intro k hk
  simp only [BitVec.getLsbD_append, BitVec.getLsbD_extractLsb']
  by_cases h0 : k < 15
  · simp [h0, show k < 16 by omega]
  by_cases h1 : k < 16
  · obtain rfl : k = 15 := by omega
    simp
  · simp [h0, h1, show ¬ k - 15 < 1 by omega, show k - 15 - 1 = k - 16 by omega]

theorem transactionWord_eq (dir : BitVec 1) (size : AccessSize) (off : BitVec 16) (data : Word32) :
    transactionWord dir size off data = dir ++ 0#5 ++ size.code ++ 0#8 ++ off ++ data :=
  congrArg (· ++ data) (append_offset (dir ++ 0#5 ++ size.code ++ 0#8) off)

theorem wrWord_four (off : BitVec 16) (v : Word32) : wrWord .four off v = 0x8200#16 ++ off ++ v :=
  (transactionWord_eq ..).trans (congrArg (· ++ off ++ v) (by decide))

theorem wrWord_two (off : BitVec 16) (v : Word32) : wrWord .two off v = 0x8100#16 ++ off ++ v :=
  (transactionWord_eq ..).trans (congrArg (· ++ off ++ v) (by decide))

theorem wrWord_one (off : BitVec 16) (v : Word32) : wrWord .one off v = 0x8000#16 ++ off ++ v :=
  (transactionWord_eq ..).trans (congrArg (· ++ off ++ v) (by decide))

theorem rdWord_four (off : BitVec 16) : rdWord .four off = 0x0200#16 ++ off ++ 0#32 :=
  (transactionWord_eq ..).trans (congrArg (· ++ off ++ 0#32) (by decide))

theorem rdWord_two (off : BitVec 16) : rdWord .two off = 0x0100#16 ++ off ++ 0#32 :=
  (transactionWord_eq ..).trans (congrArg (· ++ off ++ 0#32) (by decide))

theorem rdWord_one (off : BitVec 16) : rdWord .one off = 0x0000#16 ++ off ++ 0#32 :=
  (transactionWord_eq ..).trans (congrArg (· ++ off ++ 0#32) (by decide))

/-- The word of a write to a register, by the bits of its fields above DATA. -/
theorem wrWord_reg {r : Reg} {head : Word32} (h : 0x8200#16 ++ regOff r = head) (v : Word32) :
    wrWord .four (regOff r) v = head ++ v := by
  rw [wrWord_four, h]

/-- A spelled line that is a fixed list of transactions has those words, whatever is read. -/
theorem words_of_fixed {op : HostOp} {ws : List Word64} (h : op.spelled = true)
    (he : op.expansion = .fixed ws) (seen : List Word32) : op.words seen = some ws :=
  words_eq_some.2 ⟨h, by rw [he]; rfl⟩

/-- The words of a `msg`, by the bits of their fields (R109). -/
theorem msgWords_eq (b : List Byte) :
    msgWords b =
      (List.range (b.length / 4)).map (fun i => 0x8200#16 ++ BitVec.ofNat 16 (0x8000 + 4 * i) ++
          (b.getD (4 * i) 0x00#8 ++ b.getD (4 * i + 1) 0x00#8 ++ b.getD (4 * i + 2) 0x00#8 ++
            b.getD (4 * i + 3) 0x00#8)) ++
        (List.range (b.length % 4)).map (fun r =>
          0x8000#16 ++ BitVec.ofNat 16 (0x8000 + 4 * (b.length / 4) + r) ++
            (0#24 ++ b.getD (4 * (b.length / 4) + r) 0x00#8)) := by
  unfold msgWords
  refine congrArg₂ (· ++ ·) (List.map_congr_left fun i _ => wrWord_four ..) (List.map_congr_left fun r _ => ?_)
  rw [wrWord_one, msgOff, ← Nat.add_assoc]
  exact congrArg (_ ++ ·) (setWidth_eq_append 24 8 _)

/-- Settles O56: each line's expansion, its words by their fields. -/
theorem hostLinesHaveTheirTabledWords : Obligations.HostLinesHaveTheirTabledWords := by
  have setalg : ∀ a, wrWord .four (regOff .ctrl) a = 0x82000004#32 ++ a := wrWord_reg (by decide)
  have setlen : ∀ len : Word64,
      setlenWords len = [0x82000010#32 ++ len.extractLsb' 0 32, 0x82000014#32 ++ len.extractLsb' 32 32] :=
    fun len => congrArg₂ (fun lo hi => [lo, hi]) (wrWord_reg (by decide) _) (wrWord_reg (by decide) _)
  have start : wrWord .four (regOff .cmd) 0x1#32 = 0x8200000800000001#64 := by decide
  refine ⟨fun seen => ⟨?_, ?_, ?_⟩, fun seen a len => ⟨?_, ?_, ?_⟩,
    fun seen off v => ⟨?_, ?_, ?_, ?_, fun h => ?_, fun h => ?_⟩, fun seen b => ⟨fun h => ?_, fun h => ?_⟩⟩
  · exact words_of_fixed rfl (by decide) seen
  · exact words_of_fixed rfl (by decide) seen
  · exact words_of_fixed rfl (by decide) seen
  · exact words_of_fixed rfl (by rw [HostOp.expansion, setalg]) seen
  · exact words_of_fixed rfl (by rw [HostOp.expansion, setlen]) seen
  · exact words_of_fixed rfl (by rw [HostOp.expansion, setalg, setlen, start]; rfl) seen
  · exact words_of_fixed rfl (by rw [HostOp.expansion, rdWord_one]) seen
  · exact words_of_fixed rfl (by rw [HostOp.expansion, rdWord_two]) seen
  · exact words_of_fixed rfl (by rw [HostOp.expansion, rdWord_four]) seen
  · exact words_of_fixed (op := .wr .four off v) (decide_eq_true v.isLt) (by rw [HostOp.expansion, wrWord_four]) seen
  · exact words_of_fixed (op := .wr .two off v) (decide_eq_true h) (by rw [HostOp.expansion, wrWord_two]) seen
  · exact words_of_fixed (op := .wr .one off v) (decide_eq_true h) (by rw [HostOp.expansion, wrWord_one]) seen
  · exact words_of_fixed (op := .msg b) (decide_eq_true h) (by rw [HostOp.expansion, msgWords_eq]) seen
  · exact if_neg fun hs => absurd (of_decide_eq_true hs) (Nat.not_le.2 h)

end Sys2Proof.Machine
end

section
/-! SUPPORT. Lines of a host program run against the machine (spec 30_encoding.md R108, R109): what one transaction
does after turns of the engine, then `poll` by its reads and `msg` by its stores. -/

namespace Sys2Proof.Machine

/-! ### One transaction after turns of the engine (20_memory.md R84) -/

theorem hostStep_of_decode {w : Word64} {i : Instr} (h : decode w = .instr i) (s : State) :
    hostStep w s = exec i s := by
  rw [hostStep, h]

theorem hostTurn_next_iff {n : Nat} {w : Word64} {s t : State} :
    hostTurn n w s = .next t ↔ ∃ u, engineRun n s = .next u ∧ hostStep w u = .next t := by
  unfold hostTurn
  cases engineRun n s <;> simp

/-- On an idle machine the turns change nothing. -/
theorem hostTurn_idle {s : State} (hp : s.phase = .idle) (n : Nat) {w : Word64} {i : Instr}
    (hw : decode w = .instr i) : hostTurn n w s = exec i s := by
  rw [hostTurn, engineRun_idle hp, ← hostStep_of_decode hw]

/-- From a state of the invariant the engine takes its step, and the invariant holds after it. -/
theorem MachineInv.engineStep_next {s : State} (I : MachineInv s) :
    ∃ t, engineStep s = .next t ∧ MachineInv t := by
  have hnext : ∃ t, engineStep s = .next t := by
    unfold engineStep
    cases hp : s.phase with
    | idle => exact ⟨_, rfl⟩
    | load | round | fold | output =>
      obtain ⟨D, hD, -⟩ := I.running (I.busyIff.2 (by simp [hp]))
      simp [withDescriptor, hD]
  obtain ⟨t, ht⟩ := hnext
  exact ⟨t, ht, (Machine.engineStep_next ht).keeps_inv I⟩

theorem MachineInv.engineRun_next {s : State} (I : MachineInv s) (n : Nat) :
    ∃ t, engineRun n s = .next t ∧ MachineInv t := by
  induction n generalizing s with
  | zero => exact ⟨s, rfl, I⟩
  | succ n ih =>
    obtain ⟨u, hu, Iu⟩ := I.engineStep_next
    obtain ⟨t, ht, It⟩ := ih Iu
    exact ⟨t, by rw [engineRun, hu]; exact ht, It⟩

theorem MachineInv.hostTurn_next {s : State} (I : MachineInv s) (n : Nat) {w : Word64} {i : Instr}
    (hw : decode w = .instr i) : ∃ t, hostTurn n w s = .next t ∧ MachineInv t := by
  obtain ⟨u, hu, Iu⟩ := I.engineRun_next n
  obtain ⟨t, ht, he⟩ := exec_effect i u (decode_wf hw)
  exact ⟨t, hostTurn_next_iff.2 ⟨u, hu, (hostStep_of_decode hw u).trans ht⟩, he.keeps_inv Iu⟩

/-! ### `poll` (R109) -/

/-- Bit 15 of OFF is the region bit (20_memory.md R71). -/
theorem regionBit_iff (off : BitVec 16) : off.extractLsb' 15 1 = 1#1 ↔ off.getLsbD 15 = true := by
  have h : ∀ x : BitVec 1, x = 1#1 ↔ x.getLsbD 0 = true := by decide
  simp [h]

/-- `rd32 OFF` is a read of the register region or of the window, by bit 15 of OFF (20_memory.md R71). -/
theorem decode_rdWord_four (off : BitVec 16) : decode (rdWord .four off) = .instr (readAt off) := by
  refine (decode_traceWord 0#1 _ _ _ (by decide)).trans (congrArg Decoded.instr ?_)
  simp only [regionBit_iff]
  rfl

/-- A read after turns of the engine, in front of more reads. -/
theorem ReadsReturn.cons {off : BitVec 16} {n : Nat} {turns : List Nat} {s r t : State} {seen : List Word32}
    (h : hostTurn n (rdWord .four off) s = .next r) (hs : ReadsReturn off turns r seen t) :
    ReadsReturn off (n :: turns) s (r.readData :: seen) t := by
  obtain ⟨u, hu, hr⟩ := hostTurn_next_iff.1 h
  exact ⟨u, r, hu, (hostStep_of_decode (decode_rdWord_four off) u).symm.trans hr, rfl, hs⟩

section
variable {off : BitVec 16} {mask val : Word32} {turns rest : List Nat} {seen : List Word32} {s t : State}

/-- A poll that has ended: its last value alone ends it. -/
theorem pollRun_finished (h : pollRun off mask val turns s = .finished t rest seen) :
    ∃ used earlier, turns = used ++ rest ∧ ReadsReturn off used s seen t ∧
      seen = earlier ++ [t.readData] ∧ pollEnds mask val t.readData = true ∧
      ∀ v ∈ earlier, pollEnds mask val v = false := by
  induction turns generalizing s seen with
  | nil => cases h
  | cons n turns ih =>
    cases hn : hostTurn n (rdWord .four off) s with
    | fault r | refused r => simp [pollRun, hn] at h
    | next r =>
      rw [pollRun_cons hn] at h
      cases hv : pollEnds mask val r.readData with
      | true =>
        rw [if_pos hv] at h
        cases h
        exact ⟨[n], [], rfl, .cons hn rfl, rfl, hv, by simp⟩
      | false =>
        rw [if_neg (by simp [hv])] at h
        obtain ⟨more, hmore, rfl⟩ := HostRun.after_eq_finished.1 h
        obtain ⟨used, earlier, rfl, hreads, rfl, hlast, hall⟩ := ih hmore
        exact ⟨n :: used, r.readData :: earlier, rfl, .cons hn hreads, rfl, hlast,
          List.forall_mem_cons.2 ⟨hv, hall⟩⟩

/-- A poll that waits has used every turn, and no value has ended it. -/
theorem pollRun_waiting (h : pollRun off mask val turns s = .waiting t seen) :
    ReadsReturn off turns s seen t ∧ ∀ v ∈ seen, pollEnds mask val v = false := by
  induction turns generalizing s seen with
  | nil =>
    cases h
    exact ⟨rfl, by simp⟩
  | cons n turns ih =>
    cases hn : hostTurn n (rdWord .four off) s with
    | fault r | refused r => simp [pollRun, hn] at h
    | next r =>
      rw [pollRun_cons hn] at h
      cases hv : pollEnds mask val r.readData with
      | true =>
        rw [if_pos hv] at h
        cases h
      | false =>
        rw [if_neg (by simp [hv])] at h
        obtain ⟨more, hmore, rfl⟩ := HostRun.after_eq_waiting.1 h
        obtain ⟨hreads, hall⟩ := ih hmore
        exact ⟨.cons hn hreads, List.forall_mem_cons.2 ⟨hv, hall⟩⟩

/-- From a state of the invariant a poll stops at no fault and no refusal. -/
theorem pollRun_of_inv (I : MachineInv s) :
    (∃ t rest seen, pollRun off mask val turns s = .finished t rest seen) ∨
      ∃ t seen, pollRun off mask val turns s = .waiting t seen := by
  induction turns generalizing s with
  | nil => exact .inr ⟨s, [], rfl⟩
  | cons n turns ih =>
    obtain ⟨r, hn, Ir⟩ := I.hostTurn_next n (decode_rdWord_four off)
    rw [pollRun_cons hn]
    cases pollEnds mask val r.readData with
    | true => exact .inl ⟨_, _, _, rfl⟩
    | false =>
      rcases ih Ir with ⟨t, rest, seen, h⟩ | ⟨t, seen, h⟩ <;> simp [h]

end

theorem pollEnds_iff (mask val v : Word32) : pollEnds mask val v = true ↔ v &&& mask = val := beq_iff_eq

theorem pollEnds_eq_false_iff (mask val v : Word32) : pollEnds mask val v = false ↔ v &&& mask ≠ val :=
  beq_eq_false_iff_ne

/-- Settles O57: by induction on the turns, one read for each. -/
theorem pollReadsUntilItsConditionHolds : Obligations.PollReadsUntilItsConditionHolds := by
  refine ⟨fun off mask val turns s => ⟨fun t rest seen h => ?_, fun t seen h => ?_, pollRun_of_inv⟩,
    fun _ _ => rfl⟩
  · obtain ⟨used, earlier, hturns, hreads, hseen, hlast, hall⟩ := pollRun_finished h
    refine ⟨used, earlier, hturns, hreads, hseen, (pollEnds_iff ..).1 hlast,
      fun v hv => (pollEnds_eq_false_iff ..).1 (hall v hv), ?_⟩
    rw [← rdWord_four]
    exact words_eq_some.2 ⟨rfl, pollWords_eq_some.2 ⟨earlier, _, hseen, hlast, hall, rfl⟩⟩
  · obtain ⟨hreads, hall⟩ := pollRun_waiting h
    exact ⟨hreads, fun v hv => (pollEnds_eq_false_iff ..).1 (hall v hv)⟩

/-! ### Fixed lines -/

theorem HostRun.after_nil (r : HostRun) : r.after [] = r := by
  cases r <;> rfl

theorem HostRun.after_after (a b : List Word32) (r : HostRun) : (r.after b).after a = r.after (a ++ b) := by
  cases r <;> simp [HostRun.after]

/-- One transaction of a fixed line. -/
theorem fixedRun_cons {w : Word64} {n : Nat} {s t : State} (h : hostTurn n w s = .next t) (ws : List Word64)
    (turns : List Nat) : fixedRun (w :: ws) (n :: turns) s = (fixedRun ws turns t).after (returned w t) := by
  simp [fixedRun, h]

/-- A line that has ended has used one number of turns for each transaction. -/
theorem fixedRun_finished {ws : List Word64} {turns rest : List Nat} {s t : State} {seen : List Word32}
    (h : fixedRun ws turns s = .finished t rest seen) :
    ws.length ≤ turns.length ∧ rest = turns.drop ws.length := by
  induction ws generalizing turns s seen with
  | nil =>
    cases h
    exact ⟨Nat.zero_le _, rfl⟩
  | cons w ws ih =>
    cases turns with
    | nil => cases h
    | cons n turns =>
      cases hn : hostTurn n w s with
      | fault r | refused r => simp [fixedRun, hn] at h
      | next u =>
        rw [fixedRun_cons hn] at h
        obtain ⟨more, hmore, -⟩ := HostRun.after_eq_finished.1 h
        exact (ih hmore).imp_left Nat.succ_le_succ

/-- Transactions after transactions that have ended. -/
theorem fixedRun_append {ws : List Word64} {turns rest : List Nat} {s t : State} {seen : List Word32}
    (h : fixedRun ws turns s = .finished t rest seen) (ws' : List Word64) :
    fixedRun (ws ++ ws') turns s = (fixedRun ws' rest t).after seen := by
  induction ws generalizing turns s seen with
  | nil =>
    cases h
    exact (HostRun.after_nil _).symm
  | cons w ws ih =>
    cases turns with
    | nil => cases h
    | cons n turns =>
      cases hn : hostTurn n w s with
      | fault r | refused r => simp [fixedRun, hn] at h
      | next u =>
        rw [fixedRun_cons hn] at h
        obtain ⟨more, hmore, rfl⟩ := HostRun.after_eq_finished.1 h
        rw [List.cons_append, fixedRun_cons hn, ih hmore, HostRun.after_after]

/-! ### `msg` (R109) -/

/-- A write at `MSG+a` is the window write of its size (R77, R107). -/
theorem exec_wrWord_msgOff (size : AccessSize) {a : Nat} (ha : a < windowBytes) (v : Word32) :
    ∃ i, decode (wrWord size (msgOff a) v) = .instr i ∧
      ∀ s, exec i s = .next (s.windowWrite a size.bytes v) := by
  have hn := msgOff_toNat ha
  unfold windowBytes at ha
  have hwin : (msgOff a).extractLsb' 15 1 = 1#1 := by
    apply BitVec.eq_of_toNat_eq
    rw [BitVec.extractLsb'_toNat, hn]
    simp only [Nat.shiftRight_eq_div_pow, BitVec.toNat_ofNat]
    omega
  have hoff : ((msgOff a).extractLsb' 0 15).toNat = a := by
    rw [BitVec.extractLsb'_toNat, hn]
    simp only [Nat.shiftRight_zero]
    omega
  refine ⟨_, decode_traceWord 1#1 _ _ v (by cases size <;> decide), fun s => ?_⟩
  rw [if_pos hwin]
  conv_rhs => rw [← hoff]
  cases size <;> rfl

/-- A write line at an effective window address of an idle machine stores its bytes (R77). -/
theorem hostTurn_store {s : State} (size : AccessSize) {a : Nat} (v : Word32) (hb : s.busy = false)
    (hp : s.phase = .idle) (hn : a % size.bytes = 0) (ha : a < s.memSize.bytes) (n : Nat) :
    hostTurn n (wrWord size (msgOff a) v) s = .next (s.setMem (s.mem.write a size.bytes v)) := by
  obtain ⟨i, hi, he⟩ := exec_wrWord_msgOff size (Nat.lt_of_lt_of_le ha s.memSize.legal.2.2) v
  rw [hostTurn_idle hp n hi, he, State.windowWrite_of_effective v hb hn ha]

theorem returned_wrWord (size : AccessSize) (off : BitVec 16) (v : Word32) (s : State) :
    returned (wrWord size off v) s = [] := if_pos (dirField_traceWord ..)

/-- `k` writes of one size in a row, from byte `a` of an idle machine's memory on: they store the bytes `f` and
nothing else, whatever turns come between. -/
theorem fixedRun_stores (size : AccessSize) {a : Nat} {addr : Nat → Nat} {v : Nat → Word32} {f : Nat → Byte}
    (haddr : ∀ i, addr i = a + size.bytes * i) (hn : a % size.bytes = 0)
    (hv : ∀ i, ∀ j < size.bytes, laneByte size.bytes j (v i) = f (addr i + j)) {s : State}
    (hb : s.busy = false) (hp : s.phase = .idle) (k : Nat) (hfit : a + size.bytes * k ≤ s.memSize.bytes)
    (turns : List Nat) (hk : k ≤ turns.length) :
    ∃ m, fixedRun ((List.range k).map fun i => wrWord size (msgOff (addr i)) (v i)) turns s =
        .finished (s.setMem m) (turns.drop k) [] ∧
      ∀ b, m.lookup b = if a ≤ b ∧ b < a + size.bytes * k then some (f b) else s.mem.lookup b := by
  induction k with
  | zero => exact ⟨s.mem, rfl, fun b => by rw [if_neg (by omega)]⟩
  | succ k ih =>
    have hpos : 0 < size.bytes := by cases size <;> decide
    rw [Nat.mul_succ] at hfit ⊢
    obtain ⟨m, hrun, hm⟩ := ih (by omega) (by omega)
    have hak : addr k % size.bytes = 0 := by rw [haddr, Nat.add_mul_mod_self_left, hn]
    have hlt : addr k < s.memSize.bytes := by rw [haddr]; omega
    have hstore := hostTurn_store (s := s.setMem m) size (v k) hb hp hak hlt turns[k]
    refine ⟨m.write (addr k) size.bytes (v k), ?_, fun b => ?_⟩
    · rw [List.range_succ, List.map_append, fixedRun_append hrun, List.drop_eq_getElem_cons hk,
        List.map_singleton, fixedRun_cons hstore, returned_wrWord]
      rfl
    · rw [Memory.lookup_write, hm]
      by_cases hlast : addr k ≤ b ∧ b < addr k + size.bytes
      · rw [if_pos hlast, hv k _ (by omega), Nat.add_sub_cancel' hlast.1, if_pos (by rw [haddr] at hlast; omega)]
      · rw [if_neg hlast]
        rw [haddr] at hlast
        by_cases hb : a ≤ b ∧ b < a + size.bytes * k
        · rw [if_pos hb, if_pos (by omega)]
        · rw [if_neg hb, if_neg (by omega)]

/-- Byte `j` of a packed word is its argument `j` (R77, R165). -/
theorem laneByte_pack4 (f : Nat → Byte) {j : Nat} (hj : j < 4) :
    laneByte 4 j (pack4 (f 0) (f 1) (f 2) (f 3)) = f j := by
  apply BitVec.eq_of_getLsbD_eq
  intro i hi
  simp only [laneByte, pack4, BitVec.getLsbD_extractLsb', BitVec.getLsbD_append, hi, decide_true,
    Bool.true_and]
  obtain rfl | rfl | rfl | rfl : j = 0 ∨ j = 1 ∨ j = 2 ∨ j = 3 := by omega
  all_goals grind

theorem laneByte_byte (b : Byte) : laneByte 1 0 (b.setWidth 32) = b := by
  rw [laneByte, ← BitVec.setWidth_eq_extractLsb' (by decide), BitVec.setWidth_setWidth_of_le _ (by decide),
    BitVec.setWidth_eq]

/-- Settles O58: whole words first, then the bytes left, each a store of its own. -/
theorem msgWritesItsBytesOnly : Obligations.MsgWritesItsBytesOnly := by
  intro s b turns hb hp hfit hturns
  have hsize := s.memSize.legal.2.2
  obtain ⟨m, hwords, hm⟩ := fixedRun_stores .four (a := 0) (addr := fun i => 4 * i)
    (f := fun k => b.getD k 0x00#8) (fun i => (Nat.zero_add _).symm) rfl
    (fun i _ => laneByte_pack4 fun j => b.getD (4 * i + j) 0x00#8)
    hb hp (b.length / 4) (by simp only [AccessSize.bytes]; omega) turns (by omega)
  obtain ⟨m', hbytes, hm'⟩ := fixedRun_stores .one (a := 4 * (b.length / 4))
    (addr := fun r => 4 * (b.length / 4) + r) (f := fun k => b.getD k 0x00#8)
    (v := fun r => (b.getD (4 * (b.length / 4) + r) 0x00#8).setWidth 32)
    (fun i => by rw [AccessSize.bytes, Nat.one_mul]) (Nat.mod_one _)
    (fun i j hj => by obtain rfl := Nat.lt_one_iff.1 hj; exact laneByte_byte _)
    (s := s.setMem m) hb hp (b.length % 4)
    (by simp only [AccessSize.bytes, State.setMem_memSize]; omega)
    (turns.drop (b.length / 4)) (by rw [List.length_drop]; omega)
  refine ⟨m', ?_, fun a => ?_⟩
  · rw [List.drop_drop] at hbytes
    exact (if_pos (decide_eq_true (hfit.trans hsize))).trans
      ((fixedRun_append hwords _).trans ((HostRun.after_nil _).trans hbytes))
  · have h1 : AccessSize.one.bytes = 1 := rfl
    have h4 : AccessSize.four.bytes = 4 := rfl
    rw [hm', State.setMem_mem, hm, h1, h4]
    by_cases ha : a < b.length
    · rw [dif_pos ha, List.getD_eq_getElem _ _ ha]
      split
      · rfl
      · rw [if_pos (by omega)]
    · rw [dif_neg ha, if_neg (by omega), if_neg (by omega)]

end Sys2Proof.Machine
end

section
/-! SUPPORT. A running HASH follows the source's algorithm (spec 42_commands.md R200 to R206; 46_accumulator_digest.md
R312): each engine step keeps `Hashing` or completes it, and counts down the turns that remain. -/

namespace Sys2Proof.Machine

/-! ### The chunk that LOAD reads (R233, R237) -/

/-- With the message written, LOAD reads and generates the padded message, and draws nothing. -/
theorem loadBytes_of_holds {m : Memory} {D : Descriptor} (hD : D.Shaped) {input : List Byte}
    (hm : m.Holds input) (d p n : Nat) (hp : p + n ≤ paddedLength D input.length) :
    loadBytes m D input.length d p n = (((padMessage D input).drop p).take n, d) := by
  induction n generalizing p with
  | zero => rfl
  | succ n ih =>
    have hlen : p < (padMessage D input).length := by
      rw [padMessage_length, paddedLength_eq hD]
      omega
    have hbyte : (if p < input.length then m.readByte d p else (generatedByte D input.length p, d)) =
        ((padMessage D input)[p], d) := by
      have hpad := padMessage_getElem? hD input p (by omega)
      rw [List.getElem?_eq_getElem hlen] at hpad
      by_cases h : p < input.length
      · rw [if_pos h, List.getElem?_eq_getElem h] at hpad
        rw [if_pos h, Memory.readByte_of_lookup (hm p h), Option.some.inj hpad]
      · rw [if_neg h] at hpad
        rw [if_neg h, Option.some.inj hpad]
    rw [loadBytes, hbyte, ih (p + 1) (by omega), List.drop_eq_getElem_cons hlen, List.take_succ_cons]

/-- LOAD of chunk `j` reads chunk `j` of the padded message. -/
theorem chunkBytes_of_holds {m : Memory} {D : Descriptor} (hD : D.Shaped) {input : List Byte}
    (hm : m.Holds input) {j : Nat} (hj : j < numChunks D input.length) (d : Nat) :
    chunkBytes m D input.length j d = ((chunksOf D (padMessage D input)).getD j [], d) := by
  have hfit : j * D.cb + D.cb ≤ paddedLength D input.length := by
    rw [← Nat.succ_mul, paddedLength]
    exact Nat.mul_le_mul_right _ hj
  rw [chunkBytes, loadBytes_of_holds hD hm d _ _ hfit, chunksOf_getD hD input j hj]

/-! ### What the source's algorithm has after one step more -/

/-- The running state after chunk `j` (R312). -/
theorem stateBefore_succ {D : Descriptor} (hD : D.Shaped) {m : List Byte} {j : Nat}
    (hj : j < numChunks D m.length) :
    stateBefore D m (j + 1) = compress D (stateBefore D m j) ((chunksOf D (padMessage D m)).getD j []) := by
  have hlen : j < (chunksOf D (padMessage D m)).length := by rwa [chunksOf_length hD]
  rw [stateBefore, foldChunks, List.take_succ_eq_append_getElem hlen, List.foldl_append,
    List.getD_eq_getElem _ _ hlen]
  rfl

/-- Folding a chunk adds the working variables after all its rounds (R202, R312). -/
theorem stateBefore_succ_eq_foldAdd {D : Descriptor} (hD : D.Shaped) {m : List Byte} {j : Nat}
    (hj : j < numChunks D m.length) :
    stateBefore D m (j + 1) = foldAdd D (stateBefore D m j)
      (varsAfter D (stateBefore D m j) (scheduleOf D m j) D.rounds) :=
  stateBefore_succ hD hj

theorem varsAfter_succ (D : Descriptor) (V0 : Vector Word64 8) (W : List Word64) (t : Nat) :
    varsAfter D V0 W (t + 1) = roundRegs D (varsAfter D V0 W t) t (W.getD t 0#64) (D.kAt t) := by
  rw [varsAfter, List.range_succ, List.foldl_append]
  rfl

/-- After the last chunk the running state serialises to the digest (R205, R321, R322). -/
theorem digestWord_stateBefore {D : Descriptor} (hD : D.Shaped) (m : List Byte) (k : Nat) :
    digestWord D (stateBefore D m (numChunks D m.length)) k = packDigest D (hashBytes D m) k := by
  rw [stateBefore, ← chunksOf_length hD m, List.take_length]
  rfl

/-! ### The engine reads the used words of its registers only -/

/-- FOLD adds the first `nsw` words of `V` (R202). -/
theorem foldAdd_congr {D : Descriptor} (H : Vector Word64 8) {V V' : Vector Word64 8}
    (h : ∀ i : Fin 8, i.val < D.nsw → V[i] = V'[i]) : foldAdd D H V = foldAdd D H V' := by
  apply Vector.ext
  intro i hi
  simp only [foldAdd, Vector.getElem_ofFn]
  split
  · next hn => exact congrArg _ (h ⟨i, hi⟩ hn)
  · rfl

/-- The families use as many working variables as their descriptors say (R131). -/
theorem desc_family {a : BitVec 4} {D : Descriptor} (h : desc a = some D) :
    D.nsw = 8 ∨ (D.nsw = 5 ∧ D.fam = .sha1) := by
  rcases desc_cases h with rfl | rfl | rfl | rfl | rfl | rfl | rfl <;> decide

/-- ROUND reads the first `nsw` words of `V` (R288, R291). -/
theorem roundRegs_congr {a : BitVec 4} {D : Descriptor} (hD : desc a = some D) {V V' : Vector Word64 8}
    (h : ∀ i : Fin 8, i.val < D.nsw → V[i] = V'[i]) (t : Nat) (wt kt : Word64) (i : Fin 8)
    (hi : i.val < D.nsw) : (roundRegs D V t wt kt)[i] = (roundRegs D V' t wt kt)[i] := by
  rcases desc_family hD with hn | ⟨hn, hf⟩
  · have hV : V = V' := Vector.ext fun k hk => h ⟨k, hk⟩ (by omega)
    rw [hV]
  · have h0 : V[0] = V'[0] := h 0 (by simp [hn])
    have h1 : V[1] = V'[1] := h 1 (by simp [hn])
    have h2 : V[2] = V'[2] := h 2 (by simp [hn])
    have h3 : V[3] = V'[3] := h 3 (by simp [hn])
    have h4 : V[4] = V'[4] := h 4 (by simp [hn])
    simp only [roundRegs, roundVars, hf, Fin.getElem_fin, Vector.getElem_ofFn, if_pos hi, sha1Round, varsOf,
      h0, h1, h2, h3, h4]
    have h5 : i = 0 ∨ i = 1 ∨ i = 2 ∨ i = 3 ∨ i = 4 := by omega
    rcases h5 with rfl | rfl | rfl | rfl | rfl <;> rfl

/-! ### The engine's steps under `Hashing` -/

section
variable {s : State} {D : Descriptor} {m : List Byte}

/-- Before OUTPUT there is a chunk to do (R61). -/
theorem BusyInv.j_lt (B : BusyInv D s) (hp : s.phase ≠ .output) : s.j.toNat < s.nch.toNat := by
  simpa [hp] using B.jBound

/-- In OUTPUT every chunk is done (R61). -/
theorem BusyInv.j_eq (B : BusyInv D s) (hp : s.phase = .output) : s.j = s.nch := by
  simpa [hp] using B.jBound

/-- The chunk count of a running HASH is that of its message (R196). -/
theorem Hashing.nch_eq (h : Hashing D m s) (B : BusyInv D s) : s.nch.toNat = numChunks D m.length := by
  rw [B.nchIs, h.lenIs]

/-- LOAD expands the source's schedule and seeds its working variables (R200). -/
theorem Hashing.load (h : Hashing D m s) (B : BusyInv D s) (hp : s.phase = .load) :
    Hashing D m (loadStep D s) := by
  have shaped := desc_shaped h.descIs
  have hj : s.j.toNat < numChunks D m.length := h.nch_eq B ▸ B.j_lt (by simp [hp])
  have hbytes : (chunkBytes s.mem D s.lenL.toNat s.j.toNat s.draws).1 =
      (chunksOf D (padMessage D m)).getD s.j.toNat [] := by
    rw [h.lenIs, chunkBytes_of_holds shaped h.holds hj]
  exact
    { h with
      schedW := fun _ i hi => by
        simp only [loadStep, hbytes, Fin.getElem_fin, Vector.getElem_ofFn, if_pos hi]
        rfl
      varsV := fun _ i hi => by
        simp only [loadStep, Fin.getElem_fin, Vector.getElem_ofFn, if_pos hi, h.stateH]
        rfl }

/-- The round counter does not wrap (R56). -/
theorem BusyInv.next_t (B : BusyInv D s) (hD : D.Shaped) (hp : s.phase = .round) :
    s.t.toNat < D.rounds ∧ (s.t + 1#7).toNat = s.t.toNat + 1 := by
  have ht := B.tBound.2.1 hp
  exact ⟨ht, by rcases hD.rounds with h | h <;> bv_omega⟩

/-- ROUND is one round of the source's compression (R201). -/
theorem Hashing.round (h : Hashing D m s) (B : BusyInv D s) (hp : s.phase = .round) :
    Hashing D m (roundStep D s) := by
  obtain ⟨ht, ht1⟩ := B.next_t (desc_shaped h.descIs) hp
  have ht80 : s.t.toNat < 80 := by rcases (desc_shaped h.descIs).rounds with hr | hr <;> omega
  have hW : s.W.toList.getD s.t.toNat 0#64 = (scheduleOf D m s.j.toNat).getD s.t.toNat 0#64 := by
    rw [← h.schedW (.inl hp) ⟨s.t.toNat, ht80⟩ ht]
    simp [List.getD_eq_getElem?_getD, ht80]
  exact
    { h with
      schedW := fun _ => h.schedW (.inl hp)
      varsV := fun _ i hi => by
        show (roundRegs D s.V s.t.toNat _ _)[i] = (varsAfter D _ (scheduleOf D m s.j.toNat) (s.t + 1#7).toNat)[i]
        rw [ht1, varsAfter_succ, hW]
        exact roundRegs_congr h.descIs (h.varsV (.inl hp)) _ _ _ i hi }

/-- The chunk counter does not wrap (R56). -/
theorem BusyInv.next_j (B : BusyInv D s) (hp : s.phase = .fold) :
    s.j.toNat < s.nch.toNat ∧ (s.j + 1#32).toNat = s.j.toNat + 1 := by
  have hj := B.j_lt (by simp [hp])
  exact ⟨hj, by bv_omega⟩

/-- FOLD completes the source's compression of a chunk (R202). -/
theorem Hashing.fold (h : Hashing D m s) (B : BusyInv D s) (hp : s.phase = .fold) :
    Hashing D m (foldStep D s) := by
  obtain ⟨hj, hj1⟩ := B.next_j hp
  rw [h.nch_eq B] at hj
  have hnext : ¬ ((foldStep D s).phase = .round ∨ (foldStep D s).phase = .fold) := by
    rcases foldStep_phase D s with ⟨-, hn⟩ | ⟨-, hn⟩ <;> simp [hn]
  exact
    { h with
      stateH := by
        show foldAdd D s.H s.V = stateBefore D m (s.j + 1#32).toNat
        rw [hj1, stateBefore_succ_eq_foldAdd (desc_shaped h.descIs) hj, h.stateH, ← B.tBound.2.2 hp]
        exact foldAdd_congr _ (h.varsV (.inr hp))
      schedW := fun hn => absurd hn hnext
      varsV := fun hn => absurd hn hnext }

/-- OUTPUT leaves the digest of the message (R203, R205). -/
theorem Hashing.output (h : Hashing D m s) (B : BusyInv D s) (hc : s.errCode = 0#4) (hp : s.phase = .output) :
    HashDone D m (outputStep D s) := by
  have hj := B.j_eq hp
  have hn := h.nch_eq B
  refine ⟨rfl, ?_, ?_, fun k => ?_⟩
  · simp only [State.statusWord, outputStep, hc, B.clean.2]
    decide
  · rw [← hn, ← hj]
    exact congrArg BitVec.toNat B.chunksIs
  · simp only [outputStep, Fin.getElem_fin, Vector.getElem_ofFn]
    rw [h.stateH, hj, hn, digestWord_stateBefore (desc_shaped h.descIs)]

end

/-! ### The turns that remain -/

/-- How many turns the engine has still to take before it is idle (R206). -/
def turnsLeft (D : Descriptor) (s : State) : Nat :=
  match s.phase with
  | .idle => 0
  | .load => (s.nch.toNat - s.j.toNat) * (D.rounds + 2) + 1
  | .round | .fold => (s.nch.toNat - s.j.toNat) * (D.rounds + 2) - s.t.toNat
  | .output => 1

section
variable {s : State} {D : Descriptor} {m : List Byte}

theorem turnsLeft_load (hp : s.phase = .load) : turnsLeft D s = turnsLeft D (loadStep D s) + 1 := by
  simp [turnsLeft, loadStep, hp]

theorem turnsLeft_round (B : BusyInv D s) (hD : D.Shaped) (hp : s.phase = .round) :
    turnsLeft D s = turnsLeft D (roundStep D s) + 1 := by
  obtain ⟨ht, ht1⟩ := B.next_t hD hp
  have hj := B.j_lt (by simp [hp])
  have hchunk : 1 * (D.rounds + 2) ≤ (s.nch.toNat - s.j.toNat) * (D.rounds + 2) :=
    Nat.mul_le_mul_right _ (by omega)
  have hnext : turnsLeft D (roundStep D s) =
      (s.nch.toNat - s.j.toNat) * (D.rounds + 2) - (s.t + 1#7).toNat := by
    unfold turnsLeft
    rcases roundStep_phase D s with ⟨-, hn⟩ | ⟨-, hn⟩ <;> rw [hn] <;> rfl
  rw [hnext, ht1]
  simp only [turnsLeft, hp]
  omega

theorem turnsLeft_fold (B : BusyInv D s) (hp : s.phase = .fold) :
    turnsLeft D s = turnsLeft D (foldStep D s) + 1 := by
  obtain ⟨hj, hj1⟩ := B.next_j hp
  have ht := B.tBound.2.2 hp
  have hchunk : (s.nch.toNat - s.j.toNat) * (D.rounds + 2) =
      (s.nch.toNat - (s.j.toNat + 1)) * (D.rounds + 2) + (D.rounds + 2) := by
    rw [← Nat.succ_mul]
    congr 1
    omega
  have hnext : turnsLeft D (foldStep D s) =
      (s.nch.toNat - (s.j + 1#32).toNat) * (D.rounds + 2) + 1 := by
    unfold turnsLeft
    rcases foldStep_phase D s with ⟨hn, hph⟩ | ⟨-, hph⟩ <;> rw [hph]
    · simp [hn]
    · rfl
  rw [hnext, hj1]
  simp only [turnsLeft, hp]
  omega

/-- One engine step of a running HASH: it goes on with one turn less, or it was the last. -/
theorem Hashing.engineStep_next (I : MachineInv s) (h : Hashing D m s) :
    ∃ t, engineStep s = .next t ∧ MachineInv t ∧
      ((Hashing D m t ∧ turnsLeft D s = turnsLeft D t + 1) ∨ (HashDone D m t ∧ turnsLeft D s = 1)) := by
  obtain ⟨t, ht, It⟩ := I.engineStep_next
  have hbusy := I.busyIff.1 h.busy
  obtain ⟨-, hc, B⟩ := I.running_of_phase hbusy h.descIs
  have same : ∀ {D'}, desc s.algL = some D' → D' = D := fun hD => Option.some.inj (hD.symm.trans h.descIs)
  refine ⟨t, ht, It, ?_⟩
  cases Machine.engineStep_next ht with
  | idle hp => exact absurd hp hbusy
  | load D' hD hp =>
    obtain rfl := same hD
    exact .inl ⟨h.load B hp, turnsLeft_load hp⟩
  | round D' hD hp =>
    obtain rfl := same hD
    exact .inl ⟨h.round B hp, turnsLeft_round B (desc_shaped hD) hp⟩
  | fold D' hD hp =>
    obtain rfl := same hD
    exact .inl ⟨h.fold B hp, turnsLeft_fold B hp⟩
  | output D' hD hp =>
    obtain rfl := same hD
    exact .inr ⟨h.output B hc hp, by simp [turnsLeft, hp]⟩

theorem HashDone.idle (h : HashDone D m s) : s.phase = .idle := h.1

theorem HashDone.status (h : HashDone D m s) : s.statusWord = 0x00000002#32 := h.2.1

theorem HashDone.digest (h : HashDone D m s) (k : Fin 16) :
    s.digest[k] = packDigest D (hashBytes D m) k.val := h.2.2.2 k

/-- Turns in a row: too few leave the HASH running, enough complete it (R205, R206). -/
theorem Hashing.engineRun_next (I : MachineInv s) (h : Hashing D m s) (n : Nat) :
    ∃ t, engineRun n s = .next t ∧ MachineInv t ∧
      ((Hashing D m t ∧ turnsLeft D s = turnsLeft D t + n) ∨ (HashDone D m t ∧ turnsLeft D s ≤ n)) := by
  induction n generalizing s with
  | zero => exact ⟨s, rfl, I, .inl ⟨h, rfl⟩⟩
  | succ n ih =>
    obtain ⟨u, hu, Iu, hnext⟩ := h.engineStep_next I
    rw [engineRun, hu]
    rcases hnext with ⟨hh, hl⟩ | ⟨hd, hl⟩
    · obtain ⟨t, ht, It, hend⟩ := ih Iu hh
      refine ⟨t, ht, It, hend.imp (fun ⟨hh, he⟩ => ⟨hh, by omega⟩) fun ⟨hd, he⟩ => ⟨hd, by omega⟩⟩
    · exact ⟨u, engineRun_idle hd.idle n, Iu, .inr ⟨hd, by omega⟩⟩

/-- An accepted HASH of a written message is running, with all its turns to come (R196, R206). -/
theorem acceptHash_hashing (hD : hashCheck s = .ok D) (hlen : s.msgLen.toNat = m.length) (hm : s.mem.Holds m) :
    Hashing D m (acceptHash (s.setStatus false false 0#4) D) ∧
      turnsLeft D (acceptHash (s.setStatus false false 0#4) D) = numChunks D m.length * (D.rounds + 2) + 1 := by
  obtain ⟨hdesc, -, hfits⟩ := hashCheck_ok hD
  constructor
  · exact
      { busy := rfl
        descIs := hdesc
        lenIs := hlen
        holds := hm
        stateH := rfl
        schedW := fun h => by simp [acceptHash] at h
        varsV := fun h => by simp [acceptHash] at h }
  · have hn : (BitVec.ofNat 32 (numChunks D s.msgLen.toNat)).toNat = numChunks D m.length := by
      rw [BitVec.toNat_ofNat, ← hlen,
        Nat.mod_eq_of_lt (numChunks_lt (desc_shaped hdesc) (hfits.trans s.memSize.legal.2.2))]
    show ((BitVec.ofNat 32 (numChunks D s.msgLen.toNat)).toNat - 0) * _ + 1 = _
    rw [hn, Nat.sub_zero]

end

end Sys2Proof.Machine
end

section
/-! SUPPORT. The program of `hashStrg` run against the machine (spec 30_encoding.md R110): its lines one by one, from
the registers' own transactions, then the program. -/

namespace Sys2Proof.Machine

/-! ### Transactions at a register's offset (R107) -/

/-- The register at a register's offset (R30). -/
theorem regAt_of_offset (r : Reg) : regAt r.offset = some r := by
  cases r with
  | digest k => revert k; decide
  | _ => rfl

theorem transactionWord_regOff (dir : BitVec 1) (size : AccessSize) (r : Reg) (data : Word32) :
    transactionWord dir size (regOff r) data = traceWord dir size.code 0#1 r.offset data := by
  have hwin : (regOff r).extractLsb' 15 1 = 0#1 := by
    cases r with
    | digest k => revert k; decide
    | _ => rfl
  have hoff : (regOff r).extractLsb' 0 15 = r.offset := by
    cases r with
    | digest k => revert k; decide
    | _ => rfl
  rw [transactionWord, hwin, hoff]

/-- A word written in the register region is a register write, in whichever row it is read (R208). -/
theorem exec_decodeRegWrite (off : BitVec 15) (v : Word32) (s : State) :
    exec (decodeRegWrite off v) s = .next (writeOffset s off v) := by
  unfold decodeRegWrite
  split
  · next h => rw [h, exec_decodeCmd]; rfl
  split
  · next h => rw [h, exec_decodeCtrl]; rfl
  rfl

/-- `wr32` at a register of an idle machine (R208). -/
theorem hostTurn_wrReg {s : State} (hp : s.phase = .idle) (n : Nat) (r : Reg) (v : Word32) :
    hostTurn n (wrWord .four (regOff r) v) s = .next (writeReg s v r) := by
  have hw : decode (wrWord .four (regOff r) v) = .instr (decodeRegWrite r.offset v) := by
    rw [wrWord, transactionWord_regOff]
    exact decode_traceWord 1#1 0#1 r.offset v (by decide)
  rw [hostTurn_idle hp n hw, exec_decodeRegWrite, writeOffset, regAt_of_offset]

/-- `rd32` at a register, after turns that lead to `u` (R207). -/
theorem hostTurn_rdReg {s u : State} {n : Nat} (hu : engineRun n s = .next u) (r : Reg) :
    hostTurn n (rdWord .four (regOff r)) s = .next (u.reply (u.readReg r)) := by
  have hw : decode (rdWord .four (regOff r)) = .instr (.regRd r.offset) := by
    rw [rdWord, transactionWord_regOff]
    exact decode_traceWord 0#1 0#1 r.offset 0#32 (by decide)
  refine hostTurn_next_iff.2 ⟨u, hu, ?_⟩
  rw [hostStep_of_decode hw, exec, execRegRd, State.readOffset, regAt_of_offset]

theorem returned_rdWord (off : BitVec 16) (s : State) : returned (rdWord .four off) s = [s.readData] :=
  if_neg (by rw [rdWord, transactionWord, dirField_traceWord]; decide)

/-! ### Finished lines keep the invariant -/

theorem MachineInv.of_hostTurn {s t : State} {n : Nat} {w : Word64} (I : MachineInv s)
    (h : hostTurn n w s = .next t) : MachineInv t := by
  obtain ⟨u, hu, ht⟩ := hostTurn_next_iff.1 h
  obtain ⟨i, hi, -⟩ := Machine.hostStep_next ht
  obtain ⟨t', ht', It⟩ := I.hostTurn_next n hi
  rw [h] at ht'
  cases ht'
  exact It

theorem MachineInv.of_fixedRun {ws : List Word64} {turns rest : List Nat} {s t : State} {seen : List Word32}
    (I : MachineInv s) (h : fixedRun ws turns s = .finished t rest seen) : MachineInv t := by
  induction ws generalizing turns s seen with
  | nil => cases h; exact I
  | cons w ws ih =>
    cases turns with
    | nil => cases h
    | cons n turns =>
      cases hn : hostTurn n w s with
      | fault r | refused r => simp [fixedRun, hn] at h
      | next u =>
        rw [fixedRun_cons hn] at h
        obtain ⟨more, hmore, -⟩ := HostRun.after_eq_finished.1 h
        exact ih (I.of_hostTurn hn) hmore

/-- A fixed line that has ended has run its words. -/
theorem run_finished {op : HostOp} {ws : List Word64} {turns rest : List Nat} {s t : State} {seen : List Word32}
    (he : op.expansion = .fixed ws) (h : op.run turns s = .finished t rest seen) :
    fixedRun ws turns s = .finished t rest seen := by
  unfold HostOp.run at h
  split at h
  · rwa [he] at h
  · cases h

/-! ### `start` (R109) -/

theorem fixedRun_wrReg {s : State} (hp : s.phase = .idle) (n : Nat) (r : Reg) (v : Word32) (ws : List Word64)
    (turns : List Nat) :
    fixedRun (wrWord .four (regOff r) v :: ws) (n :: turns) s = fixedRun ws turns (writeReg s v r) := by
  rw [fixedRun_cons (hostTurn_wrReg hp n r v), returned_wrWord, HostRun.after_nil]

section
variable {s : State} (hb : s.busy = false) (v : Word32)
include hb

theorem writeReg_ctrl_of_idle : writeReg s v .ctrl = s.setAlg (algOf v) := State.writeCtrl_of_idle hb v

theorem writeReg_msgLenLo_of_idle : writeReg s v .msgLenLo = s.setMsgLenLo v := by
  rw [writeReg, State.unlessBusy_of_idle _ hb]

theorem writeReg_msgLenHi_of_idle : writeReg s v .msgLenHi = s.setMsgLenHi v := by
  rw [writeReg, State.unlessBusy_of_idle _ hb]

theorem writeReg_hash_of_idle : writeReg s 0x1#32 .cmd = hashCommand s := by
  rw [writeReg, runCommand, State.unlessBusy_of_idle _ hb]
  rfl

end

/-- The operands that `setalg` and `setlen` write (R105). -/
def State.withOperands (s : State) (a : BitVec 4) (len : Word64) : State :=
  ((s.setAlg a).setMsgLenLo (len.extractLsb' 0 32)).setMsgLenHi (len.extractLsb' 32 32)

theorem State.withOperands_msgLen (s : State) (a : BitVec 4) (len : Word64) :
    (s.withOperands a len).msgLen = len := by
  show len.extractLsb' 32 32 ++ len.extractLsb' 0 32 = len
  apply BitVec.eq_of_getLsbD_eq
  intro k hk
  simp only [BitVec.getLsbD_append, BitVec.getLsbD_extractLsb']
  split
  · rw [Nat.zero_add, decide_eq_true (by omega), Bool.true_and]
  · rw [decide_eq_true (by omega), Bool.true_and, Nat.add_sub_cancel' (by omega)]

theorem algOf_setWidth (a : BitVec 4) : algOf (a.setWidth 32) = a := by
  rw [algOf, ← BitVec.setWidth_eq_extractLsb' (by decide), BitVec.setWidth_setWidth_of_le _ (by decide),
    BitVec.setWidth_eq]

/-- `setalg`, `setlen` and HASH on an idle machine: the command is run on the operands written. -/
theorem start_run {s : State} (hb : s.busy = false) (hp : s.phase = .idle) (a : BitVec 4) (len : Word64)
    {turns : List Nat} (ht : 4 ≤ turns.length) :
    (HostOp.start (a.setWidth 32) len).run turns s =
      .finished (hashCommand (s.withOperands a len)) (turns.drop 4) [] := by
  match turns, ht with
  | n0 :: n1 :: n2 :: n3 :: rest, _ =>
    show fixedRun (wrWord .four (regOff .ctrl) _ :: wrWord .four (regOff .msgLenLo) _ ::
      wrWord .four (regOff .msgLenHi) _ :: [wrWord .four (regOff .cmd) 0x1#32]) _ s = _
    rw [fixedRun_wrReg hp, writeReg_ctrl_of_idle hb, fixedRun_wrReg (by exact hp),
      writeReg_msgLenLo_of_idle (by exact hb), fixedRun_wrReg (by exact hp),
      writeReg_msgLenHi_of_idle (by exact hb), fixedRun_wrReg (by exact hp), writeReg_hash_of_idle (by exact hb),
      algOf_setWidth]
    rfl

/-! ### `wait` (R109, R395) -/

theorem MachineInv.statusWord_of_busy {s : State} (I : MachineInv s) (hb : s.busy = true) :
    s.statusWord = 0x00000001#32 := by
  obtain ⟨D, -, B⟩ := I.running hb
  obtain ⟨hd, he⟩ := B.clean
  rw [State.statusWord, I.codeZero he, hb, hd, he]
  decide

theorem MachineInv.reply {s : State} (I : MachineInv s) (v : Word32) : MachineInv (s.reply v) :=
  I.unobserved _ _ _ _ _

theorem Hashing.reply {s : State} {D : Descriptor} {m : List Byte} (h : Hashing D m s) (v : Word32) :
    Hashing D m (s.reply v) := { h with }

/-- A running HASH has a step to come. -/
theorem Hashing.turnsLeft_pos {s : State} {D : Descriptor} {m : List Byte} (I : MachineInv s)
    (h : Hashing D m s) : 0 < turnsLeft D s := by
  obtain ⟨t, -, -, ⟨-, hl⟩ | ⟨-, hl⟩⟩ := h.engineStep_next I <;> omega

/-- One read of `wait`, by the status that its turns lead to. -/
theorem waitRun_cons {s u : State} {n : Nat} (hu : engineRun n s = .next u) (turns : List Nat) :
    HostOp.wait.run (n :: turns) s =
      if pollEnds 0x1#32 0x0#32 u.statusWord then
        .finished (u.reply u.statusWord) turns [u.statusWord]
      else (HostOp.wait.run turns (u.reply u.statusWord)).after [u.statusWord] :=
  pollRun_cons (hostTurn_rdReg hu .status)

/-- `wait` while a HASH is running: it reads BUSY until the turns suffice, and then DONE once. -/
theorem waitRun_of_hashing {s : State} {D : Descriptor} {m : List Byte} (I : MachineInv s)
    (h : Hashing D m s) (turns : List Nat) :
    (turns.sum < turnsLeft D s ∧ ∃ t, t.busy = true ∧
      HostOp.wait.run turns s = .waiting t (List.replicate turns.length 0x00000001#32)) ∨
    (∃ k < turns.length, (turns.take k).sum < turnsLeft D s ∧ ∃ t, HashDone D m t ∧
      HostOp.wait.run turns s =
        .finished t (turns.drop (k + 1)) (List.replicate k 0x00000001#32 ++ [0x00000002#32])) := by
  induction turns generalizing s with
  | nil => exact .inl ⟨h.turnsLeft_pos I, s, h.busy, rfl⟩
  | cons n turns ih =>
    obtain ⟨u, hu, Iu, ⟨hh, hl⟩ | ⟨hd, -⟩⟩ := h.engineRun_next I n
    · have hleft : turnsLeft D (u.reply 0x1#32) = turnsLeft D u := rfl
      rw [waitRun_cons hu, Iu.statusWord_of_busy hh.busy, if_neg (by decide)]
      rcases ih (Iu.reply 0x1#32) (hh.reply 0x1#32) with ⟨hsum, t, ht, hrun⟩ | ⟨k, hk, hsum, t, ht, hrun⟩
      · refine .inl ⟨?_, t, ht, by rw [hrun]; rfl⟩
        rw [List.sum_cons]
        omega
      · refine .inr ⟨k + 1, Nat.succ_lt_succ hk, ?_, t, ht, by rw [hrun]; rfl⟩
        rw [List.take_succ_cons, List.sum_cons]
        omega
    · refine .inr ⟨0, Nat.succ_pos _, h.turnsLeft_pos I, u.reply 0x2#32, hd, ?_⟩
      rw [waitRun_cons hu, hd.status]
      rfl

/-! ### The digest's words (R110) -/

/-- The offsets of the program's reads are those of the digest registers (R30, R110). -/
theorem digestOffset (k : Fin 16) : BitVec.ofNat 16 (0x0040 + 4 * k.val) = regOff (.digest k) := by
  revert k
  decide

/-- A line that has ended, and the lines after it. -/
theorem programRun_of_finished {op : HostOp} {turns mid : List Nat} {s u : State} {first : List Word32}
    (h : op.run turns s = .finished u mid first) (ops : List HostOp) :
    programRun (op :: ops) turns s = (programRun ops mid u).after first := by
  rw [programRun, h]

/-- A line and the lines after it. -/
theorem programRun_cons_finished {op : HostOp} {ops : List HostOp} {turns rest : List Nat} {s t : State}
    {seen : List Word32} :
    programRun (op :: ops) turns s = .finished t rest seen ↔
      ∃ u mid first more, op.run turns s = .finished u mid first ∧
        programRun ops mid u = .finished t rest more ∧ seen = first ++ more := by
  rw [programRun]
  cases op.run turns s <;> simp [HostRun.after_eq_finished]

/-- The lines that read the digest words `ks` (R110). -/
def digestReads (ks : List Nat) : List HostOp := ks.map fun i => .rd .four (BitVec.ofNat 16 (0x0040 + 4 * i))

theorem hashStrgProgram_eq (a : BitVec 4) (D : Descriptor) (input : List Byte) :
    hashStrgProgram a D input = .msg input :: .start (a.setWidth 32) (BitVec.ofNat 64 input.length) :: .wait ::
      digestReads (List.range (D.dl / 32)) := rfl

/-- Reads of digest registers on an idle machine: they end with the words `d`, unless the turns are too few. -/
theorem digestReads_run {d : Nat → Word32} {ks : List Nat} (hks : ∀ k ∈ ks, k < 16) {s : State}
    (hp : s.phase = .idle) (hd : ∀ k : Fin 16, s.digest[k] = d k.val) (turns : List Nat) :
    (∃ t rest, programRun (digestReads ks) turns s = .finished t rest (ks.map d)) ∨
    (turns.length < ks.length ∧ ∃ t seen, programRun (digestReads ks) turns s = .waiting t seen) := by
  induction ks generalizing s turns with
  | nil => exact .inl ⟨s, turns, rfl⟩
  | cons k ks ih =>
    obtain ⟨hk, hks⟩ := List.forall_mem_cons.1 hks
    cases turns with
    | nil => exact .inr ⟨Nat.succ_pos _, s, [], rfl⟩
    | cons n turns =>
      have hread : (HostOp.rd .four (BitVec.ofNat 16 (0x0040 + 4 * k))).run (n :: turns) s =
          .finished (s.reply (d k)) turns [d k] := by
        have hturn := hostTurn_rdReg (engineRun_idle hp n) (.digest ⟨k, hk⟩)
        rw [State.readReg, hd, ← digestOffset] at hturn
        refine (fixedRun_cons hturn [] turns).trans ?_
        rw [returned_rdWord]
        rfl
      rw [show digestReads (k :: ks) = _ :: digestReads ks from rfl, programRun_of_finished hread]
      rcases ih hks (s := s.reply (d k)) hp hd turns with ⟨t, rest, h⟩ | ⟨hlt, t, seen, h⟩
      · exact .inl ⟨t, rest, by rw [h]; rfl⟩
      · exact .inr ⟨Nat.succ_lt_succ hlt, t, d k :: seen, by rw [h]; rfl⟩

/-! ### The program of `hashStrg` (R110) -/

section
variable {s : State} {a : BitVec 4} {D : Descriptor} {input : List Byte} {turns rest : List Nat} {t : State}
  {seen : List Word32}

theorem msgWords_length (b : List Byte) : (msgWords b).length = b.length / 4 + b.length % 4 := by
  simp [msgWords]

/-- The operands written and a message that fits pass the checks of HASH (R194, R195). -/
theorem hashCheck_eq_ok (hD : desc s.alg = some D) (hfit : s.msgLen.toNat ≤ s.memSize.bytes) :
    hashCheck s = .ok D := by
  have hsize := s.memSize.legal.2.2
  simp only [hashCheck, hD]
  rw [if_neg (by omega), if_neg (by omega)]

theorem hashCommand_of_ok (h : hashCheck s = .ok D) :
    hashCommand s = acceptHash (s.setStatus false false 0#4) D := by
  rw [hashCommand, h, State.clearStatus_eq]

/-- `start` with the input in the memory and room for it: the HASH of the input is accepted (R196). -/
theorem start_accepted (I : MachineInv s) (hb : s.busy = false) (hD : desc a = some D) (hm : s.mem.Holds input)
    (hfit : input.length ≤ s.memSize.bytes) (ht : 4 ≤ turns.length) :
    ∃ v, (HostOp.start (a.setWidth 32) (BitVec.ofNat 64 input.length)).run turns s =
        .finished v (turns.drop 4) [] ∧
      MachineInv v ∧ Hashing D input v ∧ turnsLeft D v = numChunks D input.length * (D.rounds + 2) + 1 := by
  have hsize := s.memSize.legal.2.2
  have hlen : (s.withOperands a (BitVec.ofNat 64 input.length)).msgLen.toNat = input.length := by
    rw [State.withOperands_msgLen, BitVec.toNat_ofNat]
    omega
  have hok : hashCheck (s.withOperands a (BitVec.ofNat 64 input.length)) = .ok D :=
    hashCheck_eq_ok hD (by rw [hlen]; exact hfit)
  have Iw : MachineInv (s.withOperands a (BitVec.ofNat 64 input.length)) :=
    I.setOperands hb _ _ _ I.memWf I.memBelow
  have hrun := start_run hb (I.idle hb) a (BitVec.ofNat 64 input.length) ht
  rw [hashCommand_of_ok hok] at hrun
  exact ⟨_, hrun, acceptHash_inv Iw hok, acceptHash_hashing hok hlen hm⟩

/-- `msg` and then `start` on an idle machine: the HASH of the input is accepted. -/
theorem msg_start_accepted (I : MachineInv s) (hb : s.busy = false) (hD : desc a = some D)
    (hfit : input.length ≤ s.memSize.bytes) (ht : input.length / 4 + input.length % 4 + 4 ≤ turns.length) :
    ∃ u v, (HostOp.msg input).run turns s =
        .finished u (turns.drop (input.length / 4 + input.length % 4)) [] ∧
      (HostOp.start (a.setWidth 32) (BitVec.ofNat 64 input.length)).run
          (turns.drop (input.length / 4 + input.length % 4)) u =
        .finished v (turns.drop (input.length / 4 + input.length % 4 + 4)) [] ∧
      MachineInv v ∧ Hashing D input v ∧ turnsLeft D v = numChunks D input.length * (D.rounds + 2) + 1 := by
  obtain ⟨m, hmsg, hm⟩ := msgWritesItsBytesOnly s input turns hb (I.idle hb) hfit (by omega)
  have Iu : MachineInv (s.setMem m) := I.of_fixedRun (run_finished rfl hmsg)
  have holds : m.Holds input := fun k hk => by rw [hm, dif_pos hk]
  obtain ⟨v, hstart, hv⟩ := start_accepted (turns := turns.drop (input.length / 4 + input.length % 4))
    Iu hb hD holds hfit (by rw [List.length_drop]; omega)
  rw [List.drop_drop] at hstart
  exact ⟨s.setMem m, v, hmsg, hstart, hv⟩

/-- The rest of the program, from an accepted HASH on: what its reads return, and that it ends when every read has
the turns of the HASH before it. -/
theorem hashStrg_results (hD : D.Shaped) (I : MachineInv s) (h : Hashing D input s) (turns : List Nat) :
    (∀ t rest seen, programRun (.wait :: digestReads (List.range (D.dl / 32))) turns s = .finished t rest seen →
      ∃ k, seen = List.replicate k 0x00000001#32 ++ [0x00000002#32] ++
        (List.range (D.dl / 32)).map (packDigest D (hashBytes D input))) ∧
    (D.dl / 32 < turns.length → (∀ n ∈ turns, turnsLeft D s ≤ n) →
      ∃ t rest seen,
        programRun (.wait :: digestReads (List.range (D.dl / 32))) turns s = .finished t rest seen) := by
  have hks : ∀ k ∈ List.range (D.dl / 32), k < 16 := fun k hk => by
    have hdl := hD.digestWords
    have := List.mem_range.1 hk
    omega
  constructor
  · intro t rest seen hrun
    rcases waitRun_of_hashing I h turns with ⟨-, v, -, hw⟩ | ⟨k, -, -, v, hdone, hw⟩
    · simp [programRun, hw] at hrun
    rw [programRun_of_finished hw] at hrun
    obtain ⟨more, hreads, rfl⟩ := HostRun.after_eq_finished.1 hrun
    refine ⟨k, congrArg _ ?_⟩
    rcases digestReads_run hks hdone.idle hdone.digest (turns.drop (k + 1)) with ⟨_, _, hr⟩ | ⟨-, _, _, hr⟩
    · cases hr.symm.trans hreads
      rfl
    · cases hr.symm.trans hreads
  · intro hlen hturns
    obtain ⟨n, turns, rfl⟩ := List.exists_cons_of_length_pos (Nat.zero_lt_of_lt hlen)
    have hn : turnsLeft D s ≤ n := hturns n List.mem_cons_self
    rcases waitRun_of_hashing I h (n :: turns) with ⟨hsum, -⟩ | ⟨k, -, hsum, v, hdone, hw⟩
    · rw [List.sum_cons] at hsum
      omega
    · obtain rfl : k = 0 := by
        by_contra hk
        obtain ⟨k, rfl⟩ := Nat.exists_eq_succ_of_ne_zero hk
        rw [List.take_succ_cons, List.sum_cons] at hsum
        omega
      rcases digestReads_run hks hdone.idle hdone.digest turns with ⟨t, rest, hr⟩ | ⟨hlt, -⟩
      · exact ⟨_, _, _, programRun_cons_finished.2 ⟨_, _, _, _, hw, hr, rfl⟩⟩
      · rw [List.length_range] at hlt
        rw [List.length_cons] at hlen
        omega

end

/-- A program that has ended has used the turns of its `msg` and its `start`. -/
theorem start_turns_le {s t : State} {a : Word32} {len : Word64} {input : List Byte} {ops : List HostOp}
    {turns rest : List Nat} {seen : List Word32}
    (h : programRun (.msg input :: .start a len :: ops) turns s = .finished t rest seen) :
    input.length / 4 + input.length % 4 + 4 ≤ turns.length := by
  obtain ⟨u, mid, _, _, hmsg, htail, -⟩ := programRun_cons_finished.1 h
  obtain ⟨_, _, _, _, hstart, -⟩ := programRun_cons_finished.1 htail
  obtain ⟨hlen, hmid⟩ := fixedRun_finished (run_finished rfl hmsg)
  obtain ⟨hfour, -⟩ := fixedRun_finished (run_finished rfl hstart)
  rw [msgWords_length] at hlen hmid
  rw [hmid, List.length_drop] at hfour
  exact Nat.add_le_of_le_sub' hlen hfour

/-- Settles O60: `msg` and `start` lead to an accepted HASH, `wait` to its digest, and the reads return it. -/
theorem hashStrgProgramReturnsTheDigest : Obligations.HashStrgProgramReturnsTheDigest := by
  intro s a D input turns I hb hD hfit words
  rw [hashStrgProgram_eq]
  have accepted := msg_start_accepted (turns := turns) I hb hD hfit
  constructor
  · intro t rest seen hrun
    obtain ⟨u, v, hmsg, hstart, Iv, hh, -⟩ := accepted (start_turns_le hrun)
    rw [programRun_of_finished hmsg, programRun_of_finished hstart, HostRun.after_nil, HostRun.after_nil] at hrun
    exact (hashStrg_results (desc_shaped hD) Iv hh _).1 t rest seen hrun
  · intro hlen hturns
    obtain ⟨u, v, hmsg, hstart, Iv, hh, hl⟩ := accepted (by omega)
    rw [programRun_of_finished hmsg, programRun_of_finished hstart, HostRun.after_nil, HostRun.after_nil]
    exact (hashStrg_results (desc_shaped hD) Iv hh _).2 (by rw [List.length_drop]; omega)
      fun n hn => hl ▸ hturns n (List.mem_of_mem_drop hn)

end Sys2Proof.Machine
end

section
/-! PROOF. The parameters of the ROM's descriptors (spec 40_descriptors.md R131 to R140). -/

namespace Sys2Proof.Machine

/-- Settles O18: each row and each family is an entry of the ROM, and `desc_isSome_iff` says which codes have one. -/
theorem descriptorsHaveTheTabledParameters : Obligations.DescriptorsHaveTheTabledParameters :=
  ⟨rfl, rfl, rfl, rfl, rfl, rfl, rfl, -- the sizes, code by code
    rfl, rfl, rfl, rfl, rfl, rfl, rfl, -- the families
    desc_isSome_iff⟩

end Sys2Proof.Machine
end

section
/-! PROOF. The laws of the bit primitives (spec 41_bit_utilities.md R160 to R171). -/

namespace Sys2Proof.Machine

/-! ### Rotations (R161, R162) -/

theorem rotr_eq_rotateRight {n : Nat} (x : BitVec n) (k : Nat) : rotr x k = x.rotateRight k := by
  rw [rotr, BitVec.rotateRight_def]
  split
  case isTrue h => simp [h]
  case isFalse => rfl

theorem rotl_eq_rotateLeft {n : Nat} (x : BitVec n) (k : Nat) : rotl x k = x.rotateLeft k := by
  rw [rotl, BitVec.rotateLeft_def]
  split
  case isTrue h => simp [h, BitVec.ushiftRight_eq_zero]
  case isFalse => rfl

/-- Each rotation moves a bit by the reduced amount; a bit that one of them carries round the end, the other
carries back. -/
theorem rotr_rotl {n : Nat} (x : BitVec n) (k : Nat) : rotr (rotl x k) k = x := by
  rw [rotr_eq_rotateRight, rotl_eq_rotateLeft]
  apply BitVec.eq_of_getElem_eq
  intro i hi
  have hm : k % n < n := Nat.mod_lt k (by omega)
  rw [BitVec.getElem_rotateRight]
  split
  case isTrue hstays =>
    rw [BitVec.getElem_rotateLeft, dif_neg (by omega)]
    simp only [Nat.add_sub_cancel_left]
  case isFalse hwraps =>
    rw [BitVec.getElem_rotateLeft, dif_pos (by omega)]
    congr 1
    omega

/-- Settles O41: the rotations are inverse, and both reduce their amount first. -/
theorem rotationsAreInverse : Obligations.RotationsAreInverse := by
  intro n x k
  refine ⟨rotr_rotl x k, ?_, ?_⟩
  · simp only [rotr, Nat.add_mod_right]
  · simp only [rotl, Nat.add_mod_right]

/-! ### Packing and unpacking (R164 to R166) -/

/-- A packed word holds its bytes at ascending positions from the last argument up (R165). -/
theorem packBytes_getLsbD {n i : Nat} (hi : i < n) (bs : List Byte) :
    (packBytes n bs).getLsbD i = (bs.reverse.getD (i / 8) 0#8).getLsbD (i % 8) := by
  induction bs using List.reverseRecOn generalizing i with
  | nil => simp [packBytes_nil]
  | append_singleton bs b ih =>
    rw [packBytes_concat, List.reverse_concat, BitVec.getLsbD_or, BitVec.getLsbD_shiftLeft,
      BitVec.getLsbD_setWidth]
    by_cases hlow : i < 8
    · simp [hlow, hi, Nat.div_eq_of_lt hlow, Nat.mod_eq_of_lt hlow]
    · have hdiv : i / 8 = (i - 8) / 8 + 1 := by omega
      rw [ih (by omega), hdiv, List.getD_cons_succ, ← Nat.mod_eq_sub_mod (by omega),
        BitVec.getLsbD_of_ge b i (by omega)]
      simp [hlow, hi]

/-- A word is the packing of its bytes (R166). -/
theorem packBytes_unpack {n : Nat} (hn : 8 ∣ n) (x : BitVec n) : packBytes n (unpack x) = x := by
  apply BitVec.eq_of_getLsbD_eq
  intro i hi
  have hlt : n / 8 - 1 - i / 8 < n / 8 := by omega
  rw [packBytes_getLsbD hi, List.getD_eq_getElem?_getD, List.getElem?_reverse (by rw [unpack_length]; omega),
    unpack_length, unpack_getElem? x _ hlt, Option.getD_some, BitVec.getLsbD_extractLsb',
    decide_eq_true (Nat.mod_lt i (by decide)), Bool.true_and]
  congr 1
  omega

/-- Unpacking gives back the bytes that fill a word (R166). -/
theorem unpack_packBytes {n : Nat} {bs : List Byte} (hn : n = 8 * bs.length) :
    unpack (packBytes n bs) = bs := by
  apply List.ext_getElem?
  intro i
  by_cases hi : i < bs.length
  · rw [unpack_getElem? _ i (by omega), List.getElem?_eq_getElem hi]
    congr 1
    apply BitVec.eq_of_getLsbD_eq
    intro j hj
    have hpos : (n - 8 - 8 * i + j) / 8 = bs.length - 1 - i := by omega
    have hbit : (n - 8 - 8 * i + j) % 8 = j := by omega
    have hrev : bs.length - 1 - (bs.length - 1 - i) = i := by omega
    rw [BitVec.getLsbD_extractLsb', decide_eq_true hj, Bool.true_and, packBytes_getLsbD (by omega), hpos, hbit,
      List.getD_eq_getElem?_getD, List.getElem?_reverse (by omega), hrev, List.getElem?_eq_getElem hi,
      Option.getD_some]
  · rw [List.getElem?_eq_none (by rw [unpack_length]; omega), List.getElem?_eq_none (by omega)]

/-- Reversing the bytes of a packed word packs them in reverse (R164). -/
theorem byteSwap_packBytes {n : Nat} {bs : List Byte} (hn : n = 8 * bs.length) :
    byteSwap (packBytes n bs) = packBytes n bs.reverse := by
  rw [byteSwap, unpack_packBytes hn]

/-- Reversing twice gives the word back (R164): its bytes are reversed twice. -/
theorem byteSwap_byteSwap {n : Nat} (hn : 8 ∣ n) (x : BitVec n) : byteSwap (byteSwap x) = x := by
  have hlen : n = 8 * (unpack x).reverse.length := by
    rw [List.length_reverse, unpack_length]
    omega
  calc byteSwap (byteSwap x) = packBytes n (unpack x).reverse.reverse := byteSwap_packBytes hlen
    _ = x := by rw [List.reverse_reverse, packBytes_unpack hn]

/-! ### The packed forms are `packBytes` of their arguments (R165) -/

theorem packBytes_byte (b : Byte) : packBytes 8 [b] = b := by
  rw [packBytes_one, BitVec.setWidth_eq]

theorem packBytes_half (b0 b1 : Byte) : packBytes 16 [b0, b1] = b0 ++ b1 := by
  rw [packBytes_two 16 (by decide), BitVec.setWidth_eq]

theorem packBytes_pack4 (b0 b1 b2 b3 : Byte) : packBytes 32 [b0, b1, b2, b3] = pack4 b0 b1 b2 b3 :=
  laneValue_four b0 b1 b2 b3

/-- The last four bytes fill the low half, the first four the high half. -/
theorem packBytes_pack8 (b0 b1 b2 b3 b4 b5 b6 b7 : Byte) :
    packBytes 64 [b0, b1, b2, b3, b4, b5, b6, b7] = pack8 b0 b1 b2 b3 b4 b5 b6 b7 := by
  apply BitVec.eq_of_getLsbD_eq
  intro i hi
  rw [pack8, pack2, ← packBytes_pack4, ← packBytes_pack4, BitVec.getLsbD_append, packBytes_getLsbD hi]
  by_cases hlow : i < 32
  · have hbyte : i / 8 < 4 := by omega
    rw [if_pos hlow, packBytes_getLsbD hlow]
    congr 1
    exact List.getD_append [b7, b6, b5, b4] [b3, b2, b1, b0] _ _ hbyte
  · have hdiv : i / 8 = (i - 32) / 8 + 4 := by omega
    rw [if_neg hlow, packBytes_getLsbD (by omega), hdiv]
    congr 1
    omega

theorem toNat_append_eq_add {m n : Nat} (x : BitVec m) (y : BitVec n) :
    (x ++ y).toNat = x.toNat * 2 ^ n + y.toNat := by
  rw [BitVec.toNat_append, ← Nat.shiftLeft_add_eq_or_of_lt y.isLt, Nat.shiftLeft_eq]

theorem pack4_toNat (b0 b1 b2 b3 : Byte) :
    (pack4 b0 b1 b2 b3).toNat =
      b0.toNat * 2 ^ 24 + b1.toNat * 2 ^ 16 + b2.toNat * 2 ^ 8 + b3.toNat := by
  simp only [pack4, toNat_append_eq_add]
  omega

/-- A word is made of the four bytes that `unpack` lists (R166). -/
theorem unpack_word (x : Word32) :
    ∃ b0 b1 b2 b3, unpack x = [b0, b1, b2, b3] ∧ pack4 b0 b1 b2 b3 = x := by
  refine ⟨_, _, _, _, rfl, ?_⟩
  rw [← packBytes_pack4]
  exact packBytes_unpack (by decide) x

/-- A doubleword is made of the eight bytes that `unpack` lists (R166). -/
theorem unpack_doubleword (x : Word64) :
    ∃ b0 b1 b2 b3 b4 b5 b6 b7,
      unpack x = [b0, b1, b2, b3, b4, b5, b6, b7] ∧ pack8 b0 b1 b2 b3 b4 b5 b6 b7 = x := by
  refine ⟨_, _, _, _, _, _, _, _, rfl, ?_⟩
  rw [← packBytes_pack8]
  exact packBytes_unpack (by decide) x

/-! ### Keeping bits (R167, R168) -/

/-- A mask of the full width is all ones, so that nothing is cleared. -/
theorem and_fullMask {n : Nat} (x : BitVec n) : x &&& BitVec.ofNat n (2 ^ n - 1) = x := by
  have hmask : BitVec.ofNat n (2 ^ n - 1) = BitVec.allOnes n := by
    apply BitVec.eq_of_toNat_eq
    simp
  rw [hmask, BitVec.and_allOnes]

theorem keepRight_zero {n : Nat} (x : BitVec n) : keepRight x 0 = 0#n := by simp [keepRight]

theorem keepRight_full {n : Nat} (x : BitVec n) : keepRight x n = x := and_fullMask x

theorem keepLeft_zero {n : Nat} (x : BitVec n) : keepLeft x 0 = 0#n := if_pos rfl

theorem keepLeft_full {n : Nat} (x : BitVec n) : keepLeft x n = x := by
  rw [keepLeft, Nat.sub_self, BitVec.shiftLeft_zero, and_fullMask]
  split
  case isTrue h => subst h; exact (BitVec.of_length_zero).symm
  case isFalse => rfl

/-- Settles O42: a packed form is `packBytes` of its bytes, and `packBytes` and `unpack` are inverse. -/
theorem packingAndKeepingLaws : Obligations.PackingAndKeepingLaws := by
  refine ⟨fun b => ?_, fun b0 b1 => ?_, fun b0 b1 b2 b3 => ?_, fun w0 w1 => toNat_append_eq_add w0 w1,
    fun b0 b1 b2 b3 b4 b5 b6 b7 => ?_, unpack_word, unpack_doubleword, byteSwap_byteSwap (by decide),
    byteSwap_byteSwap (by decide), byteSwap_byteSwap (by decide), byteSwap_byteSwap (by decide),
    fun n x => ⟨keepLeft_zero x, keepLeft_full x, keepRight_zero x, keepRight_full x⟩⟩
  · rw [← packBytes_byte b]
    exact byteSwap_packBytes rfl
  · rw [← packBytes_half, ← packBytes_half]
    exact ⟨unpack_packBytes rfl, byteSwap_packBytes rfl⟩
  · refine ⟨pack4_toNat b0 b1 b2 b3, ?_⟩
    rw [← packBytes_pack4, ← packBytes_pack4]
    exact ⟨unpack_packBytes rfl, rfl, byteSwap_packBytes rfl⟩
  · refine ⟨rfl, ?_⟩
    rw [← packBytes_pack8, ← packBytes_pack8]
    exact ⟨unpack_packBytes rfl, rfl, byteSwap_packBytes rfl⟩

/-! ### Calls outside the domain (R160) -/

theorem BitCall.run_of_not_inDomain {c : BitCall} (h : c.inDomain = false) : c.run = none := by
  simp [BitCall.run, h]

theorem legalWidth_eq_false {n : Nat} (h8 : n ≠ 8) (h16 : n ≠ 16) (h32 : n ≠ 32) (h64 : n ≠ 64) :
    legalWidth n = false := by
  simp [legalWidth, h8, h16, h32, h64]

/-- Settles O43: none of the calls named lies in the domain. -/
theorem bitPrimitivesRefuseOutsideTheirDomain : Obligations.BitPrimitivesRefuseOutsideTheirDomain := by
  intro n x k
  refine ⟨fun hk => ?_, fun hk => ?_, fun h8 h16 h32 h64 => ?_⟩
  · constructor <;> exact BitCall.run_of_not_inDomain (by simp [BitCall.inDomain, hk])
  · exact BitCall.run_of_not_inDomain (by simp [BitCall.inDomain, hk])
  · have hw := legalWidth_eq_false h8 h16 h32 h64
    refine ⟨?_, ?_, ?_, ?_, ?_, ?_, ?_, ?_, ?_⟩ <;>
      exact BitCall.run_of_not_inDomain (by simp [BitCall.inDomain, hw])

end Sys2Proof.Machine
end

section
/-! PROOF. The commands and the register rows (spec 42_commands.md R190 to R198, R207, R208): what each leaves in an
idle and in a busy machine, said once per operation. -/

namespace Sys2Proof.Machine

/-! ### The commands (R190 to R198) -/

section
variable {s : State}

theorem exec_hash_of_idle (hb : s.busy = false) : exec .hash s = .next (hashCommand s) :=
  congrArg Host.Outcome.next (State.unlessBusy_of_idle hashCommand hb)

theorem exec_clear_of_idle (hb : s.busy = false) : exec .clear s = .next (clearCommand s) :=
  congrArg Host.Outcome.next (State.unlessBusy_of_idle clearCommand hb)

theorem runCommand_of_busy (hb : s.busy = true) (v : Word32) : runCommand s v = s :=
  State.unlessBusy_of_busy _ hb

/-- Every value above 2 is a reserved command (R190, R198). -/
theorem runCommand_of_reserved (hb : s.busy = false) {v : Word32} (hv : 2 < v.toNat) :
    runCommand s v = reservedCommand s := by
  have hne : ∀ k : Word32, k.toNat ≤ 2 → v ≠ k := by
    rintro k hk rfl
    omega
  rw [runCommand, State.unlessBusy_of_idle _ hb, if_neg (hne _ (by decide)), if_neg (hne _ (by decide)),
    if_neg (hne _ (by decide))]

/-! ### The checks of HASH (R194, R195, R342) -/

theorem hashCommand_of_error {c : BitVec 4} (h : hashCheck s = .error c) :
    hashCommand s = s.setStatus false true c := by
  rw [hashCommand, h]
  rfl

theorem hashCheck_reserved (h : desc s.alg = none) : hashCheck s = .error errAlgReserved := by
  rw [hashCheck, h]

theorem hashCheck_unrepresentable {D : Descriptor} (h : desc s.alg = some D) (hlen : 2 ^ 61 ≤ s.msgLen.toNat) :
    hashCheck s = .error errLenUnrepresentable := by
  simp only [hashCheck, h]
  rw [if_pos hlen]

theorem hashCheck_exceeds {D : Descriptor} (h : desc s.alg = some D) (hlen : s.msgLen.toNat < 2 ^ 61)
    (hmem : s.memSize.bytes < s.msgLen.toNat) : hashCheck s = .error errLenExceedsMem := by
  simp only [hashCheck, h]
  rw [if_neg (Nat.not_le.2 hlen), if_pos hmem]

/-- The codes without a descriptor are 0 and those from 8 on (R131). -/
theorem desc_eq_none {a : BitVec 4} (h : a.toNat = 0 ∨ 8 ≤ a.toNat) : desc a = none := by
  rw [← Option.not_isSome_iff_eq_none, desc_isSome_iff]
  omega

end

/-! ### The statements about commands -/

/-- Settles O10: NOP answers the state itself. -/
theorem nopChangesNothing : Obligations.NopChangesNothing :=
  fun _ => rfl

/-- Settles O11: NOP changes nothing at all, and the busy gate holds back the others. -/
theorem commandsWhileBusyChangeNothing : Obligations.CommandsWhileBusyChangeNothing :=
  fun _ op hb => ⟨rfl, congrArg Host.Outcome.next (State.unlessBusy_of_busy hashCommand hb),
    congrArg Host.Outcome.next (State.unlessBusy_of_busy clearCommand hb),
    congrArg Host.Outcome.next (runCommand_of_busy hb op)⟩

/-- Settles O14: CLEAR's own update names the fields it writes; no flag that could raise `irq` is left. -/
theorem clearResetsTheResults : Obligations.ClearResetsTheResults :=
  fun s hb => ⟨clearCommand s, exec_clear_of_idle hb, rfl, fun k => Vector.getElem_replicate k.isLt, rfl⟩

/-- Settles O15: a value above 2 is a reserved command, which raises error 4. -/
theorem reservedCommandIsRejected : Obligations.ReservedCommandIsRejected :=
  fun _ _ hb hop => congrArg Host.Outcome.next (runCommand_of_reserved hb hop)

/-- Settles O12: `hashCheck` answers the code of the first check that fails, or the descriptor. -/
theorem hashReportsTheFirstFailingCheck : Obligations.HashReportsTheFirstFailingCheck := by
  intro s hb
  have rejected : ∀ {c}, hashCheck s = .error c →
      exec .hash s = .next { s with done := false, err := true, errCode := c } :=
    fun h => (exec_hash_of_idle hb).trans (congrArg Host.Outcome.next (hashCommand_of_error h))
  refine ⟨fun ha => rejected (hashCheck_reserved (desc_eq_none ha)), fun ha => ?_⟩
  obtain ⟨D, hD⟩ := Option.isSome_iff_exists.1 ((desc_isSome_iff s.alg).2 ha)
  refine ⟨fun hlen => rejected (hashCheck_unrepresentable hD hlen),
    fun hlen hmem => rejected (hashCheck_exceeds hD hlen hmem), fun hfit => ?_⟩
  have haccept := hashCommand_of_ok (hashCheck_eq_ok hD hfit)
  exact ⟨_, D, (exec_hash_of_idle hb).trans (congrArg Host.Outcome.next haccept), hD, hD, rfl, rfl, rfl, rfl⟩

/-! ### Offsets of the register region (R30, R73) -/

theorem Reg.offset_range (r : Reg) :
    r.offset.toNat % 4 = 0 ∧ (r.offset.toNat < 0x24 ∨ (0x40 ≤ r.offset.toNat ∧ r.offset.toNat < 0x80)) := by
  cases r with
  | digest k =>
    simp only [Reg.offset, BitVec.toNat_ofNat]
    omega
  | _ => decide

/-- Off the map there is no register (R73). -/
theorem regAt_eq_none {off : RegOffset}
    (h : off.toNat % 4 ≠ 0 ∨ (0x24 ≤ off.toNat ∧ off.toNat < 0x40) ∨ 0x80 ≤ off.toNat) :
    regAt off = none := by
  cases hr : regAt off with
  | none => rfl
  | some r =>
    have hrange := r.offset_range
    rw [← regAt_offset hr] at hrange
    omega

/-! ### Register reads (R207) -/

section
variable (s : State)

theorem exec_regRd (r : Reg) : exec (.regRd r.offset) s = .next (s.reply (s.readReg r)) := by
  rw [exec, execRegRd, State.readOffset, regAt_of_offset]

theorem exec_regRd_of_unmapped {off : RegOffset} (h : regAt off = none) :
    exec (.regRd off) s = .next (s.reply 0#32) := by
  rw [exec, execRegRd, State.readOffset, h]

theorem flagBit_toNat (b : Bool) : (flagBit b).toNat = b.toNat := BitVec.toNat_ofBool b

/-- STATUS as a number (R34). -/
theorem State.statusWord_eq :
    s.statusWord = BitVec.ofNat 32 (16 * s.errCode.toNat + 4 * s.err.toNat + 2 * s.done.toNat + s.busy.toNat) := by
  rw [State.statusWord, ← BitVec.ofNat_toNat]
  simp only [toNat_append_eq_add, flagBit_toNat, BitVec.toNat_ofNat]
  congr 1
  omega

/-- IRQ_EN as a number (R40). -/
theorem State.irqEnWord_eq : s.irqEnWord = BitVec.ofNat 32 (2 * s.errEn.toNat + s.doneEn.toNat) := by
  rw [State.irqEnWord, ← BitVec.ofNat_toNat]
  simp only [toNat_append_eq_add, flagBit_toNat]
  congr 1
  omega

theorem State.ctrlWord_eq : s.ctrlWord = BitVec.ofNat 32 s.alg.toNat := (BitVec.ofNat_toNat 32 s.alg).symm

end

/-- Settles O19: a register is read at its offset, and there is no other offset to read one at. -/
theorem registerReadReturnsTheRegister : Obligations.RegisterReadReturnsTheRegister := by
  intro s status irqEn
  have read : ∀ (r : Reg) {w : Word32}, s.readReg r = w →
      exec (.regRd r.offset) s = .next { s with readData := w } := by
    rintro r w rfl
    exact exec_regRd s r
  refine ⟨read .id rfl, read .ctrl s.ctrlWord_eq, read .cmd rfl, read .status s.statusWord_eq,
    read .msgLenLo rfl, read .msgLenHi rfl, read .irqEn s.irqEnWord_eq, read .chunks rfl, read .memsize rfl,
    fun k => read (.digest k) rfl, fun off h => exec_regRd_of_unmapped s (regAt_eq_none h),
    fun size off data => rfl, fun I hb k => ?_⟩
  obtain ⟨D, -, B⟩ := I.running hb
  exact read (.digest k) (B.noDigest k)

/-! ### Register writes (R208) -/

section
variable (s : State) (v : Word32)

theorem exec_regWr (r : Reg) : exec (.regWr r.offset v) s = .next (writeReg s v r) := by
  rw [exec, execRegWr, writeOffset, regAt_of_offset]

/-- A write takes nothing where every register that could stand at its offset takes nothing. -/
theorem exec_regWr_of_ignored {off : RegOffset} (h : ∀ r : Reg, r.offset = off → writeReg s v r = s) :
    exec (.regWr off v) s = .next s := by
  rw [exec, execRegWr, writeOffset]
  cases hr : regAt off with
  | none => rfl
  | some r => exact congrArg Host.Outcome.next (h r (regAt_offset hr).symm)

/-- A busy machine takes a write to IRQ_EN only (R390). -/
theorem writeReg_of_busy (hb : s.busy = true) {r : Reg} (hr : r ≠ .irqEn) : writeReg s v r = s := by
  cases r with
  | irqEn => exact absurd rfl hr
  | ctrl | cmd | msgLenLo | msgLenHi =>
    simp only [writeReg, State.writeCtrl, runCommand, State.unlessBusy_of_busy _ hb]
  | id | status | chunks | memsize | digest k => rfl

/-- The registers at 0x00, at 0x0C and from 0x1C on are read-only (R30, R208). -/
theorem writeReg_of_readOnly {r : Reg}
    (hr : r.offset.toNat = 0x00 ∨ r.offset.toNat = 0x0C ∨ 0x1C ≤ r.offset.toNat) : writeReg s v r = s := by
  cases r with
  | ctrl | cmd | msgLenLo | msgLenHi | irqEn => exact absurd hr (by decide)
  | id | status | chunks | memsize | digest k => rfl

end

/-- The command of a value written to CMD, by its number (R190). -/
theorem decodeCmd_eq (v : Word32) :
    decodeCmd v = if v.toNat = 0 then .nop else if v.toNat = 1 then .hash else if v.toNat = 2 then .clear
      else .cmdReserved v := by
  have hval : ∀ k : Word32, v = k ↔ v.toNat = k.toNat := fun k => BitVec.toNat_inj.symm
  simp only [decodeCmd, hval]
  rfl

/-- Settles O20: a write reaches the register at its offset, which takes it or not. -/
theorem registerWriteStoresInWritableRegisters : Obligations.RegisterWriteStoresInWritableRegisters := by
  intro s v
  refine ⟨exec_regWr s v .irqEn, fun hb off hoff => ?_, fun hb => ⟨?_, ?_, ?_, ?_⟩, fun off h => ?_,
    fun size off => rfl⟩
  · refine exec_regWr_of_ignored s v fun r hr => writeReg_of_busy s v hb ?_
    rintro rfl
    exact hoff hr.symm
  · exact (exec_regWr s v .ctrl).trans (congrArg Host.Outcome.next (writeReg_ctrl_of_idle hb v))
  · rw [← decodeCmd_eq, exec_decodeCmd]
    exact exec_regWr s v .cmd
  · exact (exec_regWr s v .msgLenLo).trans (congrArg Host.Outcome.next (writeReg_msgLenLo_of_idle hb v))
  · exact (exec_regWr s v .msgLenHi).trans (congrArg Host.Outcome.next (writeReg_msgLenHi_of_idle hb v))
  · refine exec_regWr_of_ignored s v fun r hr => writeReg_of_readOnly s v ?_
    have hrange := r.offset_range
    rw [hr] at hrange ⊢
    omega

end Sys2Proof.Machine
end

section
/-! PROOF. The engine's turn and its steps (spec 42_commands.md R200 to R204): which step a turn takes, and what LOAD,
FOLD and OUTPUT leave in the registers, word by word. -/

namespace Sys2Proof.Machine

/-! ### The step of each phase (R204) -/

section
variable {s : State} {D : Descriptor}

theorem engineStep_of_idle (hp : s.phase = .idle) : engineStep s = .next s := by
  rw [engineStep, hp]

theorem withDescriptor_of_desc (hD : desc s.algL = some D) (f : Descriptor → State → State) :
    withDescriptor s f = .next (f D s) := by
  rw [withDescriptor, hD]

theorem engineStep_of_load (hp : s.phase = .load) (hD : desc s.algL = some D) :
    engineStep s = .next (loadStep D s) := by
  rw [engineStep, hp]
  exact withDescriptor_of_desc hD loadStep

theorem engineStep_of_round (hp : s.phase = .round) (hD : desc s.algL = some D) :
    engineStep s = .next (roundStep D s) := by
  rw [engineStep, hp]
  exact withDescriptor_of_desc hD roundStep

theorem engineStep_of_fold (hp : s.phase = .fold) (hD : desc s.algL = some D) :
    engineStep s = .next (foldStep D s) := by
  rw [engineStep, hp]
  exact withDescriptor_of_desc hD foldStep

theorem engineStep_of_output (hp : s.phase = .output) (hD : desc s.algL = some D) :
    engineStep s = .next (outputStep D s) := by
  rw [engineStep, hp]
  exact withDescriptor_of_desc hD outputStep

end

/-- The engine's turn, given by the inbox or by its being empty (R84, R395). -/
theorem step_of_engine {s : State} (h : s.nextAction = .engine) :
    step s = engineStep (s.setInbox s.inbox.tail) := by
  rw [State.nextAction] at h
  rw [step]
  cases hq : s.inbox with
  | nil => exact congrArg (fun q => engineStep (s.setInbox q)) hq
  | cons a rest =>
    rw [hq] at h
    obtain rfl : a = .engine := h
    rfl

/-- Settles O5: the turn is the engine's step, and each phase has its own. -/
theorem engineTurnTakesTheStepOfItsPhase : Obligations.EngineTurnTakesTheStepOfItsPhase := by
  intro s ha u
  rw [step_of_engine ha]
  exact ⟨fun hp => engineStep_of_idle (s := u) hp, fun D hD =>
    ⟨fun hp => engineStep_of_load (s := u) hp hD, fun hp => engineStep_of_round (s := u) hp hD,
      fun hp => engineStep_of_fold (s := u) hp hD, fun hp => engineStep_of_output (s := u) hp hD⟩⟩

/-! ### LOAD and FOLD (R200, R202) -/

theorem loadStep_V (D : Descriptor) (s : State) (i : Fin 8) :
    (loadStep D s).V[i] = if i.val < D.nsw then s.H[i] else s.V[i] := by
  simp [loadStep]

/-- Settles O32: LOAD's own update names the fields it writes. -/
theorem loadSeedsTheWorkingVariables : Obligations.LoadSeedsTheWorkingVariables :=
  fun s D hp hD => ⟨loadStep D s, engineStep_of_load hp hD, rfl, loadStep_V D s⟩

/-- The sum of two words is their sum modulo `2 ^ w`, whatever stands above `w` bits (R311). -/
theorem wrapAdd_toNat {w : Nat} (hw : w ≤ 64) (x y : Word64) :
    (wrapAdd w x y).toNat = (x.toNat + y.toNat) % 2 ^ w := by
  rw [wrapAdd, BitVec.toNat_setWidth_of_le hw, BitVec.toNat_add, BitVec.toNat_setWidth, BitVec.toNat_setWidth,
    ← Nat.add_mod]

theorem Descriptor.Shaped.w_le {D : Descriptor} (h : D.Shaped) : D.w ≤ 64 := by
  rcases h.width with ⟨h, -⟩ | ⟨h, -⟩ <;> omega

theorem foldAdd_toNat {D : Descriptor} (h : D.Shaped) (H V : Vector Word64 8) (i : Fin 8) :
    (foldAdd D H V)[i].toNat =
      if i.val < D.nsw then (H[i].toNat + V[i].toNat) % 2 ^ D.w else H[i].toNat := by
  simp only [foldAdd, Fin.getElem_fin, Vector.getElem_ofFn]
  split
  · exact wrapAdd_toNat h.w_le _ _
  · rfl

/-- Settles O35: the words are added one by one. -/
theorem foldAddsWordByWord : Obligations.FoldAddsWordByWord :=
  fun s D hp hD => ⟨foldStep D s, engineStep_of_fold hp hD, rfl, foldAdd_toNat (desc_shaped hD) s.H s.V⟩

/-! ### OUTPUT (R203, R320 to R322) -/

/-- The low bits of a register, cut to its word width, hold the same field. -/
theorem extract_setWidth {w a n : Nat} (h : a + n ≤ w) (x : Word64) :
    (x.setWidth w).extractLsb' a n = x.extractLsb' a n := by
  apply BitVec.eq_of_getLsbD_eq
  intro i hi
  rw [BitVec.getLsbD_extractLsb', BitVec.getLsbD_extractLsb', BitVec.getLsbD_setWidth,
    decide_eq_true (by omega : a + i < w), Bool.true_and]

/-- Four neighbouring bytes of a register, from bit `a` up, make the word there (R165). -/
theorem pack4_extract (x : Word64) (a : Nat) :
    pack4 (x.extractLsb' (a + 24) 8) (x.extractLsb' (a + 16) 8) (x.extractLsb' (a + 8) 8) (x.extractLsb' a 8) =
      x.extractLsb' a 32 := by
  have byte : ∀ k, k + 8 ≤ 32 → x.extractLsb' (a + k) 8 = (x.extractLsb' a 32).extractLsb' k 8 := fun k hk => by
    apply BitVec.eq_of_getLsbD_eq
    intro i hi
    rw [BitVec.getLsbD_extractLsb', BitVec.getLsbD_extractLsb', BitVec.getLsbD_extractLsb',
      decide_eq_true (by omega : k + i < 32), Bool.true_and, Nat.add_assoc]
  rw [byte 24 (by decide), byte 16 (by decide), byte 8 (by decide), ← Nat.add_zero a, byte 0 (by decide)]
  exact word_of_bytes _

section
variable {D : Descriptor} (h : D.Shaped) (H : Vector Word64 8) {k q r : Nat} (hq : q < 8)
include h

/-- A byte of the digest is byte `r` of register `q`, the most significant byte being byte 0 (R320, R321). -/
theorem digestByte_eq (hr : r < D.w / 8) (hi : q * (D.w / 8) + r < D.dl / 8) :
    (truncateDigest D (serialize D H)).getD (q * (D.w / 8) + r) 0#8 = H[q].extractLsb' (D.w - 8 - 8 * r) 8 := by
  have hdl : D.dl / 8 ≤ D.nsw * (D.w / 8) := by
    have := h.digestWords.2.1
    rcases h.width with ⟨hw, -⟩ | ⟨hw, -⟩ <;> rw [hw] at this ⊢ <;> omega
  have hreg : (q * (D.w / 8) + r) / (D.w / 8) = q := by
    rw [Nat.mul_comm, Nat.mul_add_div (by omega), Nat.div_eq_of_lt hr, Nat.add_zero]
  have hbyte : (q * (D.w / 8) + r) % (D.w / 8) = r := by
    rw [Nat.mul_add_mod', Nat.mod_eq_of_lt hr]
  have hser := serialize_getElem? h H _ (hi.trans_le hdl) (hreg.symm ▸ hq)
  simp only [hreg, hbyte] at hser
  rw [truncateDigest, List.getD_eq_getElem?_getD, List.getElem?_take_of_lt hi, hser, Option.getD_some,
    extract_setWidth (by omega)]

/-- A word of the digest is the four bytes of register `q` from byte `r` on (R322). -/
theorem digestWord_eq (hk : k < D.dl / 32) (hpos : 4 * k = q * (D.w / 8) + r) (hr : r + 4 ≤ D.w / 8) :
    digestWord D H k = H[q].extractLsb' (D.w - 32 - 8 * r) 32 := by
  have byte : ∀ i < 4, (truncateDigest D (serialize D H)).getD (4 * k + i) 0#8 =
      H[q].extractLsb' (D.w - 32 - 8 * r + (24 - 8 * i)) 8 := fun i hi => by
    rw [hpos, Nat.add_assoc, digestByte_eq h H hq (by omega) (by omega)]
    congr 1
    omega
  have first := byte 0 (by decide)
  rw [Nat.add_zero] at first
  simp only [digestWord, packDigest, if_pos hk, first, byte 1 (by decide), byte 2 (by decide), byte 3 (by decide)]
  exact pack4_extract _ _

end

theorem digestWord_eq_zero {D : Descriptor} (H : Vector Word64 8) {k : Nat} (hk : D.dl / 32 ≤ k) :
    digestWord D H k = 0#32 := if_neg (Nat.not_lt.2 hk)

/-- Settles O36: a 32-bit register is one digest word, a 64-bit register two, the upper half first. -/
theorem outputWritesTheDigestWords : Obligations.OutputWritesTheDigestWords := by
  intro s D hp hD herr
  have shaped := desc_shaped hD
  refine ⟨outputStep D s, engineStep_of_output hp hD, rfl, ?_, fun k => ?_⟩
  · show (true && s.doneEn || s.err && s.errEn) = s.doneEn
    rw [herr, Bool.true_and, Bool.false_and, Bool.or_false]
  · simp only [outputStep, Fin.getElem_fin, Vector.getElem_ofFn]
    split
    case isTrue hzero => exact digestWord_eq_zero s.H hzero
    case isFalse hk =>
      have hwords := shaped.digestWords
      have hn : D.nsw ≤ 8 := by rcases shaped.words with h | h <;> omega
      have word := @digestWord_eq D shaped s.H k.val
      split
      case isTrue hw =>
        rw [hw] at hwords word
        rw [word (q := k.val % 8) (r := 0) (by omega) (by omega) (by omega) (by decide),
          BitVec.setWidth_eq_extractLsb' (by decide)]
      case isFalse hw32 =>
        have hw : D.w = 64 := by rcases shaped.width with ⟨h, -⟩ | ⟨h, -⟩ <;> omega
        rw [hw] at word
        split
        case isTrue heven =>
          rw [word (q := k.val / 2) (r := 0) (by omega) (by omega) (by omega) (by decide)]
        case isFalse hodd =>
          rw [word (q := k.val / 2) (r := 4) (by omega) (by omega) (by omega) (by decide)]

end Sys2Proof.Machine
end

section
/-! PROOF. A HASH from acceptance to its digest, whatever bytes of its message are written (spec 42_commands.md R205,
R206). A run that draws unwritten bytes goes along with the run in which they had been written with the values drawn:
`State.asWritten` is that machine, and what is known of `Hashing` says the rest. -/

namespace Sys2Proof.Machine

/-! ### The order of the draws (R82, R233; log 20) -/

/-- A read of part of a range, with the draws of the bytes before it, gives that part of the whole read. -/
theorem Memory.readBytes_part (mem : Memory) (d p k : Nat) {n : Nat} (h : p + k ≤ n) :
    (mem.readBytes (mem.readBytes d 0 p).2 p k).1 = ((mem.readBytes d 0 n).1.drop p).take k := by
  obtain ⟨r, rfl⟩ := Nat.exists_eq_add_of_le h
  rw [Nat.add_assoc, Memory.readBytes_add, Nat.zero_add, Memory.readBytes_add,
    List.drop_left' (Memory.readBytes_length ..), List.take_left' (Memory.readBytes_length ..)]

/-- Reading part of a written message draws nothing. -/
theorem Memory.Holds.readBytes_part {mem : Memory} {m : List Byte} (hm : mem.Holds m) (d : Nat) {p k : Nat}
    (h : p + k ≤ m.length) : mem.readBytes d p k = ((m.drop p).take k, d) := by
  have hlen : ((m.drop p).take k).length = k := by
    rw [List.length_take, List.length_drop]
    omega
  rw [← Memory.readBytes_of_written (m := mem) (a := p) ((m.drop p).take k) _ d, hlen]
  intro i hi
  rw [List.getElem_take, List.getElem_drop]
  exact hm (p + i) _

/-- LOAD of the next `n` bytes of the padded message: it gives what it would of a memory that holds the message as
drawn, and draws as a read of the whole message does. -/
theorem loadBytes_in_order {mem mem' : Memory} {L d : Nat} (hm : mem'.Holds (mem.readBytes d 0 L).1)
    (D : Descriptor) (d' p n : Nat) :
    loadBytes mem D L (mem.readBytes d 0 (min p L)).2 p n =
      ((loadBytes mem' D L d' p n).1, (mem.readBytes d 0 (min (p + n) L)).2) := by
  by_cases hp : p ≤ L
  · have hpart : p + min n (L - p) ≤ L := by omega
    have hwritten := hm.readBytes_part d' (p := p) (k := min n (L - p)) (by rwa [Memory.readBytes_length])
    have hend : min (p + n) L = p + min n (L - p) := by omega
    rw [loadBytes_eq, loadBytes_eq, hwritten, ← mem.readBytes_part d _ _ hpart, hend, Nat.min_eq_left hp,
      Memory.readBytes_add, Nat.zero_add]
  · have hle : L ≤ p := by omega
    rw [loadBytes_generated _ _ _ _ _ _ hle, loadBytes_generated _ _ _ _ _ _ hle, Nat.min_eq_right hle,
      Nat.min_eq_right (by omega)]

/-! ### The run in which the message had been written -/

/-- The message of a running HASH: an unwritten byte stands as the value that LOAD draws for it, the first of the
draws being `d` (R205). -/
def State.message (s : State) (d : Nat) : List Byte := (s.mem.readBytes d 0 s.lenL.toNat).1

/-- The same machine with every byte of its message written, and so with no draw to make. -/
def State.asWritten (s : State) (d : Nat) : State :=
  (s.setMem (s.mem.writeBytes 0 (s.message d))).setDraws 0

/-- The chunks that LOAD has read. -/
def State.chunksLoaded (s : State) : Nat :=
  match s.phase with
  | .round | .fold => s.j.toNat + 1
  | .idle | .load | .output => s.j.toNat

/-- The draws made since draw `d` are those of the message bytes in the chunks that LOAD has read. -/
def DrawnInOrder (D : Descriptor) (d : Nat) (s : State) : Prop :=
  s.draws = (s.mem.readBytes d 0 (min (s.chunksLoaded * D.cb) s.lenL.toNat)).2

theorem State.message_length (s : State) (d : Nat) : (s.message d).length = s.lenL.toNat :=
  Memory.readBytes_length ..

theorem Memory.writeBytes_holds (mem : Memory) (m : List Byte) : (mem.writeBytes 0 m).Holds m := by
  intro a ha
  rw [Memory.lookup_writeBytes, dif_pos (by omega)]
  rfl

section
variable {s : State} {D : Descriptor} {d : Nat}

theorem State.asWritten_holds (s : State) (d : Nat) : (s.asWritten d).mem.Holds (s.message d) :=
  s.mem.writeBytes_holds _

/-- LOAD reads in order what it reads of the written message, which takes no draw (R200, R233). -/
theorem DrawnInOrder.chunkBytes_eq (h : DrawnInOrder D d s) (hp : s.phase = .load) (hD : desc s.algL = some D)
    (B : BusyInv D s) :
    chunkBytes (s.asWritten d).mem D (s.asWritten d).lenL.toNat (s.asWritten d).j.toNat (s.asWritten d).draws =
        ((chunkBytes s.mem D s.lenL.toNat s.j.toNat s.draws).1, 0) ∧
      DrawnInOrder D d (loadStep D s) := by
  have hdraws : s.draws = (s.mem.readBytes d 0 (min (s.j.toNat * D.cb) s.lenL.toNat)).2 := by
    rw [h, State.chunksLoaded, hp]
  have hload := loadBytes_in_order (s.asWritten_holds d) D 0 (s.j.toNat * D.cb) D.cb
  rw [← hdraws] at hload
  have hj : s.j.toNat < numChunks D (s.message d).length := by
    rw [s.message_length, ← B.nchIs]
    exact B.j_lt (by simp [hp])
  have hwritten := chunkBytes_of_holds (desc_shaped hD) (s.asWritten_holds d) hj 0
  rw [s.message_length] at hwritten
  constructor
  · exact Prod.ext (congrArg Prod.fst hload).symm (congrArg Prod.snd hwritten :)
  · show (chunkBytes s.mem D s.lenL.toNat s.j.toNat s.draws).2 =
      (s.mem.readBytes d 0 (min ((s.j.toNat + 1) * D.cb) s.lenL.toNat)).2
    rw [chunkBytes, hload, Nat.succ_mul]

/-- LOAD of the written message is LOAD, the draws apart. -/
theorem DrawnInOrder.load (h : DrawnInOrder D d s) (hp : s.phase = .load) (hD : desc s.algL = some D)
    (B : BusyInv D s) :
    loadStep D (s.asWritten d) = (loadStep D s).asWritten d ∧ DrawnInOrder D d (loadStep D s) := by
  obtain ⟨hbytes, hnext⟩ := h.chunkBytes_eq hp hD B
  refine ⟨?_, hnext⟩
  rw [loadStep, hbytes]
  rfl

/-- ROUND makes no draw, in the chunk that LOAD has read. -/
theorem DrawnInOrder.round (h : DrawnInOrder D d s) (hp : s.phase = .round) : DrawnInOrder D d (roundStep D s) := by
  have hload : (roundStep D s).chunksLoaded = s.chunksLoaded := by
    unfold State.chunksLoaded
    rcases roundStep_phase D s with ⟨-, hn⟩ | ⟨-, hn⟩ <;> rw [hn, hp] <;> rfl
  rw [DrawnInOrder, hload]
  exact h

/-- FOLD makes no draw, and ends the chunk that LOAD has read. -/
theorem DrawnInOrder.fold (h : DrawnInOrder D d s) (hp : s.phase = .fold) (B : BusyInv D s) :
    DrawnInOrder D d (foldStep D s) := by
  have hload : (foldStep D s).chunksLoaded = s.chunksLoaded := by
    obtain ⟨-, hj1⟩ := B.next_j hp
    unfold State.chunksLoaded
    rcases foldStep_phase D s with ⟨-, hn⟩ | ⟨-, hn⟩ <;> rw [hn, hp] <;> exact hj1
  rw [DrawnInOrder, hload]
  exact h

/-- OUTPUT makes no draw. -/
theorem DrawnInOrder.output (h : DrawnInOrder D d s) (hp : s.phase = .output) : DrawnInOrder D d (outputStep D s) := by
  rw [DrawnInOrder, State.chunksLoaded, hp] at h
  exact h

/-- One engine step of the machine is the same step of the one with its message written. -/
theorem DrawnInOrder.engineStep_next (I : MachineInv s) (hD : desc s.algL = some D) (h : DrawnInOrder D d s) :
    ∃ t, engineStep s = .next t ∧ engineStep (s.asWritten d) = .next (t.asWritten d) ∧
      MachineInv t ∧ desc t.algL = some D ∧ DrawnInOrder D d t ∧ t.mem = s.mem := by
  have busy : s.phase ≠ .idle → BusyInv D s := fun hp => (I.running_of_phase hp hD).2.2
  cases hp : s.phase with
  | idle => exact ⟨s, engineStep_of_idle hp, engineStep_of_idle hp, I, hD, h, rfl⟩
  | load =>
    obtain ⟨hsame, hnext⟩ := h.load hp hD (busy (by simp [hp]))
    exact ⟨loadStep D s, engineStep_of_load hp hD, hsame ▸ engineStep_of_load hp hD,
      (EngineEffect.load D hD hp).keeps_inv I, hD, hnext, rfl⟩
  | round =>
    exact ⟨roundStep D s, engineStep_of_round hp hD, engineStep_of_round (s := s.asWritten d) hp hD,
      (EngineEffect.round D hD hp).keeps_inv I, hD, h.round hp, rfl⟩
  | fold =>
    exact ⟨foldStep D s, engineStep_of_fold hp hD, engineStep_of_fold (s := s.asWritten d) hp hD,
      (EngineEffect.fold D hD hp).keeps_inv I, hD, h.fold hp (busy (by simp [hp])), rfl⟩
  | output =>
    exact ⟨outputStep D s, engineStep_of_output hp hD, engineStep_of_output (s := s.asWritten d) hp hD,
      (EngineEffect.output D hD hp).keeps_inv I, hD, h.output hp, rfl⟩

/-- Turns in a row lead both machines to the same registers, and leave the memory as it was. -/
theorem DrawnInOrder.engineRun_next (I : MachineInv s) (hD : desc s.algL = some D) (h : DrawnInOrder D d s) (n : Nat) :
    ∃ t, engineRun n s = .next t ∧ engineRun n (s.asWritten d) = .next (t.asWritten d) ∧ t.mem = s.mem := by
  induction n generalizing s with
  | zero => exact ⟨s, rfl, rfl, rfl⟩
  | succ n ih =>
    obtain ⟨u, hu, hw, Iu, hDu, hnext, hmem⟩ := h.engineStep_next I hD
    obtain ⟨t, ht, htw, hmemt⟩ := ih Iu hDu hnext
    exact ⟨t, by rw [engineRun, hu]; exact ht, by rw [engineRun, hw]; exact htw, hmemt.trans hmem⟩

end

/-! ### An accepted HASH (R205, R206) -/

/-- Writing a message that fits an idle machine's memory keeps the invariant. -/
theorem MachineInv.writeBytes {s : State} (I : MachineInv s) (hb : s.busy = false) {m : List Byte}
    (hm : m.length ≤ s.memSize.bytes) (d : Nat) :
    MachineInv ((s.setMem (s.mem.writeBytes 0 m)).setDraws d) :=
  (I.setOperands hb s.alg s.msgLenLo s.msgLenHi (Memory.writeBytes_wf I.memWf 0 m)
    (Memory.writeBytes_below I.memBelow 0 m (by omega))).unobserved _ _ _ _ _

/-- An accepted HASH after any number of turns: it runs on, or it has ended with the digest of its message. -/
theorem acceptedHash_run {s : State} {D : Descriptor} (I : MachineInv s) (hb : s.busy = false)
    (hok : hashCheck s = .ok D) (n : Nat) :
    ∃ t, engineRun n (acceptHash (s.setStatus false false 0#4) D) = .next t ∧ t.mem = s.mem ∧
      ((t.busy = true ∧ n < numChunks D s.msgLen.toNat * (D.rounds + 2) + 1) ∨
       (HashDone D (s.mem.readBytes s.draws 0 s.msgLen.toNat).1 t ∧
        numChunks D s.msgLen.toNat * (D.rounds + 2) + 1 ≤ n)) := by
  obtain ⟨hD, -, hfit⟩ := hashCheck_ok hok
  have hlen : (s.mem.readBytes s.draws 0 s.msgLen.toNat).1.length = s.msgLen.toNat := Memory.readBytes_length ..
  have hzero : DrawnInOrder D s.draws (acceptHash (s.setStatus false false 0#4) D) := by
    show s.draws = (s.mem.readBytes s.draws 0 (min (0 * D.cb) s.msgLen.toNat)).2
    rw [Nat.zero_mul, Nat.zero_min]
    rfl
  obtain ⟨t, ht, hw, hmem⟩ := hzero.engineRun_next (acceptHash_inv I hok) hD n
  have Iw := I.writeBytes hb (hlen.symm ▸ hfit) 0
  obtain ⟨hh, hturns⟩ := acceptHash_hashing (s := (s.setMem (s.mem.writeBytes 0 _)).setDraws 0) hok hlen.symm
    (s.mem.writeBytes_holds _)
  obtain ⟨u, hu, Iu, hend⟩ := hh.engineRun_next (acceptHash_inv Iw hok) n
  obtain rfl : t.asWritten s.draws = u := Host.Outcome.next.inj (hw.symm.trans hu)
  rw [hturns, hlen] at hend
  -- the two machines differ in the memory and the draws, of which `HashDone` does not speak
  refine ⟨t, ht, hmem, hend.imp (fun ⟨hrun, hl⟩ => ⟨hrun.busy, ?_⟩) id⟩
  have := hrun.turnsLeft_pos Iu
  omega

/-- Settles O55: after all its turns an accepted HASH has ended, after fewer it runs on. -/
theorem acceptedHashDeliversHashBytes : Obligations.AcceptedHashDeliversHashBytes := by
  intro s u D I hb hD hfit hu m n
  have hok := hashCheck_eq_ok hD hfit
  have haccept := hu.symm.trans (exec_hash_of_idle hb)
  rw [hashCommand_of_ok hok] at haccept
  cases haccept
  have run := acceptedHash_run I hb hok
  constructor
  · obtain ⟨t, ht, hmem, ⟨-, hlt⟩ | ⟨hdone, -⟩⟩ := run n
    · exact absurd hlt (Nat.lt_irrefl n)
    · exact ⟨t, ht, hdone, hmem⟩
  · intro k hk
    obtain ⟨t, ht, -, ⟨hbusy, -⟩ | ⟨-, hle⟩⟩ := run k
    · exact ⟨t, ht, hbusy⟩
    · exact absurd hk (Nat.not_lt.2 hle)

end Sys2Proof.Machine
end

section
/-! PROOF. The padded message and the chunks that LOAD generates of it, byte by byte and word by word (spec
43_padding.md R231 to R238), in the spec's terms: the generated bytes are 0x80, the zeros and the bit count. -/

namespace Sys2Proof.Machine

/-! ### The generated bytes (R231 to R233) -/

section
variable {D : Descriptor} {L p : Nat}

/-- R231: the first generated byte. -/
theorem generatedByte_at_length (hp : p = L) : generatedByte D L p = 0x80#8 := by
  rw [generatedByte, if_pos hp]
  rfl

/-- R231: a zero byte, between the sentinel and the length field. -/
theorem generatedByte_before_lenField (hL : L < p) (hp : p < paddedLength D L - D.lb) :
    generatedByte D L p = 0x00#8 := by
  rw [generatedByte, if_neg hL.ne', if_neg hp.not_ge]

/-- R232: a byte of the length field, counted from the end of the padded message. -/
theorem generatedByte_in_lenField (hD : D.Shaped) (hp : paddedLength D L - D.lb ≤ p) (hT : p < paddedLength D L) :
    generatedByte D L p = BitVec.ofNat 8 (8 * L / 2 ^ (8 * (paddedLength D L - 1 - p))) := by
  have hlen := paddedLength_eq hD L
  have hpos : D.lb - 1 - (p - (paddedLength D L - D.lb)) = paddedLength D L - 1 - p := by omega
  rw [generatedByte, if_neg (by omega), if_pos hp, lenFieldByte, Nat.shiftRight_eq_div_pow, hpos]

end

theorem zeroCount_lt {D : Descriptor} (hD : D.Shaped) (L : Nat) : zeroCount D L < D.cb := by
  have hcb := hD.cb_pos
  rw [zeroCount, Int.toNat_lt (Int.emod_nonneg _ (by omega))]
  exact Int.emod_lt_of_pos _ (by omega)

/-- Settles O37: the length is `paddedLength_eq`, a byte past the message is a generated one. -/
theorem paddedMessageIsWholeChunks : Obligations.PaddedMessageIsWholeChunks := by
  intro a D m h cb lb T
  have hD := desc_shaped h
  have hT : m.length + 1 + zeroCount D m.length + lb = T := paddedLength_eq hD m.length
  refine ⟨rfl, (padMessage_length m).trans hT, hT, zeroCount_lt hD m.length, fun p hp => ?_⟩
  rw [padMessage_getElem? hD m p hp]
  split_ifs with hmsg hsent hzero
  · exact List.getElem?_eq_getElem hmsg
  · rw [generatedByte_at_length hsent]
  · rw [generatedByte_before_lenField (by omega) hzero]
  · rw [generatedByte_in_lenField hD (Nat.le_of_not_lt hzero) hp]
    rfl

/-! ### The bytes of a chunk (R233) -/

/-- Byte `i` of those that LOAD gives: read from the memory, after the draws made by then, or generated. -/
theorem loadBytes_getElem? (m : Memory) (D : Descriptor) (L d p : Nat) {n i : Nat} (hi : i < n) :
    ∃ d', (loadBytes m D L d p n).1[i]? =
      some (if p + i < L then (m.readByte d' (p + i)).1 else generatedByte D L (p + i)) := by
  induction n generalizing d p i with
  | zero => exact absurd hi (Nat.not_lt_zero i)
  | succ n ih =>
    cases i with
    | zero =>
      refine ⟨d, ?_⟩
      rw [loadBytes, List.getElem?_cons_zero, apply_ite Prod.fst]
      rfl
    | succ i =>
      rw [loadBytes, List.getElem?_cons_succ, ← Nat.add_assoc p, Nat.add_right_comm p]
      exact ih _ (p + 1) (Nat.lt_of_succ_lt_succ hi)

section
variable (m : Memory) (D : Descriptor) {L p n i : Nat} (d : Nat)

theorem loadBytes_getElem?_of_written (hi : i < n) (hL : p + i < L) {v : Byte} (hv : m.lookup (p + i) = some v) :
    (loadBytes m D L d p n).1[i]? = some v := by
  obtain ⟨d', hbyte⟩ := loadBytes_getElem? m D L d p hi
  rw [hbyte, if_pos hL, Memory.readByte_of_lookup hv]

theorem loadBytes_getElem?_of_generated (hi : i < n) (hL : L ≤ p + i) :
    (loadBytes m D L d p n).1[i]? = some (generatedByte D L (p + i)) := by
  obtain ⟨d', hbyte⟩ := loadBytes_getElem? m D L d p hi
  rw [hbyte, if_neg hL.not_gt]

end

theorem chunk_end_le_paddedLength {D : Descriptor} {L j : Nat} (hj : j < numChunks D L) :
    j * D.cb + D.cb ≤ paddedLength D L := by
  rw [← Nat.succ_mul, paddedLength]
  exact Nat.mul_le_mul_right _ hj

/-- Settles O38: a byte of the chunk is read or generated; with the message written, `loadBytes_of_holds`. -/
theorem chunkBytesAreThePaddedMessage : Obligations.ChunkBytesAreThePaddedMessage := by
  intro a D mem L j d h cb lb T hj B
  have hD := desc_shaped h
  have hT : L + 1 + zeroCount D L + lb = T := paddedLength_eq hD L
  have hend : j * cb + cb ≤ T := chunk_end_le_paddedLength hj
  refine ⟨loadBytes_length .., ?_, ?_⟩
  · intro i hi p
    have hp : p < T := (Nat.add_lt_add_left hi _).trans_le hend
    have hgen : L ≤ p → B[i]? = some (generatedByte D L p) := loadBytes_getElem?_of_generated mem D d hi
    refine ⟨fun hL v hv => loadBytes_getElem?_of_written mem D d hi hL hv,
      fun hL => ?_, fun hL hz => ?_, fun hf => ?_⟩
    · rw [hgen hL.ge, generatedByte_at_length hL]
    · rw [hgen hL.le, generatedByte_before_lenField hL hz]
    · rw [hgen (by omega), generatedByte_in_lenField hD hf hp]
      rfl
  · rintro m rfl hmem
    exact loadBytes_of_holds hD hmem d _ _ hend

/-! ### The words of a chunk (R236) -/

theorem pack8_toNat (b0 b1 b2 b3 b4 b5 b6 b7 : Byte) :
    (pack8 b0 b1 b2 b3 b4 b5 b6 b7).toNat =
      b0.toNat * 2 ^ 56 + b1.toNat * 2 ^ 48 + b2.toNat * 2 ^ 40 + b3.toNat * 2 ^ 32 +
      b4.toNat * 2 ^ 24 + b5.toNat * 2 ^ 16 + b6.toNat * 2 ^ 8 + b7.toNat := by
  rw [pack8, pack2, toNat_append_eq_add, pack4_toNat, pack4_toNat]
  omega

theorem chunkWords_getElem? (D : Descriptor) (B : List Byte) {i : Nat} (hi : i < 16) :
    (chunkWords D B)[i]? = some (chunkWord D B i) := by
  rw [chunkWords, List.getElem?_map, List.getElem?_range hi]
  rfl

/-- Settles O39: a word is the value of its packed bytes, a 32-bit one zero-extended. -/
theorem messageWordsAreBigEndian : Obligations.MessageWordsAreBigEndian := by
  intro a D B _ _ b
  refine ⟨chunkWords_length D B, fun i hi => ⟨chunkWords_getElem? D B hi, fun hw => ?_, fun hw => ?_⟩⟩
  · rw [chunkWord, if_pos hw, BitVec.toNat_setWidth_of_le (by decide), pack4_toNat]
  · rw [chunkWord, if_neg (by rw [hw]; decide), pack8_toNat]

end Sys2Proof.Machine
end

section
/-! PROOF. The words that LOAD writes to `W` (spec 44_schedule.md R260, R262): the expanded schedule, and so the
chunk's sixteen words and then the recurrence of the family, read off the registers themselves. -/

namespace Sys2Proof.Machine

/-- The schedule that LOAD expands from the chunk it reads (R200). -/
def loadSchedule (D : Descriptor) (s : State) : List Word64 :=
  schedule D (chunkWords D (chunkBytes s.mem D s.lenL.toNat s.j.toNat s.draws).1)

theorem Descriptor.Shaped.sixteen_le_rounds {D : Descriptor} (h : D.Shaped) : 16 ≤ D.rounds := by
  rcases h.rounds with h | h <;> omega

section
variable {D : Descriptor} (s : State) {i : Nat}

/-- LOAD writes the words of the schedule that the algorithm has (R200). -/
theorem loadStep_W (hi : i < 80) (hR : i < D.rounds) :
    (loadStep D s).W[i] = (loadSchedule D s).getD i 0#64 := by
  simp only [loadStep, Vector.getElem_ofFn, if_pos hR]
  rfl

theorem loadStep_W_first (hD : D.Shaped) (h16 : i < 16) (hi : i < 80) :
    (loadStep D s).W[i] = chunkWord D (chunkBytes s.mem D s.lenL.toNat s.j.toNat s.draws).1 i := by
  rw [loadStep_W s hi (h16.trans_le hD.sixteen_le_rounds)]
  exact schedule_first D _ i h16

theorem loadStep_W_next (h16 : 16 ≤ i) (hR : i < D.rounds) (hi : i < 80) :
    (loadStep D s).W[i] = nextWord D ((loadSchedule D s).take i) := by
  rw [loadStep_W s hi hR]
  exact schedule_next D _ i h16 hR

/-- The word `k` places back in the schedule is the register `k` places back. -/
theorem loadSchedule_back (hD : D.Shaped) (h16 : 16 ≤ i) (hR : i < D.rounds) (hi : i < 80) {k : Nat}
    (hk : 0 < k) (hk16 : k ≤ 16) :
    ((loadSchedule D s).take i).getD (((loadSchedule D s).take i).length - k) 0#64 =
      (loadStep D s).W[i - k] := by
  rw [loadStep_W s (by omega) (by omega)]
  exact schedule_back D _ i k hD.sixteen_le_rounds hk (hk16.trans h16) hR.le

end

/-- Settles O30: the SHA-2 branch of `nextWord`, each word it looks back to found in its register. -/
theorem loadExpandsTheSha2Schedule : Obligations.LoadExpandsTheSha2Schedule := by
  intro s D rot hp hd hf
  have hD := desc_shaped hd
  refine ⟨loadStep D s, engineStep_of_load hp hd, fun i h16 => loadStep_W_first s hD h16 i.isLt, ?_⟩
  rintro i ⟨h16, hR⟩ hi
  have back {k : Nat} (hk : 0 < k) (hk16 : k ≤ 16) := loadSchedule_back s hD h16 hR hi hk hk16
  rw [loadStep_W_next s h16 hR hi, nextWord, hf]
  simp only [back, Nat.reduceLT, Nat.reduceLeDiff]

/-- Settles O31: the SHA-1 branch of `nextWord`; narrowing each word narrows their exclusive or. -/
theorem loadExpandsTheSha1Schedule : Obligations.LoadExpandsTheSha1Schedule := by
  intro s hp ha
  have hd : desc s.algL = some descSha1 := by rw [ha]; rfl
  have hD := desc_shaped hd
  refine ⟨loadStep descSha1 s, engineStep_of_load hp hd, fun i h16 => loadStep_W_first s hD h16 i.isLt, ?_⟩
  intro i h16 hi
  have back {k : Nat} (hk : 0 < k) (hk16 : k ≤ 16) := loadSchedule_back s hD h16 hi hi hk hk16
  have hf : descSha1.fam = .sha1 := rfl
  rw [loadStep_W_next s h16 hi hi, nextWord, hf]
  simp only [back, Nat.reduceLT, Nat.reduceLeDiff, BitVec.setWidth_xor]
  rfl

end Sys2Proof.Machine
end

section
/-! PROOF. The working variables that ROUND writes to `V` (spec 45_compression.md R288, R290, R291): the round of
the descriptor's family, read off the registers. -/

namespace Sys2Proof.Machine

/-- SHA-2 has eight working variables (R131). -/
theorem desc_nsw_of_sha2 {a : BitVec 4} {D : Descriptor} {rot : RotTable} (hD : desc a = some D)
    (hf : D.fam = .sha2 rot) : D.nsw = 8 := by
  rcases desc_family hD with hn | ⟨-, h1⟩
  · exact hn
  · rw [hf] at h1
    cases h1

section
variable {D : Descriptor} (t : Nat)

theorem roundVars_of_sha2 {rot : RotTable} (hf : D.fam = .sha2 rot) (v : Vars D.w) (wt kt : BitVec D.w) :
    roundVars D t v wt kt = sha2Round rot v wt kt := by
  rw [roundVars, hf]

theorem roundVars_of_sha1 (hf : D.fam = .sha1) (v : Vars D.w) (wt kt : BitVec D.w) :
    roundVars D t v wt kt = sha1Round t v wt kt := by
  rw [roundVars, hf]

variable (V : Vector Word64 8) (wt kt : Word64) {i : Nat} (hi : i < 8)

/-- A round writes the words that the descriptor uses (R201). -/
theorem roundRegs_getElem_of_lt (hn : i < D.nsw) :
    (roundRegs D V t wt kt)[i] =
      ((roundVars D t (varsOf D.w V) (wt.setWidth D.w) (kt.setWidth D.w)).get ⟨i, hi⟩).setWidth 64 := by
  rw [roundRegs, Vector.getElem_ofFn, if_pos hn]

/-- A round leaves the words that the descriptor does not use (R54). -/
theorem roundRegs_getElem_of_le (hn : D.nsw ≤ i) : (roundRegs D V t wt kt)[i] = V[i] := by
  rw [roundRegs, Vector.getElem_ofFn, if_neg hn.not_gt]
  rfl

end

/-- `f_t` of SHA-1: after Ch, Maj in the rounds 40 to 59 and Parity in the others (R290). -/
theorem sha1F_eq_ch_maj_parity {n : Nat} (t : Nat) (x y z : BitVec n) :
    sha1F t x y z =
      if t < 20 then ch x y z else if 40 ≤ t ∧ t < 60 then maj x y z else parity x y z := by
  unfold sha1F
  by_cases h40 : 40 ≤ t
  · simp only [h40, h40.not_gt, if_false, true_and]
  · simp only [h40, not_le.mp h40, if_true, false_and, if_false]

section
variable {s : State} {D : Descriptor} (ht : s.t.toNat < 80)
include ht

/-- The frame of ROUND, the counter read as a number: it does not wrap (R56, R201). -/
theorem roundStep_frame :
    roundStep D s = { s with V := (roundStep D s).V, t := s.t + 1#7,
                             phase := if s.t.toNat + 1 = D.rounds then .fold else .round } := by
  have ht1 : (s.t + 1#7).toNat = s.t.toNat + 1 := by bv_omega
  rw [← ht1]
  rfl

/-- ROUND takes the schedule word and the constant of its round (R201). -/
theorem roundStep_V :
    (roundStep D s).V = roundRegs D s.V s.t.toNat s.W[s.t.toNat] (D.kAt s.t.toNat) := by
  have hW : s.W.toList.getD s.t.toNat 0#64 = s.W[s.t.toNat] := by
    simp [List.getD_eq_getElem?_getD, ht]
  rw [← hW]
  rfl

theorem roundStep_V_of_lt {i : Nat} (hi : i < 8) (hn : i < D.nsw) :
    (roundStep D s).V[i] =
      ((roundVars D s.t.toNat (varsOf D.w s.V) (s.W[s.t.toNat].setWidth D.w)
        ((D.kAt s.t.toNat).setWidth D.w)).get ⟨i, hi⟩).setWidth 64 := by
  simp only [roundStep_V ht, roundRegs_getElem_of_lt _ _ _ _ hi hn]

end

/-- Settles O33: each register holds its variable of `sha2Round`. -/
theorem sha2RoundUpdatesTheWorkingVariables : Obligations.Sha2RoundUpdatesTheWorkingVariables := by
  intro s D rot ht hp hd hf _
  have hn := desc_nsw_of_sha2 hd hf
  refine ⟨roundStep D s, engineStep_of_round hp hd, roundStep_frame ht, ?_⟩
  have updated {i : Nat} (hi : i < 8) := roundStep_V_of_lt (D := D) ht hi (hn ▸ hi)
  simp only [roundVars_of_sha2 _ hf] at updated
  exact ⟨updated _, updated _, updated _, updated _, updated _, updated _, updated _, updated _⟩

/-- Settles O34: with `f_t` read as `sha1F`, the five used registers hold their variables of `sha1Round`; the other
three are kept. -/
theorem sha1RoundUpdatesTheWorkingVariables : Obligations.Sha1RoundUpdatesTheWorkingVariables := by
  intro s ht hp ha
  have hd : desc s.algL = some descSha1 := by rw [ha]; rfl
  refine ⟨roundStep descSha1 s, engineStep_of_round hp hd, roundStep_frame ht, ?_⟩
  have updated {i : Nat} (hi : i < 5) := roundStep_V_of_lt (D := descSha1) ht (by omega) hi
  have kept {i : Nat} (hi : i < 8) (h5 : 5 ≤ i) : (roundStep descSha1 s).V[i] = s.V[i] :=
    roundRegs_getElem_of_le _ _ _ _ hi h5
  simp only [roundVars_of_sha1 (D := descSha1) _ rfl] at updated
  simp only [← sha1F_eq_ch_maj_parity]
  exact ⟨updated (by decide), updated (by decide), updated (by decide), updated (by decide),
    updated (by decide), kept (by decide) le_rfl, kept (by decide) (by decide), kept (by decide) (by decide)⟩

end Sys2Proof.Machine
end

section
/-! PROOF. The HASH command and the digest it leaves (spec 42_commands.md R196; 46_accumulator_digest.md R310, R312,
R325, R326): acceptance, the steps of the machine while it runs, and the lengths of its result. -/

namespace Sys2Proof.Machine

/-! ### A running HASH under every step but a reset (R85, R312) -/

section
variable {s t : State} {D : Descriptor} {m : List Byte}

/-- IRQ_EN, the draws, the value last read and the inbox are no part of a HASH's progress. -/
theorem Hashing.unobserved (h : Hashing D m s) (de ee : Bool) (d : Nat) (r : Word32) (q : List Action) :
    Hashing D m { s with doneEn := de, errEn := ee, draws := d, readData := r, inbox := q } := { h with }

/-- A host transaction leaves a running HASH where it is: only reads and writes to IRQ_EN have an effect while busy
(R85, R390). -/
theorem HostEffect.keeps_hashing {i : Instr} (he : HostEffect i s t) (h : Hashing D m s) : Hashing D m t := by
  cases he with
  | unchanged => exact h
  | read | irqEn => exact h.unobserved _ _ _ _ _
  | alg hb | lenLo hb | lenHi hb | rejected hb | accepted hb | cleared hb | stored hb =>
    exact absurd (hb.symm.trans h.busy) Bool.false_ne_true

end

/-- Settles O54: a host transaction leaves the HASH where it is, and the engine's turn takes it one step on or
completes it. -/
theorem stepKeepsTheHashOnTheAlgorithm : Obligations.StepKeepsTheHashOnTheAlgorithm := by
  intro s t D m I h hreset hstep
  have taken : ∀ q, Hashing D m (s.setInbox q) := fun q => h.unobserved _ _ _ _ _
  rcases step_next hstep with ⟨w, rest, i, -, -, -, he⟩ | ⟨ha, -⟩ | ⟨rest, hq, -⟩
  · exact .inl (he.keeps_hashing (taken rest))
  · have Itaken : MachineInv (s.setInbox s.inbox.tail) := I.unobserved _ _ _ _ _
    obtain ⟨u, hu, -, hend⟩ := (taken s.inbox.tail).engineStep_next Itaken
    rw [step_of_engine ha, hu] at hstep
    cases hstep
    exact hend.imp And.left And.left
  · exact absurd (nextAction_of_inbox hq) hreset

/-! ### Acceptance (R196, R234, R310) -/

/-- The chunk count that acceptance latches does not wrap (R234). -/
theorem acceptHash_nch {s : State} {D : Descriptor} (hok : hashCheck s = .ok D) :
    (acceptHash (s.setStatus false false 0#4) D).nch.toNat = numChunks D s.msgLen.toNat := by
  obtain ⟨hD, -, hfit⟩ := hashCheck_ok hok
  have hlt := numChunks_lt (desc_shaped hD) (hfit.trans s.memSize.legal.2.2)
  exact (BitVec.toNat_ofNat _ 32).trans (Nat.mod_eq_of_lt hlt)

/-- Word `i` of the running state at acceptance (R310). -/
theorem initState_getElem (D : Descriptor) (i : Fin 8) :
    (initState D)[i] = if i.val < D.nsw then D.iv.getD i.val 0#64 else 0#64 :=
  Vector.getElem_ofFn i.isLt

/-- Settles O13: acceptance's own update names the fields it writes. -/
theorem acceptedHashStartsTheEngine : Obligations.AcceptedHashStartsTheEngine := by
  intro s D hb hD hfit
  have hok := hashCheck_eq_ok hD hfit
  have hexec := (exec_hash_of_idle hb).trans (congrArg Host.Outcome.next (hashCommand_of_ok hok))
  exact ⟨_, hexec, rfl, acceptHash_nch hok, initState_getElem D⟩

/-! ### The lengths of the digest (R325, R326) -/

theorem toHex_length {n : Nat} (x : BitVec n) : (toHex x).length = n / 4 := by simp [toHex]

/-- Eight characters for each of the `dl/32` digest registers (R326). -/
theorem hexDigest_length {D : Descriptor} (h : D.Shaped) (r : Vector Word32 16) :
    (hexDigest D r).length = D.dl / 4 := by
  obtain ⟨hwords, -, hregs⟩ := h.digestWords
  simp only [hexDigest, List.length_flatMap, toHex_length, List.map_const', List.sum_replicate, List.length_take,
    Vector.length_toList, smul_eq_mul]
  omega

/-- Settles O40: truncation leaves `dl/8` bytes of every serialised state. -/
theorem digestHasAFixedLength : Obligations.DigestHasAFixedLength :=
  fun _ _ _ r hD => ⟨truncateDigest_length (desc_shaped hD) _, hexDigest_length (desc_shaped hD) r⟩

end Sys2Proof.Machine
end

section
/-! PROOF. The interrupt output (spec 60_exceptions.md R345), read off the bits of STATUS and IRQ_EN, and what a step
answers from the invariant (R344). -/

namespace Sys2Proof.Machine

/-! ### The bits of STATUS and IRQ_EN (10_state.md R34, R40) -/

section
variable (s : State)

theorem State.statusWord_done : s.statusWord.getLsbD 1 = s.done := by
  simp only [State.statusWord, flagBit, BitVec.getLsbD_setWidth, BitVec.getLsbD_append]
  simp

theorem State.statusWord_err : s.statusWord.getLsbD 2 = s.err := by
  simp only [State.statusWord, flagBit, BitVec.getLsbD_setWidth, BitVec.getLsbD_append]
  simp

theorem State.irqEnWord_doneEn : s.irqEnWord.getLsbD 0 = s.doneEn := by
  simp only [State.irqEnWord, flagBit, BitVec.getLsbD_setWidth, BitVec.getLsbD_append]
  simp

theorem State.irqEnWord_errEn : s.irqEnWord.getLsbD 1 = s.errEn := by
  simp only [State.irqEnWord, flagBit, BitVec.getLsbD_setWidth, BitVec.getLsbD_append]
  simp

end

/-- Settles O44: the four bits are the flags that `irq` is made of. -/
theorem irqFollowsStatusAndEnables : Obligations.IrqFollowsStatusAndEnables := by
  intro s
  rw [State.readReg, State.readReg, s.statusWord_done, s.statusWord_err, s.irqEnWord_doneEn, s.irqEnWord_errEn,
    State.irq]

/-! ### What a step answers (R344) -/

theorem step_of_host {s : State} {w : Word64} (h : s.nextAction = .host w) :
    step s = hostStep w (s.setInbox s.inbox.tail) := by
  rw [step, inbox_of_nextAction h nofun]
  rfl

theorem hostStep_of_reject {w : Word64} {why : DecodeError} (h : decode w = .reject why) (s : State) :
    hostStep w s = .refused (.notATraceWord w) := by
  rw [hostStep, h]

/-- Settles O53: every operation and every reset has a next state, and so has the engine's turn, whose descriptor the
invariant gives; only a word that decodes to no operation is refused. -/
theorem noFaultFromTheInvariant : Obligations.NoFaultFromTheInvariant := by
  intro s I
  cases ha : s.nextAction with
  | host w =>
    cases hw : decode w with
    | instr i =>
      obtain ⟨t, ht, -⟩ := exec_effect i (s.setInbox s.inbox.tail) (decode_wf hw)
      exact .inl ⟨t, (step_of_nextIs ⟨w, ha, hw⟩).trans ht⟩
    | reject why => exact .inr ⟨w, rfl, (step_of_host ha).trans (hostStep_of_reject hw _), by simp [hw]⟩
  | engine =>
    have Itaken : MachineInv (s.setInbox s.inbox.tail) := I.unobserved _ _ _ _ _
    obtain ⟨t, ht, -⟩ := Itaken.engineStep_next
    exact .inl ⟨t, (step_of_engine ha).trans ht⟩
  | reset => exact .inl ⟨_, step_of_reset ha⟩

end Sys2Proof.Machine
end

section
/-! PROOF. A `wait` after an accepted HASH (spec 30_encoding.md R109; 70_reset_and_hazards.md R391, R395), whatever bytes
of its message are written: what a read returns does not touch the engine, so the turns between the reads add up. -/

namespace Sys2Proof.Machine

/-! ### The engine does not see what the host has read (log 8) -/

theorem engineStep_reply {s t : State} (h : engineStep s = .next t) (v : Word32) :
    engineStep (s.reply v) = .next (t.reply v) := by
  cases engineStep_next h with
  | idle hp => exact engineStep_of_idle hp
  | load D hD hp => exact engineStep_of_load (s := s.reply v) hp hD
  | round D hD hp => exact engineStep_of_round (s := s.reply v) hp hD
  | fold D hD hp => exact engineStep_of_fold (s := s.reply v) hp hD
  | output D hD hp => exact engineStep_of_output (s := s.reply v) hp hD

theorem engineRun_reply {s t : State} {n : Nat} (h : engineRun n s = .next t) (v : Word32) :
    engineRun n (s.reply v) = .next (t.reply v) := by
  induction n generalizing s with
  | zero => cases h; rfl
  | succ n ih =>
    cases hs : engineStep s with
    | next u =>
      rw [engineRun, hs] at h
      rw [engineRun, engineStep_reply hs]
      exact ih h
    | fault r | refused r => simp [engineRun, hs] at h

/-- Turns after turns are the turns together. -/
theorem engineRun_of_add {s u : State} {k : Nat} (hu : engineRun k s = .next u) (n : Nat) :
    engineRun (k + n) s = engineRun n u := by
  rw [engineRun_add, hu]

/-! ### A computation of `n` turns -/

/-- The engine takes `n` turns from `s` to its end in `t`: BUSY reads 1 before the last of them, and DONE alone after
it (R35, R391). -/
structure EndsAfter (n : Nat) (s t : State) : Prop where
  before : ∀ k < n, ∃ u, engineRun k s = .next u ∧ u.busy = true ∧ u.statusWord = 0x00000001#32
  last : engineRun n s = .next t
  idle : t.phase = .idle
  done : t.statusWord = 0x00000002#32

section
variable {s t u : State} {k n : Nat}

theorem EndsAfter.engineRun_of_le (h : EndsAfter n s t) (hk : n ≤ k) : engineRun k s = .next t := by
  obtain ⟨d, rfl⟩ := Nat.exists_eq_add_of_le hk
  rw [engineRun_of_add h.last, engineRun_idle h.idle]

/-- After `k` of its turns a computation has the others to come. -/
theorem EndsAfter.of_engineRun (h : EndsAfter (k + n) s t) (hu : engineRun k s = .next u) : EndsAfter n u t where
  before d hd := engineRun_of_add hu d ▸ h.before (k + d) (Nat.add_lt_add_left hd k)
  last := engineRun_of_add hu n ▸ h.last
  idle := h.idle
  done := h.done

theorem EndsAfter.reply (h : EndsAfter n s t) (v : Word32) : EndsAfter n (s.reply v) (t.reply v) where
  before k hk :=
    let ⟨u, hu, hread⟩ := h.before k hk
    ⟨u.reply v, engineRun_reply hu v, hread⟩
  last := engineRun_reply h.last v
  idle := h.idle
  done := h.done

/-- `wait` reads BUSY until the turns before its reads add up to those of the computation, and then DONE once. -/
theorem EndsAfter.waitRun (h : EndsAfter n s t) (hn : 0 < n) (turns : List Nat) :
    (turns.sum < n → ∃ u, u.busy = true ∧
      HostOp.wait.run turns s = .waiting u (List.replicate turns.length 0x00000001#32)) ∧
    (n ≤ turns.sum → ∃ rest k, turns.length = k + 1 + rest.length ∧
      HostOp.wait.run turns s =
        .finished (t.reply 0x00000002#32) rest (List.replicate k 0x00000001#32 ++ [0x00000002#32])) := by
  induction turns generalizing s t n with
  | nil =>
    obtain ⟨u, hu, hbusy, -⟩ := h.before 0 hn
    cases hu
    exact ⟨fun _ => ⟨s, hbusy, rfl⟩, fun hle => absurd hle (Nat.not_le.2 hn)⟩
  | cons m turns ih =>
    rw [List.sum_cons]
    by_cases hm : m < n
    · obtain ⟨u, hu, -, hstatus⟩ := h.before m hm
      obtain ⟨d, rfl⟩ := Nat.exists_eq_add_of_le hm.le
      obtain ⟨few, enough⟩ := ih ((h.of_engineRun hu).reply 0x1#32) (by omega)
      rw [waitRun_cons hu, hstatus, if_neg (by decide)]
      constructor
      · intro hsum
        obtain ⟨v, hbusy, hrun⟩ := few (by omega)
        exact ⟨v, hbusy, by rw [hrun]; rfl⟩
      · intro hsum
        obtain ⟨rest, k, hlen, hrun⟩ := enough (by omega)
        exact ⟨rest, k + 1, by rw [List.length_cons, hlen]; omega, by rw [hrun]; rfl⟩
    · rw [waitRun_cons (h.engineRun_of_le (Nat.not_lt.1 hm)), h.done]
      exact ⟨fun hsum => by omega, fun _ => ⟨turns, 0, by rw [List.length_cons]; omega, rfl⟩⟩

end

/-- An accepted HASH takes the turns of R205, and ends with the digest of its message (R391). -/
theorem acceptedHash_endsAfter {s : State} {D : Descriptor} (I : MachineInv s) (hb : s.busy = false)
    (hok : hashCheck s = .ok D) :
    ∃ t, EndsAfter (numChunks D s.msgLen.toNat * (D.rounds + 2) + 1) (acceptHash (s.setStatus false false 0#4) D) t ∧
      HashDone D (s.mem.readBytes s.draws 0 s.msgLen.toNat).1 t ∧ t.mem = s.mem := by
  have run := acceptedHash_run I hb hok
  obtain ⟨t, ht, hmem, ⟨-, hlt⟩ | ⟨hdone, -⟩⟩ := run (numChunks D s.msgLen.toNat * (D.rounds + 2) + 1)
  · exact absurd hlt (Nat.lt_irrefl _)
  refine ⟨t, ⟨fun k hk => ?_, ht, hdone.idle, hdone.status⟩, hdone, hmem⟩
  obtain ⟨u, hu, -, ⟨hbusy, -⟩ | ⟨-, hle⟩⟩ := run k
  · obtain ⟨u', hu', Iu⟩ := (acceptHash_inv I hok).engineRun_next k
    cases hu.symm.trans hu'
    exact ⟨u, hu, hbusy, Iu.statusWord_of_busy hbusy⟩
  · exact absurd hk (Nat.not_lt.2 hle)

theorem exec_hash_of_ok {s : State} {D : Descriptor} (hb : s.busy = false) (hok : hashCheck s = .ok D) :
    exec .hash s = .next (acceptHash (s.setStatus false false 0#4) D) :=
  (exec_hash_of_idle hb).trans (congrArg Host.Outcome.next (hashCommand_of_ok hok))

/-- Settles O59: the reads of `wait` follow the turns that an accepted HASH takes. -/
theorem waitEndsWithTheDigest : Obligations.WaitEndsWithTheDigest := by
  intro s u D turns I hb hD hfit hu m n
  have hok := hashCheck_eq_ok hD hfit
  cases hu.symm.trans (exec_hash_of_ok hb hok)
  obtain ⟨t, hends, hdone, hmem⟩ := acceptedHash_endsAfter I hb hok
  obtain ⟨few, enough⟩ := hends.waitRun (Nat.succ_pos _) turns
  refine ⟨few, fun hsum => ?_⟩
  obtain ⟨rest, k, hlen, hrun⟩ := enough hsum
  exact ⟨t.reply 0x2#32, rest, k, hdone, hmem, hlen, hrun⟩

end Sys2Proof.Machine
end

section
/-! PROOF. The busy gate (spec 70_reset_and_hazards.md R390) and the reset input (R380). -/

namespace Sys2Proof.Machine

/-! ### Host writes to a busy machine (R390) -/

section
variable {s : State} (hb : s.busy = true)
include hb

theorem State.writeCtrl_of_busy (v : Word32) : s.writeCtrl v = s := State.unlessBusy_of_busy _ hb

theorem State.windowWrite_of_busy (a n : Nat) (v : Word32) : s.windowWrite a n v = s := State.unlessBusy_of_busy _ hb

/-- Every operation but a read and a write to IRQ_EN leaves a busy machine as it is. -/
theorem exec_of_busy {i : Instr} (hi : isRead i = false) (hirq : ∀ v, i ≠ .regWr 0x0018#15 v) :
    exec i s = .next s := by
  cases i with
  | nop => rfl
  | hash | clear => exact congrArg Host.Outcome.next (State.unlessBusy_of_busy _ hb)
  | cmdReserved op => exact congrArg Host.Outcome.next (runCommand_of_busy hb op)
  | sha1 | sha224 | sha256 | sha384 | sha512 | sha512_224 | sha512_256 | algReserved0 | algReserved8F =>
    exact congrArg Host.Outcome.next (State.writeCtrl_of_busy hb _)
  | regWr off v =>
    obtain ⟨-, ignored, -⟩ := registerWriteStoresInWritableRegisters s v
    refine ignored hb off ?_
    rintro rfl
    exact hirq v rfl
  | regNarrow dir size off data =>
    cases dir with
    | read => cases hi
    | write => rfl
  | msgWr8 a v | msgWr16 a v | msgWr32 a v => exact congrArg Host.Outcome.next (State.windowWrite_of_busy hb ..)
  | regRd | msgRd8 | msgRd16 | msgRd32 => cases hi

end

/-- Settles O21: a write meets the busy gate, unless it is to IRQ_EN; a read changes no register; the invariant keeps
the latched operands equal to the registers. -/
theorem writesWhileBusyAreIgnored : Obligations.WritesWhileBusyAreIgnored := by
  intro s hb
  refine ⟨fun i hi hirq => exec_of_busy hb hi hirq, fun v => exec_regWr s v .irqEn, fun i hi => ?_, fun I => ?_⟩
  · obtain ⟨v, d, hread, -⟩ := hostReadsChangeNoRegisterAndNoByte s i hi
    exact ⟨v, d, hread⟩
  · obtain ⟨D, -, B⟩ := I.running hb
    exact B.latched

/-! ### The reset input (R380) -/

/-- A second reset finds the reset values it would write. -/
theorem State.applyReset_setInbox_applyReset (s : State) (q : List Action) :
    (s.applyReset.setInbox q).applyReset = s.applyReset.setInbox q := rfl

/-- Settles O2: a reset writes the values of R60 over any state, those of a running computation and of an earlier
reset included; what else ends a computation is O45's. -/
theorem resetInputRestoresEveryValue : Obligations.ResetInputRestoresEveryValue := by
  refine ⟨fun s hs => ?_, fun s t hstep => (busyChangesOnlyByHashOutputReset s t hstep).2⟩
  refine ⟨_, step_of_reset hs, applyReset_atReset _, rfl, fun ht => ⟨_, step_of_reset ht, ?_⟩⟩
  rw [State.applyReset_setInbox_applyReset]
  rfl

end Sys2Proof.Machine
end
